-- ==== Sys2Proof/Word.lean ====
section
/-! DEFINITION. The widths of the block (spec/00_scope.md R6, R7): names for the bit-vector types and the constants of
the block. Every value is unsigned. -/

namespace Sys2Proof

/-- A symbol, and the unit of the memories `IN` and `OUT`: "a byte value in [0,255]" (R6, R40). -/
abbrev Byte := BitVec 8

/-- A host register, a length or a cursor: `LW` = 64 bits (R6). -/
abbrev Word := BitVec 64

/-- An entry of the frequency table: `CW` = 32 bits (R6). -/
abbrev Count := BitVec 32

/-- A tree node's frequency: `NW` = 40 bits (R6). -/
abbrev Freq := BitVec 40

/-- An arena index: 9 bits, `NIL` among its values (R6, R20). -/
abbrev NodeIdx := BitVec 9

/-- `NIL`, the index that means "absent" (R6). -/
abbrev NIL : NodeIdx := 511#9

/-- `NSYM`, the number of symbols (R6). -/
abbrev NSYM : Nat := 256

/-- `NNODE`, the number of slots of the arena (R6). -/
abbrev NNODE : Nat := 511

end Sys2Proof
end

