-- ==== Sys2Proof/Config.lean ====
section
/-! DEFINITION. The open parameters of an instance (spec/00_scope.md R5) and the free values: constants with no body,
of which nothing can be proved but what their types say. -/

namespace Sys2Proof

/-- `FW`, the footer width: "4 or 8" (R5); nothing else is a legal value. -/
inductive FooterWidth where
  | w4
  | w8
deriving DecidableEq, Repr, Inhabited

/-- The parameters of one instance: "fixed for the life of one instance of the block and are not changed by any
command" (R5). -/
structure Params where
  /-- `FW`, the footer width. -/
  fw : FooterWidth
  /-- `CHUNK`, the growth increment of the output capacity, in bytes. -/
  chunk : Nat
  /-- `IN_MAX`, the size of the input memory in bytes. -/
  inMax : Nat
  /-- `OUT_MAX`, the size of the output memory in bytes. -/
  outMax : Nat
deriving DecidableEq, Repr

/-- `FW` as a number of bytes. -/
def Params.fwBytes (p : Params) : Nat :=
  match p.fw with
  | .w4 => 4
  | .w8 => 8

/-! ### The parameters of the machine after reset

No value is chosen (DESIGN CHOICE, log 1, safe): the raw constants below have no body, and the ranges of R5 hold of
the parameters made from them whatever they are. -/

/-- The footer width of the instance that comes out of reset. -/
opaque Config.fw : FooterWidth
/-- `CHUNK - 1` of the instance that comes out of reset. -/
opaque Config.chunkLess1 : Nat
/-- `IN_MAX - 1` of the instance that comes out of reset. -/
opaque Config.inMaxLess1 : BitVec 56
/-- `OUT_MAX - 1` of the instance that comes out of reset. -/
opaque Config.outMaxLess1 : BitVec 61

/-- The parameters of the instance that comes out of reset: any that R5 allows. -/
def Config.params : Params where
  fw := Config.fw
  chunk := Config.chunkLess1 + 1
  inMax := Config.inMaxLess1.toNat + 1
  outMax := Config.outMaxLess1.toNat + 1

/-! ### Free values

Each takes a counter of State (`inSeed`, `outSeed`), so that the values of one moment say nothing of those of another. -/

/-- What the byte of `IN` at an address holds before anything has written it since the reset that `seed` counts:
"must treat a command that reads one as reading an arbitrary byte" (spec/10_state.md R18; log 2). -/
opaque Config.freeInByte : (seed : Nat) → (address : Nat) → Byte
/-- What a byte of `OUT` to which the rules give no value holds (R19, R160; logs 2, 3). -/
opaque Config.freeOutByte : (seed : Nat) → (address : Nat) → Byte
/-- `BITCUR` between commands (R26, R180; log 4). -/
opaque Config.freeBitcur : Nat → Word
/-- `SIDX` between commands (R27, R180; log 4). -/
opaque Config.freeSidx : Nat → Word
/-- `OPOS` between commands (R27, R180; log 4). -/
opaque Config.freeOpos : Nat → Word
/-- `CAP` between commands (R28, R180; log 4). -/
opaque Config.freeCap : Nat → Word
/-- `CUR` between commands (R27, R180; log 4). -/
opaque Config.freeCur : Nat → NodeIdx

end Sys2Proof
end

