-- ==== Sys2Proof/Syntax.lean ====
section
/-! DEFINITION. The instructions of the block: the three host commands of spec/opcode_table.json. -/

namespace Sys2Proof

/-- The commands (spec/30_encoding.md R61). "Operands are implicit. No command names an operand" (R62), so no
constructor has a field. -/
inductive Instr where
  /-- `COUNT`, code 0x01: `count(buffer) -> FrequencyTable` (R80). -/
  | count
  /-- `ENCODE`, code 0x02: `encode(buffer, table) -> (packedBytes, bitCount)` (R120). -/
  | encode
  /-- `DECODE`, code 0x03: `decode(packedBytes, table) -> buffer` (R130). -/
  | decode
deriving DecidableEq, Repr

end Sys2Proof
end

