-- ==== Sys2Proof/WellFormed.lean ====
section
/-! DEFINITION. Which terms stand for something the spec allows: an instruction and the parameters of an instance. -/

namespace Sys2Proof

/-- Every command is well formed: the format has "no register field, no immediate field and no addressing-mode field"
(spec/30_encoding.md R60), so there is nothing to check. -/
def Instr.WellFormed (i : Instr) : Bool :=
  match i with
  | .count => true
  | .encode => true
  | .decode => true

/-- The legal values of the parameters (spec/00_scope.md R5). `FW` is 4 or 8 by its type. -/
abbrev Params.Legal (p : Params) : Prop :=
  1 ≤ p.chunk ∧ (1 ≤ p.inMax ∧ p.inMax ≤ 2 ^ 56) ∧ (1 ≤ p.outMax ∧ p.outMax ≤ 2 ^ 61)

end Sys2Proof
end

