-- ==== Sys2Proof/Decode.lean ====
section
/-! DEFINITION. Decoding and encoding of the command word (spec/30_encoding.md R60, R61, R64, R73). -/

namespace Sys2Proof

/-- Why a command word is no command. -/
inductive Reject where
  /-- "Every op value other than 0x01, 0x02, 0x03 is reserved" (R64). -/
  | reservedCode (op : BitVec 8)
deriving DecidableEq, Repr

/-- One row of spec/opcode_table.json. -/
structure OpcodeRow where
  mask : BitVec 8
  code : BitVec 8
  instr : Instr
deriving DecidableEq, Repr

/-- spec/opcode_table.json: "A decoder compares all eight bits: mask 0xFF, match the code" (R61). -/
def opcodeTable : List OpcodeRow :=
  [⟨0xFF#8, 0x01#8, .count⟩, ⟨0xFF#8, 0x02#8, .encode⟩, ⟨0xFF#8, 0x03#8, .decode⟩]

/-- A row of the table answers to a word. -/
def OpcodeRow.answers (r : OpcodeRow) (op : BitVec 8) : Bool := op &&& r.mask == r.code

/-- The command of a command word, or its rejection by name. -/
def decode (op : BitVec 8) : Except Reject Instr :=
  match opcodeTable.find? (fun r => r.answers op) with
  | some r => .ok r.instr
  | none => .error (.reservedCode op)

/-- The command word of a command (R61, R71). -/
def encode (i : Instr) : BitVec 8 :=
  match i with
  | .count => 0x01#8
  | .encode => 0x02#8
  | .decode => 0x03#8

/-- The command word of an instruction whose bits are `w`, of which the table gives `nbits`: bits above `nbits` are 0,
and a command is 8 bits long (R60). -/
def tableWord (nbits w : Nat) : BitVec 8 := BitVec.ofNat 8 (w % 2 ^ nbits)

/-- What the decoder reads from a word numbered as spec/opcode_table.json numbers it. -/
def decodeTableWord (nbits w : Nat) : Option Instr :=
  match decode (tableWord nbits w) with
  | .ok i => some i
  | .error _ => none

end Sys2Proof
end

