-- ==== Sys2Proof/Machine/State.lean ====
section
/-! DEFINITION. The state of the block (spec/10_state.md), the reasons a step can stop, and the state after reset
(spec/70_reset_and_hazards.md R180). -/

namespace Sys2Proof.Machine

/-- `PHASE`, "which names the step of the current command" (R27). -/
inductive Phase where
  | idle
  | check
  | counting
  | buildLeaves
  | buildWrap
  | buildMerge
  | pack
  | trimFooter
  | footerRead
  | walk
  | release
deriving DecidableEq, Repr

/-- The field `kind` of a node: "0 = leaf, 1 = internal" (R20). -/
inductive NodeKind where
  | leaf
  | internal
deriving DecidableEq, Repr

/-- One slot of the arena `NODE` that is in use (R20). -/
structure Node where
  kind : NodeKind
  /-- The symbol of a leaf; "meaningless in an internal node". -/
  sym : Byte
  freq : Freq
  /-- The parent, or `NIL`. -/
  parent : NodeIdx
  /-- The first (left) child, or `NIL`. -/
  first : NodeIdx
  /-- The second (right) child, or `NIL`. -/
  second : NodeIdx
deriving DecidableEq, Repr

/-- The tree of a command: `NODE`, `NCOUNT`, `ROOT`, `LEAF` (R20 to R23). -/
structure Tree where
  /-- The slots in use, in index order: "nodes in a growable array" (R20); "Slots at or above NCOUNT hold nothing"
  (log 11). -/
  node : List Node
  /-- `NCOUNT`, "the number of arena slots in use" (R21). -/
  ncount : BitVec 10
  /-- `ROOT`, or `NIL` "when no tree exists" (R22). -/
  root : NodeIdx
  /-- `LEAF[0..255]`, the by-symbol leaf index (R23). -/
  leaf : Vector NodeIdx 256
deriving DecidableEq, Repr

/-- No tree: what reset and RELEASE leave (R104, R180). -/
def Tree.released : Tree where
  node := []
  ncount := 0#10
  root := NIL
  leaf := Vector.replicate 256 NIL

/-- A byte space: the bytes that hold a value, by address, in rising order of address. An address that is not listed
holds no value (R18, R19; log 2). -/
abbrev Memory := List Host.Cell

/-- The error codes by name (spec/60_exceptions.md R150). -/
inductive ErrorCode where
  | emptyInput
  | emptyAlphabet
  | truncatedStream
  | illegalCommand
  | symbolNotInTree
  | absentChild
  | danglingPath
  | footerOverflow
  | outputFull
  | countOverflow
  | lengthRange
deriving DecidableEq, Repr

/-- A move of the host that changes the block (R17, spec/20_memory.md R40, R52). Host reads change nothing (R47) and are
functions of the state (log 7). -/
inductive HostMove where
  /-- A write of the register with a number (R17). -/
  | writeReg (number : Nat) (value : Word)
  /-- A write of one entry of `FT` (R10). -/
  | writeFt (entry : Byte) (value : Count)
  /-- A write of one byte of `IN` (R18). -/
  | writeIn (address : Nat) (value : Byte)
  /-- The reset event of the idle block (R180, R181). -/
  | reset
deriving DecidableEq, Repr

/-- Why the machine stops. No command does. -/
inductive Fault where
  /-- Raised by the step that takes a host write of `IN` at an address of `IN_MAX` or above: the address does not exist
  (R40) and the spec says nothing of such a write. Safe: nothing is claimed of a run that does it (log 9). -/
  | noSuchInAddress (address : Nat)
deriving DecidableEq, Repr

/-- Why the model has no step. No command answers so. -/
inductive Refusal where
  /-- Would be raised by an arm of `exec` that has no meaning; there is none. Safe. -/
  | notModelled (mnemonic : String)
  /-- Raised by a step of a state whose `PHASE` is not `IDLE`: "a model gives the host no step then" (R52). No run from
  reset reaches such a state. Safe (log 10). -/
  | hostMoveDuringCommand
deriving DecidableEq, Repr

/-- The block and the host moves it has still to take. -/
structure State where
  /-- `FW`, `CHUNK`, `IN_MAX`, `OUT_MAX`: fixed for the instance (R5, R30). -/
  params : Params
  /-- `FT[0..255]` (R10). -/
  ft : Vector Count 256
  /-- `ILEN` (R11). -/
  ilen : Word
  /-- `OLEN` (R12). -/
  olen : Word
  /-- `BITCNT` (R13). -/
  bitcnt : Word
  /-- `STATUS.ERR`, the stored part of `STATUS` (R14). -/
  err : BitVec 8
  /-- `IN` (R18). -/
  inMem : Memory
  /-- `OUT` (R19). -/
  out : Memory
  /-- `NODE`, `NCOUNT`, `ROOT`, `LEAF` (R20 to R23). -/
  tree : Tree
  /-- `PHASE` (R27). -/
  phase : Phase
  /-- `BITCUR` (R26). -/
  bitcur : Word
  /-- `SIDX` (R27). -/
  sidx : Word
  /-- `OPOS` (R27). -/
  opos : Word
  /-- `CAP` (R28). -/
  cap : Word
  /-- `CUR` (R27). -/
  cur : NodeIdx
  /-- The model's own: which free bytes the unlisted addresses of `IN` hold (log 5). -/
  inSeed : Nat
  /-- The model's own: which free bytes the unlisted addresses of `OUT` hold, and which free values the cursors hold
  between commands (log 5). -/
  outSeed : Nat
  /-- The model's own: the host's moves not yet taken, oldest first (log 6). -/
  host : List HostMove
deriving DecidableEq, Repr

/-- The state R180 gives an instance with given parameters. What R180 leaves unspecified is free: the bytes of `IN` and
`OUT` (nothing listed) and the cursors (logs 2, 4). -/
def State.resetWith (p : Params) : State where
  params := p
  ft := Vector.replicate 256 0#32
  ilen := 0#64
  olen := 0#64
  bitcnt := 0#64
  err := 0#8
  inMem := []
  out := []
  tree := Tree.released
  phase := .idle
  bitcur := Config.freeBitcur 0
  sidx := Config.freeSidx 0
  opos := Config.freeOpos 0
  cap := Config.freeCap 0
  cur := Config.freeCur 0
  inSeed := 0
  outSeed := 0
  host := []

/-- The machine right after reset (R180), with the parameters of the instance left open (log 1). -/
def State.reset : State := State.resetWith Config.params

end Sys2Proof.Machine
end

