-- ==== Sys2Proof/Machine/Flags.lean ====
section
/-! DEFINITION. The one status flag, `STATUS.ERR` (spec/10_state.md R14), and the error codes it takes
(spec/60_exceptions.md R150). -/

namespace Sys2Proof.Machine

/-- The code of an error (R150). -/
def ErrorCode.code (e : ErrorCode) : BitVec 8 :=
  match e with
  | .emptyInput => 1#8
  | .emptyAlphabet => 2#8
  | .truncatedStream => 3#8
  | .illegalCommand => 4#8
  | .symbolNotInTree => 5#8
  | .absentChild => 6#8
  | .danglingPath => 7#8
  | .footerOverflow => 8#8
  | .outputFull => 9#8
  | .countOverflow => 10#8
  | .lengthRange => 11#8

/-- The code of a command that completed (R150). -/
def successCode : BitVec 8 := 0#8

/-- `STATUS.ERR <- e`: "every command overwrites it" (R14, R176). -/
def setErr (e : BitVec 8) (s : State) : State := { s with err := e }

/-- The register `STATUS`: `ERR` in bits 7:0, bits 63:8 "read as zero" (R14). -/
def State.status (s : State) : Word := s.err.setWidth 64

end Sys2Proof.Machine
end

