-- ==== Sys2Proof/Machine/Ops.lean ====
section
/-! DEFINITION. The named operations over memory and state that the commands share: reading and writing a byte space,
`raise` (spec/60_exceptions.md R160), RELEASE (spec/41_build.md R104) and the end of a command. -/

namespace Sys2Proof.Machine

/-! ### A byte space -/

/-- The byte that an address holds, `none` where it holds no value. -/
def Memory.lookup : Memory → Nat → Option Byte
  | [], _ => none
  | (k, b) :: m, a => if k = a then some b else Memory.lookup m a

/-- The space after a byte write: the address holds the byte, in its place in the order of addresses. -/
def Memory.store : Memory → Nat → Byte → Memory
  | [], a, v => [(a, v)]
  | (k, b) :: m, a, v =>
    if a < k then (a, v) :: (k, b) :: m
    else if a = k then (a, v) :: m
    else (k, b) :: Memory.store m a v

/-- The space in which no address at or above `n` holds a value. -/
def Memory.below (n : Nat) (m : Memory) : Memory := m.filter (fun c => c.1 < n)

/-- The canonical form: addresses strictly rising. No entry can equal what an unlisted address holds, which is no
value (log 2). -/
abbrev Memory.wf (m : Memory) : Prop := m.Pairwise (fun x y => x.1 < y.1)

/-- `MemRead(IN, a, 1)` (spec/00_scope.md R8): an arbitrary byte where nothing has been written (R18; log 2). -/
def State.inByte (s : State) (a : Nat) : Byte :=
  (Memory.lookup s.inMem a).getD (Config.freeInByte s.inSeed a)

/-- `MemRead(OUT, a, 1)` (R8): an arbitrary byte where the rules give none (R19; logs 2, 3). -/
def State.outByte (s : State) (a : Nat) : Byte :=
  (Memory.lookup s.out a).getD (Config.freeOutByte s.outSeed a)

/-- `MemWrite(OUT, a, 1, v)` (R8). -/
def writeOut (a : Nat) (v : Byte) (s : State) : State := { s with out := Memory.store s.out a v }

/-- A host write of a byte of `IN` (R18). -/
def writeIn (a : Nat) (v : Byte) (s : State) : State := { s with inMem := Memory.store s.inMem a v }

/-! ### Sequencing -/

/-- `PHASE <- p` (spec/10_state.md R27). -/
def setPhase (p : Phase) (s : State) : State := { s with phase := p }

/-- RELEASE: "NCOUNT <- 0, ROOT <- NIL, for s = 0 to 255: LEAF[s] <- NIL"; no slot of `NODE` is readable (R104). -/
def release (s : State) : State := { s with tree := Tree.released }

/-- Every byte of `OUT` at or above `n` becomes unspecified (R19, R160), and with it the cursors, none of which
"survives the command that uses it" (spec/10_state.md section 4): free values of a new moment (logs 3, 4). -/
def forget (n : Nat) (s : State) : State :=
  { s with
    out := Memory.below n s.out
    outSeed := s.outSeed + 1
    bitcur := Config.freeBitcur (s.outSeed + 1)
    sidx := Config.freeSidx (s.outSeed + 1)
    opos := Config.freeOpos (s.outSeed + 1)
    cap := Config.freeCap (s.outSeed + 1)
    cur := Config.freeCur (s.outSeed + 1) }

/-- `OLEN <- n; BITCNT <- b` (R12, R13). -/
def setResult (n b : Word) (s : State) : State := { s with olen := n, bitcnt := b }

/-- The last statements of a successful ENCODE or DECODE (R120, R130): the results, RELEASE, `STATUS.ERR <- 0`; the bytes
of `OUT` at or above `OLEN` are no result (R19). -/
def deliver (n b : Word) (s : State) : State :=
  setPhase .idle (setErr successCode (release (forget n.toNat (setResult n b s))))

/-- `raise <Error e>` in a command (R160). The state it is given is that before the command: everything else a command
has written by then is overwritten here (R166; log 12). -/
def raiseError (c : Instr) (e : ErrorCode) (s : State) : State :=
  match c with
  | .count => setPhase .idle (setErr e.code s)
  | .encode => setPhase .idle (setErr e.code (release (forget 0 (setResult 0#64 0#64 s))))
  | .decode => setPhase .idle (setErr e.code (release (forget 0 (setResult 0#64 0#64 s))))

/-- IllegalCommandError: "STATUS.ERR <- 4 and nothing else" (R151). -/
def illegalCommand (s : State) : State := setErr ErrorCode.illegalCommand.code s

/-- A command, success or error, is a step to a next state (R175): the result of its run, or what `raise` leaves. -/
def finish (c : Instr) (r : Except ErrorCode State) (s : State) : Host.Outcome State Fault Refusal :=
  match r with
  | .ok t => .next t
  | .error e => .next (raiseError c e s)

/-- The entry checks of every command, in their order: `ILEN = 0`, then `ILEN > IN_MAX` (R165). -/
def entryChecks (s : State) : Except ErrorCode Unit :=
  if s.ilen = 0#64 then .error .emptyInput
  else if s.params.inMax < s.ilen.toNat then .error .lengthRange
  else .ok ()

end Sys2Proof.Machine
end

