-- ==== Sys2Proof/Machine/Operands.lean ====
section
/-! DEFINITION. The implicit operands of the commands (spec/30_encoding.md R62) and the packed format
(spec/20_memory.md R42, R43, spec/30_encoding.md R65, R66): tables by symbol, stream bits, the footer. -/

namespace Sys2Proof.Machine

/-- The table whose entry for symbol `s` is `f s`. -/
def tabulate {α : Type} (f : Byte → α) : Vector α 256 :=
  ⟨⟨(List.range 256).map (fun i => f (BitVec.ofNat 8 i))⟩, by simp⟩

/-- The entry of a table for a symbol: "indexed 0..255" (R10). -/
def entry {α : Type} (v : Vector α 256) (b : Byte) : α := v[b.toNat]'(b.isLt)

/-- The table with the entry of one symbol replaced. -/
def setEntry {α : Type} (v : Vector α 256) (b : Byte) (x : α) : Vector α 256 := v.set b.toNat x b.isLt

/-- `ceil8(n)`, "the number of bytes that hold n bits" (R7). -/
def ceil8 (n : Nat) : Nat := (n + 7) / 8

/-- Stream bit `p` of the input buffer: bit `p % 8` of byte `p / 8`, bit 0 least significant (R42). -/
def streamBit (s : State) (p : Nat) : Bool := (s.inByte (p / 8)).getLsbD (p % 8)

/-- The byte with bit `i` set to `b`, "the other seven bits of the byte are kept" (R111):
`(old & (0xFF - (1 << i))) | (b << i)`. -/
def setBit (old : Byte) (i : Nat) (b : Bool) : Byte :=
  (old &&& (0xFF#8 - (1#8 <<< i))) ||| ((BitVec.ofBool b).setWidth 8 <<< i)

/-- The largest count a footer holds, `2^(8*FW) - 1` (R66). -/
def maxBitCount (p : Params) : Nat := 2 ^ (8 * p.fwBytes) - 1

/-- The value of the `k` bytes of the input buffer from address `a` on, least significant first (R43, R66). -/
def littleEndian (s : State) (a : Nat) : Nat → Nat
  | 0 => 0
  | k + 1 => littleEndian s a k + (s.inByte (a + k)).toNat * 2 ^ (8 * k)

/-- `bc`, the bit count in the footer: the "last 4 or 8 bytes" of the input buffer (R132). -/
def footerValue (s : State) : Nat := littleEndian s (s.ilen.toNat - s.params.fwBytes) s.params.fwBytes

/-- The first `k` bytes of the footer, `byte[nb+k] <- (bitCount >> (8*k)) & 0xFF`, written in ascending order (R66). -/
def writeFooter (nb : Nat) (bits : Word) : Nat → State → State
  | 0, s => s
  | k + 1, s => writeOut (nb + k) ((bits >>> (8 * k)).setWidth 8) (writeFooter nb bits k s)

end Sys2Proof.Machine
end

