-- ==== Sys2Proof/Machine/Count.lean ====
section
/-! DEFINITION. COUNT, the frequency-table builder (spec/40_count.md R80 to R86). -/

namespace Sys2Proof.Machine

/-- `c[b]` after the bytes at addresses `0 .. n-1` have been visited in ascending order: an unbounded natural
number (R80). -/
def occurrences (s : State) (b : Byte) : Nat → Nat
  | 0 => 0
  | n + 1 => occurrences s b n + if s.inByte n = b then 1 else 0

/-- "some c[s] > 2^32 - 1" (R80, R83). -/
def countOverflows (s : State) : Bool :=
  (List.range 256).any (fun i => decide (2 ^ 32 - 1 < occurrences s (BitVec.ofNat 8 i) s.ilen.toNat))

/-- The table of the input buffer, "all 256 entries at once" (R10, R80). -/
def countTable (s : State) : Vector Count 256 :=
  tabulate (fun b => BitVec.ofNat 32 (occurrences s b s.ilen.toNat))

/-- COUNT up to its end or its first error (R80). -/
def runCount (s : State) : Except ErrorCode State := do
  let s := setPhase .check s
  entryChecks s
  let s := setPhase .counting s
  if countOverflows s then .error .countOverflow
  else .ok (setPhase .idle (setErr successCode { s with ft := countTable s }))

/-- `COUNT` (R80). -/
def execCount (s : State) : Host.Outcome State Fault Refusal := finish .count (runCount s) s

end Sys2Proof.Machine
end

