-- ==== Sys2Proof/Machine/Build.lean ====
section
/-! DEFINITION. BUILD, the tree builder (spec/41_build.md R90 to R103): an internal operation of ENCODE and DECODE. -/

namespace Sys2Proof.Machine

/-! ### Leaves (R91) -/

/-- The leaf of a symbol: its frequency is `zext_40(FT[s])` (R20, R91). -/
def leafNode (ft : Vector Count 256) (b : Byte) : Node where
  kind := .leaf
  sym := b
  freq := (entry ft b).setWidth 40
  parent := NIL
  first := NIL
  second := NIL

/-- "A new node always takes slot NCOUNT, then NCOUNT increases by one" (R21). -/
def Tree.push (n : Node) (t : Tree) : Tree :=
  { t with node := t.node ++ [n], ncount := t.ncount + 1 }

/-- The slot the next node takes, as an arena index. -/
def Tree.next (t : Tree) : NodeIdx := t.ncount.setWidth 9

/-- One iteration of the leaf scan: symbols "with zero frequency are excluded" (R91). -/
def addLeaf (ft : Vector Count 256) (b : Byte) (t : Tree) : Tree :=
  if entry ft b = 0#32 then t
  else { t.push (leafNode ft b) with leaf := setEntry t.leaf b t.next }

/-- The tree after the scan of symbols `0 .. n-1`, "in ascending order of symbol value" (R91). -/
def scanLeaves (ft : Vector Count 256) : Nat → Tree
  | 0 => Tree.released
  | n + 1 => addLeaf ft (BitVec.ofNat 8 n) (scanLeaves ft n)

/-! ### The merge (R94, R95) -/

/-- A node of the pool with its index. -/
abbrev Candidate := Node × Nat

/-- The pool: the slots in use whose parent is `NIL` (spec/10_state.md R24). -/
def Tree.pool (t : Tree) : List Candidate := t.node.zipIdx.filter (fun c => c.1.parent == NIL)

/-- "x comes before y": frequency descending and, among equal frequencies, arena index ascending (R94). -/
def comesBefore (x y : Candidate) : Bool :=
  decide (y.1.freq < x.1.freq) || (x.1.freq == y.1.freq && decide (x.2 < y.2))

/-- `PICK`, the last candidate of the total order: the least frequency and, among those, the greatest index
(R90, R94). -/
def pick : List Candidate → Option Candidate
  | [] => none
  | x :: rest =>
    match pick rest with
    | none => some x
    | some y => some (if comesBefore x y then y else x)

/-- `NODE[n].parent <- m`. -/
def setParent (n : Nat) (m : NodeIdx) (nodes : List Node) : List Node :=
  nodes.modify n (fun x => { x with parent := m })

/-- The internal node over `a`, its first child, and `b`, its second: the exact sum of their frequencies (R95); its
`sym` is written 0 (R90). -/
def mergedNode (a b : Candidate) : Node where
  kind := .internal
  sym := 0#8
  freq := a.1.freq + b.1.freq
  parent := NIL
  first := BitVec.ofNat 9 a.2
  second := BitVec.ofNat 9 b.2

/-- Two nodes of the pool get a new parent, which takes the next slot (R95). -/
def Tree.join (a b : Candidate) (t : Tree) : Tree :=
  { t with node := setParent b.2 t.next (setParent a.2 t.next t.node) }.push (mergedNode a b)

/-- One merge: `a` the last and `b` the second to last node of the pool (R95). A pool of fewer than two nodes, which the
loop never meets (R96), is left as it is. -/
def mergeOnce (t : Tree) : Tree :=
  match pick t.pool with
  | none => t
  | some a =>
    match pick (t.pool.filter (fun c => c.2 != a.2)) with
    | none => t
    | some b => t.join a b

/-- "repeat k times" (R90). -/
def mergeTimes : Nat → Tree → Tree
  | 0, t => t
  | k + 1, t => mergeTimes k (mergeOnce t)

/-- The merge loop and the root: `L - 1` merges, then `ROOT <- NCOUNT - 1` (R90, R96, R99). -/
def mergeAll (t : Tree) : Tree :=
  let t := mergeTimes (t.ncount.toNat - 1) t
  { t with root := (t.ncount - 1).setWidth 9 }

/-! ### The single-symbol case (R98) -/

/-- The synthetic root over leaf 0: "only a left child"; its frequency is the leaf's (R98); its `sym` is written 0
(R90). -/
def syntheticRoot (leaf : Node) : Node where
  kind := .internal
  sym := 0#8
  freq := leaf.freq
  parent := NIL
  first := 0#9
  second := NIL

/-- "wrap that leaf under one synthetic internal node" (R98). -/
def wrapSingle (t : Tree) : Tree :=
  match t.node with
  | [] => t
  | leaf :: _ => { { t with node := setParent 0 1#9 t.node }.push (syntheticRoot leaf) with root := 1#9 }

/-! ### BUILD -/

/-- The tree of a frequency table, "a function of FT alone" (R90, R102). -/
def buildTree (ft : Vector Count 256) : Except ErrorCode Tree :=
  let t := scanLeaves ft 256
  if t.ncount = 0#10 then .error .emptyAlphabet
  else if t.ncount = 1#10 then .ok (wrapSingle t)
  else .ok (mergeAll t)

/-- The phase in which BUILD ends: the wrap for one leaf, else the merge (R27). -/
def buildPhase (ft : Vector Count 256) : Phase :=
  if (scanLeaves ft 256).ncount = 1#10 then .buildWrap else .buildMerge

/-- `BUILD` on the state (R90). -/
def build (s : State) : Except ErrorCode State := do
  let t ← buildTree s.ft
  .ok (setPhase (buildPhase s.ft) { s with tree := t })

end Sys2Proof.Machine
end

