-- ==== Sys2Proof/Machine/Pack.lean ====
section
/-! DEFINITION. The bit packer: GROW, WRITEBIT and APPENDPATH (spec/42_pack.md R110 to R118), internal operations of
ENCODE. -/

namespace Sys2Proof.Machine

/-- `n` bytes from address `a` on become 0, in ascending order: "every byte entering the capacity is written 0 first"
(R113, R114). -/
def zeroFill (a : Nat) : Nat → Memory → Memory
  | 0, m => m
  | n + 1, m => Memory.store (zeroFill a n m) (a + n) 0#8

/-- `min(CAP + CHUNK, OUT_MAX)` (R113). -/
def grownCap (s : State) : Nat := min (s.cap.toNat + s.params.chunk) s.params.outMax

/-- `GROW` (R113). -/
def grow (s : State) : Except ErrorCode State :=
  if s.params.outMax ≤ s.bitcur.toNat / 8 then .error .outputFull
  else .ok { s with
    out := zeroFill s.cap.toNat (grownCap s - s.cap.toNat) s.out
    cap := BitVec.ofNat 64 (grownCap s) }

/-- "if p / 8 >= CAP then GROW" (R111). -/
def ensureCap (s : State) : Except ErrorCode State :=
  if s.cap.toNat ≤ s.bitcur.toNat / 8 then grow s else .ok s

/-- The read and the write of the byte at the cursor, and the advance of the cursor (R111). -/
def putBit (b : Bool) (s : State) : State :=
  let p := s.bitcur.toNat
  { writeOut (p / 8) (setBit (s.outByte (p / 8)) (p % 8) b) s with bitcur := s.bitcur + 1 }

/-- `WRITEBIT(b)` (R111): FooterOverflowError before OutputFullError (R112, R165). -/
def writeBit (b : Bool) (s : State) : Except ErrorCode State := do
  if s.bitcur.toNat = maxBitCount s.params then .error .footerOverflow
  else
    let s ← ensureCap s
    .ok (putBit b s)

/-- WRITEBIT of each bit of a list in order. -/
def writeBits : List Bool → State → Except ErrorCode State
  | [], s => .ok s
  | b :: bs, s => do
    let s ← writeBit b s
    writeBits bs s

/-- The bit APPENDPATH records for the step from node `n` to its parent `p`: "1 if the current node is its parent's second
child, 0 if it is the first child" (R110). -/
def childBit (nodes : List Node) (p n : NodeIdx) : Bool :=
  match nodes[p.toNat]? with
  | some parent => parent.second == n
  | none => false

/-- The bits of the walk from node `n` "up to the root (stopping at the node whose parent is absent)", in the order they
are written (R110). The first argument bounds the walk: a parent has a greater index than its children, so no walk of a
built tree takes as many as `NNODE` steps (log 13). -/
def pathBits (nodes : List Node) : Nat → NodeIdx → List Bool
  | 0, _ => []
  | fuel + 1, n =>
    match nodes[n.toNat]? with
    | none => []
    | some x => if x.parent = NIL then [] else childBit nodes x.parent n :: pathBits nodes fuel x.parent

/-- `APPENDPATH(leaf)` (R110): WRITEBIT leaves the arena alone, so the bits of the walk can be written after it. -/
def appendPath (leaf : NodeIdx) (s : State) : Except ErrorCode State :=
  writeBits (pathBits s.tree.node NNODE leaf) s

end Sys2Proof.Machine
end

