-- ==== Sys2Proof/Machine/Encode.lean ====
section
/-! DEFINITION. ENCODE (spec/43_encode.md R120 to R129). -/

namespace Sys2Proof.Machine

/-- One iteration of the symbol loop, `SIDX = i` (R120, R122, R123). -/
def packSymbol (i : Nat) (s : State) : Except ErrorCode State :=
  let s := { s with sidx := BitVec.ofNat 64 i }
  let leaf := entry s.tree.leaf (s.inByte i)
  if leaf = NIL then .error .symbolNotInTree else appendPath leaf s

/-- The symbol loop over `SIDX = n-1 downto 0` (R122). -/
def packSymbols : Nat → State → Except ErrorCode State
  | 0, s => .ok s
  | n + 1, s => do
    let s ← packSymbol n s
    packSymbols n s

/-- Trim and footer (R124): the payload is the first `ceil8(BITCUR)` bytes, the footer follows it, and the block hands
over the result. -/
def trimAndFooter (s : State) : Except ErrorCode State :=
  let nb := ceil8 s.bitcur.toNat
  if s.params.outMax < nb + s.params.fwBytes then .error .outputFull
  else .ok (deliver (BitVec.ofNat 64 (nb + s.params.fwBytes)) s.bitcur
    (setPhase .release (writeFooter nb s.bitcur s.params.fwBytes s)))

/-- ENCODE up to its end or its first error (R120). -/
def runEncode (s : State) : Except ErrorCode State := do
  let s := setPhase .check s
  entryChecks s
  let s ← build (setPhase .buildLeaves s)
  let s := setPhase .pack { s with bitcur := 0#64, cap := 0#64 }
  let s ← packSymbols s.ilen.toNat s
  trimAndFooter (setPhase .trimFooter s)

/-- `ENCODE` (R120). -/
def execEncode (s : State) : Host.Outcome State Fault Refusal := finish .encode (runEncode s) s

end Sys2Proof.Machine
end

