-- ==== Sys2Proof/Machine/Walk.lean ====
section
/-! DEFINITION. DECODE and WALK, the bit-level decoder (spec/44_decode.md R130 to R146). -/

namespace Sys2Proof.Machine

/-- The child of node `n` that `sel` selects: "sel = 1 selects the first child, sel = 0 the second" (R134). A slot that
holds no node has no child (log 11). -/
def selectChild (t : Tree) (n : NodeIdx) (sel : Bool) : NodeIdx :=
  match t.node[n.toNat]? with
  | some x => if sel then x.first else x.second
  | none => NIL

/-- The symbol of node `n` if it is a leaf. -/
def leafSymbol (t : Tree) (n : NodeIdx) : Option Byte :=
  match t.node[n.toNat]? with
  | some x => if x.kind = .leaf then some x.sym else none
  | none => none

/-- "emit its symbol and reset the walk to the root" (R136). -/
def emit (b : Byte) (s : State) : Except ErrorCode State :=
  if s.params.outMax ≤ s.opos.toNat then .error .outputFull
  else .ok { writeOut s.opos.toNat b s with opos := s.opos + 1, cur := s.tree.root }

/-- One step of `WALK`, `BITCUR = i` (R130, R134): `sel <- NOT bit`. -/
def walkBit (i : Nat) (s : State) : Except ErrorCode State :=
  let s := { s with bitcur := BitVec.ofNat 64 i }
  let sel := !streamBit s i
  let nxt := selectChild s.tree s.cur sel
  if nxt = NIL then .error .absentChild
  else
    let s := { s with cur := nxt }
    match leafSymbol s.tree nxt with
    | some b => emit b s
    | none => .ok s

/-- `WALK` over the positions `n-1 downto 0` (R134). -/
def walkBits : Nat → State → Except ErrorCode State
  | 0, s => .ok s
  | n + 1, s => do
    let s ← walkBit n s
    walkBits n s

/-- The footer checks (R133): "ILEN < FW before the count check" (R165). -/
def readFooter (s : State) : Except ErrorCode Nat :=
  if s.ilen.toNat < s.params.fwBytes then .error .truncatedStream
  else if 8 * (s.ilen.toNat - s.params.fwBytes) < footerValue s then .error .truncatedStream
  else .ok (footerValue s)

/-- The end of the walk (R130, R138): the walk stands at the root, or the stream ended inside a code. -/
def endWalk (bc : Nat) (s : State) : Except ErrorCode State :=
  if s.cur = s.tree.root then .ok (deliver s.opos (BitVec.ofNat 64 bc) (setPhase .release s))
  else .error .danglingPath

/-- DECODE up to its end or its first error (R130). -/
def runDecode (s : State) : Except ErrorCode State := do
  let s := setPhase .check s
  entryChecks s
  let s ← build (setPhase .buildLeaves s)
  let bc ← readFooter (setPhase .footerRead s)
  let s := setPhase .walk { s with cur := s.tree.root, opos := 0#64 }
  let s ← walkBits bc s
  endWalk bc s

/-- `DECODE` (R130). -/
def execDecode (s : State) : Host.Outcome State Fault Refusal := finish .decode (runDecode s) s

end Sys2Proof.Machine
end

