-- ==== Sys2Proof/Machine/Interface.lean ====
section
/-! DEFINITION. The host interface: the register map (spec/10_state.md R17), the host's reads and writes of the spaces
(spec/20_memory.md R40), the start of a command (R15), and the host notation (spec/30_encoding.md R71, R72). -/

namespace Sys2Proof.Machine

/-! ### Host reads: observations of the idle block (R47, R52; log 7) -/

/-- The register `CFG`: `FW` in bits 3:0, bits 63:4 "read as zero" (R16). -/
def State.cfg (s : State) : Word := BitVec.ofNat 64 s.params.fwBytes

/-- A host read of a register by number (R17). -/
def hostReadReg (s : State) (number : Nat) : Word :=
  match number with
  | 0 => 0#64
  | 1 => s.status
  | 2 => s.ilen
  | 3 => s.olen
  | 4 => s.bitcnt
  | 5 => s.cfg
  | _ => 0#64

/-- A host read of an entry of `FT` (R10). -/
def hostReadFt (s : State) (b : Byte) : Count := entry s.ft b

/-- A host read of a byte of `IN`; no byte where the address does not exist (R40). -/
def hostReadIn (s : State) (a : Nat) : Option Byte :=
  if a < s.params.inMax then some (s.inByte a) else none

/-- A host read of a byte of `OUT`; no byte where the address does not exist (R40). -/
def hostReadOut (s : State) (a : Nat) : Option Byte :=
  if a < s.params.outMax then some (s.outByte a) else none

/-! ### Host moves -/

/-- A `CMD` write: the command of the code, or IllegalCommandError (R15, R64, R151). -/
def startCommand (op : BitVec 8) (s : State) : Host.Outcome State Fault Refusal :=
  match decode op with
  | .ok i => exec i s
  | .error (.reservedCode _) => .next (illegalCommand s)

/-- A host write of a register by number (R17): only `CMD` and `ILEN` answer to it. `CMD` is 8 bits wide: what a wider
bus carries above them is no part of the register (log 8). -/
def hostWriteReg (number : Nat) (value : Word) (s : State) : Host.Outcome State Fault Refusal :=
  match number with
  | 0 => startCommand (value.setWidth 8) s
  | 2 => .next { s with ilen := value }
  | _ => .next s

/-- A host write of an entry of `FT`: "any entry, any 32-bit value" (R10). -/
def hostWriteFt (b : Byte) (value : Count) (s : State) : Host.Outcome State Fault Refusal :=
  .next { s with ft := setEntry s.ft b value }

/-- A host write of a byte of `IN` (R18); an address that does not exist is a fault (log 9). -/
def hostWriteIn (a : Nat) (value : Byte) (s : State) : Host.Outcome State Fault Refusal :=
  if a < s.params.inMax then .next (writeIn a value s) else .fault (.noSuchInAddress a)

/-- The reset event (R180). The instance keeps its parameters (R5, R16); what reset leaves unspecified is free
anew (log 5); the host keeps the moves it has still to make (log 6). -/
def resetEvent (s : State) : State :=
  { State.resetWith s.params with
    inSeed := s.inSeed + 1
    outSeed := s.outSeed + 1
    bitcur := Config.freeBitcur (s.outSeed + 1)
    sidx := Config.freeSidx (s.outSeed + 1)
    opos := Config.freeOpos (s.outSeed + 1)
    cap := Config.freeCap (s.outSeed + 1)
    cur := Config.freeCur (s.outSeed + 1)
    host := s.host }

/-- One move of the host. -/
def takeMove (m : HostMove) (s : State) : Host.Outcome State Fault Refusal :=
  match m with
  | .writeReg number value => hostWriteReg number value s
  | .writeFt b value => hostWriteFt b value s
  | .writeIn a value => hostWriteIn a value s
  | .reset => .next (resetEvent s)

/-- The block waits for the host: with no move to take nothing changes (R180 "the block is idle and waits for a CMD
write"; log 6). -/
def serveHost (s : State) : Host.Outcome State Fault Refusal :=
  match s.host with
  | [] => .next s
  | m :: rest => takeMove m { s with host := rest }

/-- The host moves that write `CMD` with a command word. -/
def cmdWrite (op : BitVec 8) : HostMove := .writeReg 0 (op.setWidth 64)

/-! ### The host notation (R71, R72) -/

/-- The writes of bytes to `IN` from an address on. -/
def writeBytes : Nat → List Byte → List HostMove
  | _, [] => []
  | a, b :: bs => .writeIn a b :: writeBytes (a + 1) bs

/-- `IN <- b0 b1 ... bn-1`: "host writes the bytes to IN[0..n-1] and n to ILEN" (R71). -/
def loadIn (bytes : List Byte) : List HostMove :=
  writeBytes 0 bytes ++ [.writeReg 2 (BitVec.ofNat 64 bytes.length)]

/-- `FT <- {s: c, ...}`: "host writes all 256 entries" (R71). -/
def loadFt (table : Vector Count 256) : List HostMove :=
  (List.range 256).map (fun i => .writeFt (BitVec.ofNat 8 i) (entry table (BitVec.ofNat 8 i)))

/-- `LOOPBACK`: the host reads `OLEN` and `OUT[0..OLEN-1]` and writes those bytes to `IN` and their number to `ILEN` (R72). -/
def loopback (s : State) : List HostMove := loadIn ((List.range s.olen.toNat).map s.outByte)

end Sys2Proof.Machine
end

