-- ==== Sys2Proof/Machine/Step.lean ====
section
/-! DEFINITION. One step of the machine: the idle block takes the next move of the host. The block has no program
counter and fetches nothing (spec/10_state.md R27, spec/20_memory.md R53): a command comes from the `CMD` write itself. -/

namespace Sys2Proof.Machine

/-- The idle block takes the host's next move (R15, R52); a command in it runs to its end in this step (R63). A block
that is not idle gives the host no move (R52; log 10). -/
def step (s : State) : Host.Outcome State Fault Refusal :=
  if s.phase = .idle then serveHost s else .refused .hostMoveDuringCommand

/-- `s` with a `CMD` write of the word as the host's next move, and idle, as a `CMD` write needs (R15; log 6). -/
def State.withFetchWord (s : State) (nbits w : Nat) : State :=
  { s with phase := .idle, host := cmdWrite (tableWord nbits w) :: s.host }

end Sys2Proof.Machine
end

