-- ==== Sys2Proof/Safety.lean ====
section
/-! DEFINITION. What holds of the idle block between commands, and the terms in which claims about commands are made:
the input buffer, the result, stored codes, the stream read downward, what a failed command leaves. -/

namespace Sys2Proof.Machine

/-- The state of the block between commands. -/
structure State.Inv (s : State) : Prop where
  /-- The parameters have legal values (spec/00_scope.md R5). -/
  legal : s.params.Legal
  /-- "IDLE ... the only phase the host can observe" (R27). -/
  idle : s.phase = .idle
  /-- No tree "between commands" (R21, R22, R104). -/
  noTree : s.tree = Tree.released
  /-- `IN` is in canonical form. -/
  inWf : Memory.wf s.inMem
  /-- No byte of `IN` at or above `IN_MAX` (R40). -/
  inBound : ∀ c ∈ s.inMem, c.1 < s.params.inMax
  /-- The bytes of `OUT` that hold a value are exactly `OUT[0..OLEN-1]` (R19), in canonical form. -/
  outExact : s.out.map Prod.fst = List.range s.olen.toNat
  /-- The result fits `OUT` (R159). -/
  outBound : s.olen.toNat ≤ s.params.outMax
  /-- "12 to 255 ... never written" (R150). -/
  errCode : s.err.toNat ≤ 11
  /-- The bit count fits the footer (R66). -/
  bitBound : s.bitcnt.toNat ≤ maxBitCount s.params

/-- What an outcome is when nothing has gone wrong: a next state that is again one of the idle block. -/
def Safe (o : Host.Outcome State Fault Refusal) : Prop :=
  match o with
  | .next t => t.Inv
  | .fault _ => False
  | .refused _ => False

/-- The input buffer of a command, `IN[0..ILEN-1]` (R41). -/
def buffer (s : State) : List Byte := (List.range s.ilen.toNat).map s.inByte

/-- The result of a command, `OUT[0..OLEN-1]` (R41). -/
def result (s : State) : List Byte := (List.range s.olen.toNat).map s.outByte

/-- The buffer passes the entry checks of a command: not empty, and within the input memory (R165). -/
def BufferFits (s : State) : Prop := s.ilen ≠ 0#64 ∧ s.ilen.toNat ≤ s.params.inMax

/-- How often a byte value occurs in the input buffer (R80). -/
def occursIn (s : State) (b : Byte) : Nat := (buffer s).count b

/-- The symbols that have a leaf: those with a non-zero entry (R91), in ascending order. -/
def alphabet (ft : Vector Count 256) : List Byte :=
  ((List.range 256).map (BitVec.ofNat 8)).filter (fun b => entry ft b != 0#32)

/-- The sum of the entries of a table as a natural number. -/
def tableSum (ft : Vector Count 256) : Nat :=
  ((List.range 256).map (fun i => (entry ft (BitVec.ofNat 8 i)).toNat)).sum

/-- The stored code of a symbol: "the list of stored bits on the path from ROOT down to LEAF[s]" (R100). -/
def storedCode (t : Tree) (b : Byte) : List Bool := (pathBits t.node NNODE (entry t.leaf b)).reverse

/-- The stored codes of the symbols of the input buffer, from the first to the last (R68). -/
def bufferCode (t : Tree) (s : State) : List Bool := (buffer s).flatMap (storedCode t)

/-- Stream bit `p` of `OUT` (R42). -/
def outBit (s : State) (p : Nat) : Bool := (s.outByte (p / 8)).getLsbD (p % 8)

/-- The bits of the input buffer at positions `n-1` down to 0 (R134). -/
def inStream (s : State) (n : Nat) : List Bool := ((List.range n).map (streamBit s)).reverse

/-- The bits of `OUT` at positions `n-1` down to 0 (R68). -/
def outStream (s : State) (n : Nat) : List Bool := ((List.range n).map (outBit s)).reverse

/-- A packed buffer passes DECODE's checks: it holds a footer, and the bits the footer declares (R133). -/
def FooterFits (s : State) : Prop :=
  s.params.fwBytes ≤ s.ilen.toNat ∧ footerValue s ≤ 8 * (s.ilen.toNat - s.params.fwBytes)

/-- `t` is what a failed ENCODE or DECODE leaves of `s` (R160): the error code, no result, no tree, no byte of `OUT` that
holds a value; the table, the input, the parameters and the host's moves as they were. -/
structure FailedAs (e : ErrorCode) (s t : State) : Prop where
  err : t.err = e.code
  olen : t.olen = 0#64
  bitcnt : t.bitcnt = 0#64
  tree : t.tree = Tree.released
  out : t.out = []
  phase : t.phase = .idle
  ft : t.ft = s.ft
  ilen : t.ilen = s.ilen
  inMem : t.inMem = s.inMem
  inSeed : t.inSeed = s.inSeed
  params : t.params = s.params
  host : t.host = s.host

/-- `t` agrees with `s` on all that ENCODE and DECODE never write: the table, the input, the parameters, the host's
moves (R10, R11, R40). -/
structure SameInputs (s t : State) : Prop where
  ft : t.ft = s.ft
  ilen : t.ilen = s.ilen
  inMem : t.inMem = s.inMem
  inSeed : t.inSeed = s.inSeed
  params : t.params = s.params
  host : t.host = s.host

/-- The node from which `n` is reached by `k` steps to the parent. -/
def climb (t : Tree) : Nat → NodeIdx → NodeIdx
  | 0, n => n
  | k + 1, n =>
    match t.node[n.toNat]? with
    | some x => climb t k x.parent
    | none => NIL

end Sys2Proof.Machine
end

