-- ==== Sys2Proof/Certificates/Slice0/Obligations.lean ====
section
/-! DEFINITION. The statements about the model, each from the rules of spec/ that its docstring names. -/

open Sys2Proof Sys2Proof.Machine

/-! ### The command word -/

/-- R61: the decoder answers 0x01, 0x02, 0x03 with COUNT, ENCODE, DECODE and rejects every other code as reserved. -/
def Obligations.DecoderAnswersEveryCode : Prop :=
  ∀ op : BitVec 8, decode op =
    if op = 0x01#8 then .ok .count
    else if op = 0x02#8 then .ok .encode
    else if op = 0x03#8 then .ok .decode
    else .error (.reservedCode op)

/-- R60, R61, R73: the encoder's word decodes to the command, and a word that decodes to a command is the encoder's. -/
def Obligations.DecodeAndEncodeAgree : Prop :=
  (∀ i : Instr, decode (encode i) = .ok i) ∧
  (∀ (op : BitVec 8) (i : Instr), decode op = .ok i → encode i = op)

/-! ### The step -/

/-- R15, R53, R63: a step of the idle block whose host writes `CMD` with the code of a command is that command, of the
state with the move taken. That of a write above 0xFF the low 8 bits are the code is the model's choice, log 8. -/
def Obligations.StepRunsTheDecodedCommand : Prop :=
  ∀ (s : State) (v : Word) (rest : List HostMove) (i : Instr),
    s.phase = .idle → s.host = .writeReg 0 v :: rest → decode (v.setWidth 8) = .ok i →
    step s = exec i { s with host := rest }

/-- R64, R151: a `CMD` write of a reserved code writes 4 to `STATUS.ERR` and nothing else. That of a write above 0xFF the
low 8 bits are the code is the model's choice, log 8. -/
def Obligations.ReservedCodeIsIllegalCommand : Prop :=
  ∀ (s : State) (v : Word) (rest : List HostMove),
    s.phase = .idle → s.host = .writeReg 0 v :: rest →
    v.setWidth 8 ≠ 0x01#8 → v.setWidth 8 ≠ 0x02#8 → v.setWidth 8 ≠ 0x03#8 →
    step s = .next { s with host := rest, err := 4#8 }

/-- How a program is placed (the model's choice, log 6): the very next step after `withFetchWord` runs the word's command. -/
def Obligations.FetchedWordRuns : Prop :=
  ∀ (s : State) (nbits w : Nat) (i : Instr), decodeTableWord nbits w = some i →
    step (s.withFetchWord nbits w) = exec i { s with phase := .idle }

/-- R180 "the block is idle and waits": with no host move to take the state stays (the model's choice, log 6). -/
def Obligations.IdleBlockWaits : Prop :=
  ∀ s : State, s.phase = .idle → s.host = [] → step s = .next s

/-- R40, R52: where the model stops (its choice, logs 9 and 10): a host write of an address of `IN` that does not exist
faults, and a block that is not idle gives the host no move. -/
def Obligations.WhereTheModelStops : Prop :=
  (∀ (s : State) (a : Nat) (b : Byte) (rest : List HostMove),
    s.phase = .idle → s.host = .writeIn a b :: rest → s.params.inMax ≤ a →
    step s = .fault (.noSuchInAddress a)) ∧
  (∀ s : State, s.phase ≠ .idle → step s = .refused .hostMoveDuringCommand)

/-- R198: from `IDLE` every `CMD` write leads back to `IDLE` with a result or an error, for every content of `FT`, `IN`
and `ILEN`. -/
def Obligations.EveryCommandWriteEndsIdle : Prop :=
  ∀ (s : State) (v : Word) (rest : List HostMove),
    s.phase = .idle → s.host = .writeReg 0 v :: rest →
    ∃ t, step s = .next t ∧ t.phase = .idle ∧ t.host = rest ∧ t.err.toNat ≤ 11

/-! ### Reset and the invariant -/

/-- R180: the values that reset leaves, for the reset state and after the reset event of the idle block; no byte of `IN`
or `OUT` is given a value, and no slot of `NODE` is in use. -/
def Obligations.ResetLeaves : Prop :=
  let afterReset (t : State) : Prop :=
    (∀ b, entry t.ft b = 0#32) ∧ t.ilen = 0#64 ∧ t.olen = 0#64 ∧ t.bitcnt = 0#64 ∧
    t.status = 0#64 ∧ t.cfg = BitVec.ofNat 64 t.params.fwBytes ∧
    t.tree.ncount = 0#10 ∧ t.tree.root = NIL ∧ (∀ b, entry t.tree.leaf b = NIL) ∧ t.tree.node = [] ∧ t.phase = .idle ∧
    ∀ a, Memory.lookup t.inMem a = none ∧ Memory.lookup t.out a = none
  afterReset State.reset ∧
  ∀ (s : State) (rest : List HostMove), s.phase = .idle → s.host = .reset :: rest →
    ∃ t, step s = .next t ∧ afterReset t ∧ t.params = s.params ∧ t.host = rest

/-- R182: right after reset every command fails with EmptyInputError; with `ILEN` legal and `FT` untouched ENCODE and
DECODE fail with EmptyAlphabetError, and COUNT counts the bytes `IN` holds, whatever they are. -/
def Obligations.CommandsRightAfterReset : Prop :=
  ∀ p : Params, p.Legal →
    (∀ i, ∃ t, exec i (State.resetWith p) = .next t ∧ t.err = ErrorCode.emptyInput.code) ∧
    (∀ n : Word, n ≠ 0#64 → n.toNat ≤ p.inMax →
      ∃ t u, exec .encode { State.resetWith p with ilen := n } = .next t ∧ t.err = ErrorCode.emptyAlphabet.code ∧
        exec .decode { State.resetWith p with ilen := n } = .next u ∧ u.err = ErrorCode.emptyAlphabet.code) ∧
    (∀ (n : Word) (seed : Nat), n ≠ 0#64 → n.toNat ≤ p.inMax → n.toNat < 2 ^ 32 →
      let s : State := { State.resetWith p with ilen := n, inSeed := seed }
      ∃ t, exec .count s = .next t ∧ t.err = 0#8 ∧ ∀ b, (entry t.ft b).toNat = occursIn s b)

/-- The invariant of the idle block holds after reset. -/
def Obligations.ResetMeetsInvariant : Prop := State.reset.Inv

/-- Every step keeps the invariant of the idle block: legal parameters, `IDLE`, no tree, memories in canonical form,
`OUT` holding exactly `OUT[0..OLEN-1]`, a known error code, a bit count the footer can hold (R5, R19, R27, R66, R104,
R150, R159). -/
def Obligations.StepKeepsInvariant : Prop :=
  ∀ s t : State, s.Inv → step s = .next t → t.Inv

/-! ### The host interface -/

/-- R14, R15, R16, R17: what the host reads at each register number (`STATUS` being `ERR` in bits 7:0 and zeros above),
and what a write of each number but `CMD`'s does. -/
def Obligations.HostRegisterMap : Prop :=
  (∀ (s : State) (n : Nat), hostReadReg s n =
    if n = 1 then s.status else if n = 2 then s.ilen else if n = 3 then s.olen
    else if n = 4 then s.bitcnt else if n = 5 then s.cfg else 0#64) ∧
  (∀ s : State, s.status.extractLsb' 0 8 = s.err ∧ s.status.extractLsb' 8 56 = 0#56) ∧
  (∀ (s : State) (n : Nat) (v : Word) (rest : List HostMove),
    s.phase = .idle → s.host = .writeReg n v :: rest → n ≠ 0 →
    step s = .next (if n = 2 then { s with host := rest, ilen := v } else { s with host := rest }))

/-- R16: `CFG` holds `FW` in bits 3:0 and reads as zero above; a host write of it is ignored; and it never changes, reset
included: no step changes it or any parameter. -/
def Obligations.CfgIsConstant : Prop :=
  (∀ s : State, ((hostReadReg s 5).extractLsb' 0 4).toNat = s.params.fwBytes ∧
    (hostReadReg s 5).extractLsb' 4 60 = 0#60) ∧
  (∀ (s : State) (v : Word) (rest : List HostMove),
    s.phase = .idle → s.host = .writeReg 5 v :: rest → step s = .next { s with host := rest }) ∧
  (∀ s t : State, step s = .next t → t.params = s.params ∧ hostReadReg t 5 = hostReadReg s 5)

/-- R10, R18, R47: a host write of an entry of `FT` or of a byte of `IN` changes that entry or byte and nothing else, and
a read gives back what was written. -/
def Obligations.HostWritesReadBack : Prop :=
  (∀ (s : State) (b : Byte) (v : Count) (rest : List HostMove),
    s.phase = .idle → s.host = .writeFt b v :: rest →
    ∃ t, step s = .next t ∧ t = { s with host := rest, ft := t.ft } ∧
      ∀ c, hostReadFt t c = if c = b then v else hostReadFt s c) ∧
  (∀ (s : State) (a : Nat) (v : Byte) (rest : List HostMove),
    s.phase = .idle → s.host = .writeIn a v :: rest → a < s.params.inMax →
    ∃ t, step s = .next t ∧ t = { s with host := rest, inMem := t.inMem } ∧
      ∀ c, hostReadIn t c = if c = a then some v else hostReadIn s c)

/-- R10 to R14, R18, R19: who writes what. Beside reset: `FT` the host and COUNT; `ILEN` and `IN` the host alone; `OLEN`,
`BITCNT` and `OUT` ENCODE and DECODE alone; `STATUS.ERR` a `CMD` write alone. That of a write above 0xFF the low 8 bits
are the code is the model's choice, log 8. -/
def Obligations.WhoWritesWhat : Prop :=
  ∀ s t : State, step s = .next t → (∃ rest, s.host = .reset :: rest) ∨
    (t.ft = s.ft ∨ (∃ b v rest, s.host = .writeFt b v :: rest) ∨
      (∃ v rest, s.host = .writeReg 0 v :: rest ∧ decode (v.setWidth 8) = .ok .count)) ∧
    (t.ilen = s.ilen ∨ (∃ v rest, s.host = .writeReg 2 v :: rest)) ∧
    ((∀ a, t.inByte a = s.inByte a) ∨ (∃ a v rest, s.host = .writeIn a v :: rest)) ∧
    ((t.olen = s.olen ∧ t.bitcnt = s.bitcnt ∧ ∀ a, t.outByte a = s.outByte a) ∨
      (∃ v rest, s.host = .writeReg 0 v :: rest ∧
        (decode (v.setWidth 8) = .ok .encode ∨ decode (v.setWidth 8) = .ok .decode))) ∧
    (t.err = s.err ∨ (∃ v rest, s.host = .writeReg 0 v :: rest))

/-- R72: `LOOPBACK` carries the result in `OUT` to `IN` and its length to `ILEN`, and changes nothing else. -/
def Obligations.LoopbackCopiesTheResult : Prop :=
  ∀ (s : State) (rest : List HostMove), s.Inv → s.olen.toNat ≤ s.params.inMax →
    ∃ t, Host.Core.run Sys2Proof.core (loopback s).length { s with host := loopback s ++ rest } = .next t ∧
      t = { s with host := rest, ilen := s.olen, inMem := t.inMem } ∧
      (∀ a, a < s.olen.toNat → t.inByte a = s.outByte a) ∧
      (∀ a, s.olen.toNat ≤ a → t.inByte a = s.inByte a)

/-! ### COUNT -/

/-- R80, R81, R82, R83: COUNT as one equation, its errors in their order; the table it writes holds for every byte value
how often it occurs in `IN[0..ILEN-1]`. -/
def Obligations.CountIsTheTableOrAnError : Prop :=
  ∀ s : State, s.phase = .idle →
    ∃ table : Vector Count 256,
      (∀ b, entry table b = BitVec.ofNat 32 (occursIn s b)) ∧
      ((∃ b, 2 ^ 32 - 1 < occursIn s b) →
        exec .count s = .next { s with
          err := if s.ilen = 0#64 then ErrorCode.emptyInput.code
            else if s.params.inMax < s.ilen.toNat then ErrorCode.lengthRange.code
            else ErrorCode.countOverflow.code }) ∧
      ((∀ b, occursIn s b ≤ 2 ^ 32 - 1) →
        exec .count s = .next (if s.ilen = 0#64 then { s with err := ErrorCode.emptyInput.code }
          else if s.params.inMax < s.ilen.toNat then { s with err := ErrorCode.lengthRange.code }
          else { s with ft := table, err := 0#8 }))

/-- R80: COUNT completes on every buffer that passes its checks, with the exact counts. -/
def Obligations.CountCompletes : Prop :=
  ∀ s : State, BufferFits s → (∀ b, occursIn s b ≤ 2 ^ 32 - 1) →
    ∃ t, exec .count s = .next t ∧ t = { s with phase := .idle, err := 0#8, ft := t.ft } ∧
      ∀ b, (entry t.ft b).toNat = occursIn s b

/-- R85: after a successful COUNT the entries sum to `ILEN`, as a natural number. -/
def Obligations.CountedTableSumsToLength : Prop :=
  ∀ s t : State, exec .count s = .next t → t.err = 0#8 → tableSum t.ft = s.ilen.toNat

/-- R86: after a successful COUNT every byte value of the buffer has a non-zero entry, and an ENCODE of the same buffer
raises neither SymbolNotInTreeError nor EmptyAlphabetError. -/
def Obligations.CountedBufferHasLeaves : Prop :=
  ∀ s t : State, exec .count s = .next t → t.err = 0#8 →
    (∀ b ∈ buffer s, entry t.ft b ≠ 0#32) ∧ (∃ b, entry t.ft b ≠ 0#32) ∧
    ∀ u, s.params.Legal → exec .encode t = .next u →
      u.err ≠ ErrorCode.symbolNotInTree.code ∧ u.err ≠ ErrorCode.emptyAlphabet.code

/-- R84: a failed COUNT changes only `STATUS.ERR`. -/
def Obligations.FailedCountChangesErrOnly : Prop :=
  ∀ s t : State, s.phase = .idle → exec .count s = .next t → t.err ≠ 0#8 → t = { s with err := t.err }

/-- COUNT's frame (R12, R13, R62, R80): nothing but `FT` and `STATUS.ERR` changes, on success or failure; every byte of
`IN` and of `OUT` reads as before. -/
def Obligations.CountFrame : Prop :=
  ∀ s t : State, s.phase = .idle → exec .count s = .next t →
    t = { s with ft := t.ft, err := t.err } ∧
    (∀ a, t.inByte a = s.inByte a) ∧ (∀ a, t.outByte a = s.outByte a)

/-! ### BUILD -/

/-- R94: the total order, and the pick: "x comes before y" by descending frequency and, among equal frequencies, ascending
index; of two candidates with different indices one comes before the other; the pick has the least frequency and, among
those, the greatest index, and every other candidate comes before it; the pick of the rest comes before it and after all
the others. -/
def Obligations.PickIsLastOfTheOrder : Prop :=
  (∀ x y : Candidate, comesBefore x y = true ↔
    y.1.freq < x.1.freq ∨ (x.1.freq = y.1.freq ∧ x.2 < y.2)) ∧
  (∀ x y : Candidate, x.2 ≠ y.2 → comesBefore x y = !comesBefore y x) ∧
  (∀ l : List Candidate, l ≠ [] →
    ∃ a, pick l = some a ∧ a ∈ l ∧
      ∀ x ∈ l, a.1.freq ≤ x.1.freq ∧ (x.1.freq = a.1.freq → x.2 ≤ a.2)) ∧
  (∀ l : List Candidate, (l.map Prod.snd).Nodup → 2 ≤ l.length →
    ∃ a b, pick l = some a ∧ pick (l.filter (fun c => c.2 != a.2)) = some b ∧ b ∈ l ∧ comesBefore b a = true ∧
      ∀ x ∈ l, x ≠ a → x ≠ b → comesBefore x b = true)

/-- R97: where equal frequencies stand in index order, a stable sort on descending frequency puts the two picked nodes
last and second to last. -/
def Obligations.StableSortPicksTheSame : Prop :=
  ∀ l : List Candidate, (l.map Prod.snd).Nodup →
    l.Pairwise (fun x y => x.1.freq = y.1.freq → x.2 < y.2) →
    let sorted := l.mergeSort (fun x y => decide (y.1.freq ≤ x.1.freq))
    sorted.getLast? = pick l ∧
    ∀ a, pick l = some a → sorted.dropLast.getLast? = pick (l.filter (fun c => c.2 != a.2))

/-- R91: the leaves are those of the symbols with a non-zero entry, in ascending order of symbol; a leaf has its entry
widened to 40 bits, no parent and no child; `LEAF` gives each its index and stays `NIL` for every other symbol. -/
def Obligations.LeavesInSymbolOrder : Prop :=
  ∀ ft : Vector Count 256,
    let t := scanLeaves ft 256
    t.node = (alphabet ft).map (fun b =>
      { kind := .leaf, sym := b, freq := (entry ft b).setWidth 40, parent := NIL, first := NIL, second := NIL }) ∧
    t.ncount.toNat = (alphabet ft).length ∧
    (∀ b, entry ft b = 0#32 → entry t.leaf b = NIL) ∧
    (∀ (i : Nat) (b : Byte), (alphabet ft)[i]? = some b → (entry t.leaf b).toNat = i)

/-- R90, R95: one merge of a pool of two or more: the last node `a` and the second to last `b` get the new node as parent; it
takes the next slot, is internal with `sym` 0 and no parent, has `a` as first and `b` as second child and, where the sum
fits 40 bits, as it does in every tree BUILD makes (R33), the exact sum of their frequencies; and nothing else changes. -/
def Obligations.MergeJoinsTheLastTwo : Prop :=
  ∀ t : Tree, t.ncount.toNat = t.node.length → t.node.length < NNODE → 2 ≤ t.pool.length →
    ∃ a b, pick t.pool = some a ∧ pick (t.pool.filter (fun c => c.2 != a.2)) = some b ∧
      t.node[a.2]? = some a.1 ∧ a.1.parent = NIL ∧ t.node[b.2]? = some b.1 ∧ b.1.parent = NIL ∧ a.2 ≠ b.2 ∧
      (mergeOnce t).node.length = t.node.length + 1 ∧ (mergeOnce t).ncount.toNat = t.node.length + 1 ∧
      (mergeOnce t).root = t.root ∧ (mergeOnce t).leaf = t.leaf ∧
      (∃ m, (mergeOnce t).node[t.node.length]? = some m ∧ m.kind = .internal ∧ m.sym = 0#8 ∧ m.parent = NIL ∧
        m.first.toNat = a.2 ∧ m.second.toNat = b.2 ∧
        (a.1.freq.toNat + b.1.freq.toNat < 2 ^ 40 → m.freq.toNat = a.1.freq.toNat + b.1.freq.toNat)) ∧
      ∀ n, n < t.node.length → (mergeOnce t).node[n]? = (t.node[n]?).map (fun x =>
        if n = a.2 ∨ n = b.2 then { x with parent := BitVec.ofNat 9 t.node.length } else x)

/-- R92: BUILD's only error is EmptyAlphabetError, and it raises it exactly when the table sums to zero; the command that
called it fails with it. -/
def Obligations.EmptyTableIsEmptyAlphabet : Prop :=
  (∀ (ft : Vector Count 256) (e : ErrorCode),
    buildTree ft = .error e ↔ e = .emptyAlphabet ∧ tableSum ft = 0) ∧
  (∀ s : State, BufferFits s → tableSum s.ft = 0 →
    (∃ t, exec .encode s = .next t ∧ FailedAs .emptyAlphabet s t) ∧
    (∃ t, exec .decode s = .next t ∧ FailedAs .emptyAlphabet s t))

/-- R96: with `L >= 2` leaves each merge takes one node from the pool, so after `k` merges it has `L - k` and after `L - 1`
one; there are `2L - 1` nodes, at most 511: the leaves at `0 .. L-1`, the internal nodes at `L .. 2L-2`. -/
def Obligations.NodeCountIsTwiceLeavesLessOne : Prop :=
  ∀ ft : Vector Count 256, 2 ≤ (alphabet ft).length →
    (∀ k, k < (alphabet ft).length →
      (mergeTimes k (scanLeaves ft 256)).pool.length = (alphabet ft).length - k ∧
      (mergeTimes k (scanLeaves ft 256)).ncount.toNat = (alphabet ft).length + k) ∧
    ∃ t, buildTree ft = .ok t ∧ t.ncount.toNat = 2 * (alphabet ft).length - 1 ∧ t.node.length = t.ncount.toNat ∧
      t.node.length ≤ NNODE ∧
      ∀ (n : Nat) (x : Node), t.node[n]? = some x → (x.kind = .leaf ↔ n < (alphabet ft).length)

/-- R98: one symbol alone: its leaf at index 0 under the synthetic root at index 1 (whose `sym` R90 writes 0), and its
stored code is the bit 0. -/
def Obligations.SingleSymbolTree : Prop :=
  ∀ (ft : Vector Count 256) (b : Byte), alphabet ft = [b] →
    ∃ t, buildTree ft = .ok t ∧ t.root = 1#9 ∧ t.ncount = 2#10 ∧ entry t.leaf b = 0#9 ∧
      (∃ r, t.node = [{ leafNode ft b with parent := 1#9 }, r] ∧ r.kind = .internal ∧ r.sym = 0#8 ∧ r.freq = (leafNode ft b).freq ∧
        r.parent = NIL ∧ r.first = 0#9 ∧ r.second = NIL) ∧
      storedCode t b = [false]

/-- R25: the tree invariants (a) to (e) of every tree BUILD makes. -/
def Obligations.TreeInvariantsHold : Prop :=
  ∀ (ft : Vector Count 256) (t : Tree), buildTree ft = .ok t →
    t.ncount.toNat = t.node.length ∧ t.node.length ≤ NNODE ∧
    -- (a) every node but the root is exactly one child of exactly one node, its parent
    (∀ (n : Nat) (x : Node), t.node[n]? = some x → n ≠ t.root.toNat →
      (∃ p, t.node[x.parent.toNat]? = some p ∧
        (p.first = BitVec.ofNat 9 n ∨ p.second = BitVec.ofNat 9 n) ∧
        ¬ (p.first = BitVec.ofNat 9 n ∧ p.second = BitVec.ofNat 9 n)) ∧
      ∀ (q : Nat) (y : Node), t.node[q]? = some y → (y.first = BitVec.ofNat 9 n ∨ y.second = BitVec.ofNat 9 n) → q = x.parent.toNat) ∧
    -- (b) the root has no parent and is internal
    (∃ r, t.node[t.root.toNat]? = some r ∧ r.parent = NIL ∧ r.kind = .internal) ∧
    -- (c) an internal node has a first child, and a second unless it is the synthetic root
    (∀ (n : Nat) (x : Node), t.node[n]? = some x → x.kind = .internal →
      x.first ≠ NIL ∧ (x.second = NIL → (alphabet ft).length = 1 ∧ n = t.root.toNat)) ∧
    -- (d) a leaf has no child, and LEAF gives the leaf of each symbol
    (∀ (n : Nat) (x : Node), t.node[n]? = some x → x.kind = .leaf → x.first = NIL ∧ x.second = NIL) ∧
    (∀ (b : Byte) (n : Nat), n < t.node.length →
      (entry t.leaf b = BitVec.ofNat 9 n ↔ ∃ x, t.node[n]? = some x ∧ x.kind = .leaf ∧ x.sym = b)) ∧
    -- (e) from every node the parents lead to the root in at most 255 steps
    (∀ n, n < t.node.length → ∃ k, k ≤ 255 ∧ climb t k (BitVec.ofNat 9 n) = t.root)

/-- R33, R95, R99: frequencies are exact sums that never wrap: an internal node's is the sum of its children's; the root of
`L >= 2` leaves is node `2L - 2`; and the root's frequency is the sum of the table. -/
def Obligations.FrequenciesAreExactSums : Prop :=
  ∀ (ft : Vector Count 256) (t : Tree), buildTree ft = .ok t →
    (∀ (n : Nat) (x : Node), t.node[n]? = some x → x.kind = .internal → x.second ≠ NIL →
      ∃ a b : Node, t.node[x.first.toNat]? = some a ∧ t.node[x.second.toNat]? = some b ∧
        x.freq.toNat = a.freq.toNat + b.freq.toNat) ∧
    (2 ≤ (alphabet ft).length → t.root.toNat = 2 * (alphabet ft).length - 2) ∧
    (∃ r, t.node[t.root.toNat]? = some r ∧ r.freq.toNat = tableSum ft)

/-- R100: the stored codes are not empty and form a prefix code. -/
def Obligations.StoredCodesFormAPrefixCode : Prop :=
  ∀ (ft : Vector Count 256) (t : Tree), buildTree ft = .ok t →
    ∀ b ∈ alphabet ft, storedCode t b ≠ [] ∧
      ∀ c ∈ alphabet ft, b ≠ c → ¬ storedCode t b <+: storedCode t c

/-- R101: with `L >= 2` leaves no stored code is longer than `L - 1` bits, so none is longer than 255; with one leaf the
code has one bit; and the bound is reached by the eight symbols of the rule's example. -/
def Obligations.CodeLengthBounds : Prop :=
  (∀ (ft : Vector Count 256) (t : Tree), buildTree ft = .ok t → ∀ b ∈ alphabet ft,
    (storedCode t b).length ≤ 255 ∧
    (2 ≤ (alphabet ft).length → (storedCode t b).length ≤ (alphabet ft).length - 1) ∧
    ((alphabet ft).length = 1 → (storedCode t b).length = 1)) ∧
  (∃ t, buildTree (tabulate (fun b =>
      if b = 0#8 then 1#32 else if b.toNat < 8 then BitVec.ofNat 32 (2 ^ (b.toNat - 1)) else 0#32)) = .ok t ∧
    (storedCode t 0#8).length = 7 ∧ (storedCode t 1#8).length = 7)

/-- R102: BUILD depends on the table alone: two states with the same `FT` get the same tree or the same error. -/
def Obligations.BuildDependsOnTableAlone : Prop :=
  ∀ s u : State, s.ft = u.ft → (build s).map State.tree = (build u).map State.tree

/-! ### The packer -/

/-- R111, R112, R113: WRITEBIT fails with FooterOverflowError at the footer's limit and else with OutputFullError where
a new byte would lie outside `OUT`; otherwise it writes the bit at the cursor, keeps every other bit of the capacity,
brings new bytes in as zeros, keeps every other bit above the capacity, and advances the cursor; the capacity stays if
it holds the cursor's byte and else becomes `min(CAP + CHUNK, OUT_MAX)`; nothing else changes. -/
def Obligations.WriteBitSetsOneBit : Prop :=
  ∀ (b : Bool) (s : State), s.params.Legal →
    (s.bitcur.toNat = maxBitCount s.params → writeBit b s = .error .footerOverflow) ∧
    (s.bitcur.toNat ≠ maxBitCount s.params → s.cap.toNat ≤ s.bitcur.toNat / 8 →
      s.params.outMax ≤ s.bitcur.toNat / 8 → writeBit b s = .error .outputFull) ∧
    (s.bitcur.toNat ≠ maxBitCount s.params →
      (s.bitcur.toNat / 8 < s.cap.toNat ∨ s.bitcur.toNat / 8 < s.params.outMax) →
      ∃ t, writeBit b s = .ok t ∧ t = { s with bitcur := s.bitcur + 1, cap := t.cap, out := t.out } ∧
        t.cap.toNat = (if s.bitcur.toNat / 8 < s.cap.toNat then s.cap.toNat
          else min (s.cap.toNat + s.params.chunk) s.params.outMax) ∧
        outBit t s.bitcur.toNat = b ∧
        (∀ q, q ≠ s.bitcur.toNat → q / 8 < s.cap.toNat → outBit t q = outBit s q) ∧
        (∀ q, q ≠ s.bitcur.toNat → s.cap.toNat ≤ q / 8 → q / 8 < t.cap.toNat → outBit t q = false) ∧
        (∀ q, q ≠ s.bitcur.toNat → t.cap.toNat ≤ q / 8 → outBit t q = outBit s q))

/-- R115: the capacity is not observable: with another growth increment every command leaves the same state. The rule says
so of `OUT[0..OLEN-1]`, `OLEN`, `BITCNT` and `STATUS`; that the unspecified bytes of `OUT` and the cursors are equal too,
as the two runs have equal counters, is the model's choice, logs 3, 4 and 5. -/
def Obligations.CapacityIsNotObservable : Prop :=
  ∀ (i : Instr) (s : State) (chunk : Nat), s.params.Legal → Memory.wf s.out → 1 ≤ chunk →
    let other : Params := { s.params with chunk := chunk }
    ∃ t, exec i s = .next t ∧ exec i { s with params := other } = .next { t with params := other }

/-! ### ENCODE and DECODE: errors and frame -/

/-- R121, R131: the entry checks of ENCODE and DECODE come before BUILD: an empty buffer is EmptyInputError, also with an
all-zero table, and a buffer longer than `IN` is LengthRangeError. -/
def Obligations.EntryChecksComeFirst : Prop :=
  ∀ (i : Instr) (s : State), i ≠ .count →
    (s.ilen = 0#64 → ∃ t, exec i s = .next t ∧ FailedAs .emptyInput s t) ∧
    (s.params.inMax < s.ilen.toNat → s.ilen ≠ 0#64 → ∃ t, exec i s = .next t ∧ FailedAs .lengthRange s t)

/-- R160: what a failed command writes; `FailedAs` says that every byte of `OUT` is unspecified as that none holds a value
(the form of log 3). -/
def Obligations.FailedCommandLeaves : Prop :=
  ∀ (i : Instr) (s t : State), exec i s = .next t → t.err ≠ 0#8 →
    ∃ e : ErrorCode, t.err = e.code ∧
      (i = .count → t = { s with phase := .idle, err := e.code }) ∧
      (i ≠ .count → FailedAs e s t)

/-- R150: the number of each error, and which numbers each command can write to `STATUS.ERR`. -/
def Obligations.ErrorsOfEachCommand : Prop :=
  (ErrorCode.emptyInput.code = 1#8 ∧ ErrorCode.emptyAlphabet.code = 2#8 ∧ ErrorCode.truncatedStream.code = 3#8 ∧
    ErrorCode.illegalCommand.code = 4#8 ∧ ErrorCode.symbolNotInTree.code = 5#8 ∧ ErrorCode.absentChild.code = 6#8 ∧
    ErrorCode.danglingPath.code = 7#8 ∧ ErrorCode.footerOverflow.code = 8#8 ∧ ErrorCode.outputFull.code = 9#8 ∧
    ErrorCode.countOverflow.code = 10#8 ∧ ErrorCode.lengthRange.code = 11#8) ∧
  ∀ s t : State, s.params.Legal →
    (exec .count s = .next t → t.err ∈ [0#8, 1#8, 11#8, 10#8]) ∧
    (exec .encode s = .next t → t.err ∈ [0#8, 1#8, 11#8, 2#8, 5#8, 8#8, 9#8]) ∧
    (exec .decode s = .next t → t.err ∈ [0#8, 1#8, 11#8, 2#8, 3#8, 6#8, 9#8, 7#8])

/-- The frame of ENCODE and DECODE (R10, R11, R19, R62, R104, R160): they change `OUT`, `OLEN`, `BITCNT`, `STATUS.ERR` and
the cursors (which hold no value between commands) and nothing else; no tree is left; no byte of `OUT` at or above
`OLEN` holds a value; every byte of `IN` reads as before. -/
def Obligations.EncodeAndDecodeFrame : Prop :=
  ∀ (i : Instr) (s t : State), i ≠ .count → exec i s = .next t →
    SameInputs s t ∧ (∀ a, t.inByte a = s.inByte a) ∧ t.phase = .idle ∧ t.tree = Tree.released ∧
    (∀ a, t.olen.toNat ≤ a → Memory.lookup t.out a = none) ∧
    t = { s with out := t.out, olen := t.olen, bitcnt := t.bitcnt, err := t.err, phase := t.phase, tree := t.tree,
                 outSeed := t.outSeed, bitcur := t.bitcur, sidx := t.sidx, opos := t.opos, cap := t.cap, cur := t.cur }

/-- R55: a command depends on no byte of `IN` at or above `ILEN` and on no byte of `OUT` left by an earlier command. That
the bytes of `OUT` at or above `OLEN` (R19 leaves them unspecified) and the cursors are equal too after ENCODE and DECODE,
as the two runs have equal counters, is the model's choice, logs 3, 4 and 5. -/
def Obligations.CommandsReadOnlyTheBuffer : Prop :=
  ∀ (i : Instr) (s : State) (inMem out : Memory) (inSeed : Nat), s.params.Legal → Memory.wf s.out → Memory.wf out →
    let u : State := { s with inMem := inMem, inSeed := inSeed, out := out }
    (∀ a, a < s.ilen.toNat → u.inByte a = s.inByte a) →
    ∃ t, exec i s = .next t ∧
      exec i u = .next { t with inMem := inMem, inSeed := inSeed, out := if i = .count then out else t.out }

/-! ### ENCODE -/

/-- R68, R124, R125, R129: ENCODE of a buffer whose symbols all have a leaf, whose codes fit the footer and whose result
fits `OUT`: `OUT` read downward from position `BITCNT-1` is the stored codes of the buffer in order; the padding bits are
0; the footer, least significant byte first, is `BITCNT`, which lies between `ILEN` and `255 * ILEN`. -/
def Obligations.EncodeWritesTheCodes : Prop :=
  ∀ (s : State) (tr : Tree), s.params.Legal → BufferFits s → buildTree s.ft = .ok tr →
    (∀ b ∈ buffer s, entry s.ft b ≠ 0#32) →
    let n := (bufferCode tr s).length
    n ≤ maxBitCount s.params → ceil8 n + s.params.fwBytes ≤ s.params.outMax →
    ∃ t, exec .encode s = .next t ∧ t.err = 0#8 ∧ SameInputs s t ∧
      t.bitcnt.toNat = n ∧ t.olen.toNat = ceil8 n + s.params.fwBytes ∧
      outStream t n = bufferCode tr s ∧
      (∀ p, n ≤ p → p < 8 * ceil8 n → outBit t p = false) ∧
      (∀ k, k < s.params.fwBytes → t.outByte (ceil8 n + k) = BitVec.ofNat 8 (n / 2 ^ (8 * k))) ∧
      s.ilen.toNat ≤ n ∧ n ≤ 255 * s.ilen.toNat

/-- R120, R165: ENCODE succeeds exactly when the buffer fits, the table is not all zero, every symbol of the buffer has a
leaf, the bit count fits the footer and the result fits `OUT`. -/
def Obligations.EncodeSucceedsExactlyWhen : Prop :=
  ∀ s t : State, s.params.Legal → exec .encode s = .next t →
    (t.err = 0#8 ↔ BufferFits s ∧ ∃ tr, buildTree s.ft = .ok tr ∧ (∀ b ∈ buffer s, entry s.ft b ≠ 0#32) ∧
      (bufferCode tr s).length ≤ maxBitCount s.params ∧
      ceil8 (bufferCode tr s).length + s.params.fwBytes ≤ s.params.outMax)

/-- R127: a buffer of one byte value repeated, with the table of that value alone: `BITCNT` is the number of bytes,
every payload byte is 0, and the footer follows. -/
def Obligations.EncodeOfOneSymbol : Prop :=
  ∀ (s : State) (b : Byte), s.params.Legal → BufferFits s → alphabet s.ft = [b] → (∀ c ∈ buffer s, c = b) →
    s.ilen.toNat ≤ maxBitCount s.params → ceil8 s.ilen.toNat + s.params.fwBytes ≤ s.params.outMax →
    ∃ t, exec .encode s = .next t ∧ t.err = 0#8 ∧ t.bitcnt = s.ilen ∧
      (∀ a, a < ceil8 s.ilen.toNat → t.outByte a = 0#8) ∧
      (∀ k, k < s.params.fwBytes → t.outByte (ceil8 s.ilen.toNat + k) = BitVec.ofNat 8 (s.ilen.toNat / 2 ^ (8 * k))) ∧
      t.olen.toNat = ceil8 s.ilen.toNat + s.params.fwBytes

/-- R123: SymbolNotInTreeError is raised when a symbol of the buffer has no entry in the table: at the last such symbol
of the buffer, if the codes of the symbols after it could be packed. -/
def Obligations.SymbolWithoutLeafFails : Prop :=
  (∀ s t : State, s.params.Legal → exec .encode s = .next t → t.err = ErrorCode.symbolNotInTree.code →
    ∃ b ∈ buffer s, entry s.ft b = 0#32) ∧
  (∀ (s : State) (tr : Tree) (before after : List Byte) (b : Byte),
    s.params.Legal → BufferFits s → buildTree s.ft = .ok tr →
    buffer s = before ++ b :: after → entry s.ft b = 0#32 → (∀ c ∈ after, entry s.ft c ≠ 0#32) →
    (after.flatMap (storedCode tr)).length ≤ maxBitCount s.params →
    ceil8 (after.flatMap (storedCode tr)).length ≤ s.params.outMax →
    ∃ t, exec .encode s = .next t ∧ FailedAs .symbolNotInTree s t)

/-- R112, R158, R194: an encoding with more bits than the footer can count fails with FooterOverflowError, if `OUT` has
room for the bits it can count; with the 8-byte footer that never happens. -/
def Obligations.FooterOverflowInEncode : Prop :=
  (∀ (s : State) (tr : Tree), s.params.Legal → BufferFits s → buildTree s.ft = .ok tr →
    (∀ b ∈ buffer s, entry s.ft b ≠ 0#32) → maxBitCount s.params < (bufferCode tr s).length →
    maxBitCount s.params ≤ 8 * s.params.outMax →
    ∃ t, exec .encode s = .next t ∧ FailedAs .footerOverflow s t) ∧
  (∀ s t : State, s.params.Legal → s.params.fw = .w8 → exec .encode s = .next t →
    t.err ≠ ErrorCode.footerOverflow.code)

/-- R159: OutputFullError (a) in GROW, when the bits of the codes outgrow `OUT` before the footer's limit; (b) after the last
symbol, when payload and footer do not fit; (c) in DECODE, when a symbol is to be emitted and `OUT` is full. -/
def Obligations.OutputFullWhenOutIsFull : Prop :=
  (∀ (s : State) (tr : Tree), s.params.Legal → BufferFits s → buildTree s.ft = .ok tr →
    (∀ b ∈ buffer s, entry s.ft b ≠ 0#32) →
    let n := (bufferCode tr s).length
    (8 * s.params.outMax < n ∧ 8 * s.params.outMax < maxBitCount s.params) ∨
      (n ≤ maxBitCount s.params ∧ s.params.outMax < ceil8 n + s.params.fwBytes) →
    ∃ t, exec .encode s = .next t ∧ FailedAs .outputFull s t) ∧
  (∀ (s : State) (tr : Tree) (bs : List Byte) (rest : List Bool),
    s.params.Legal → BufferFits s → buildTree s.ft = .ok tr → FooterFits s →
    (∀ b ∈ bs, entry s.ft b ≠ 0#32) → bs.length = s.params.outMax + 1 →
    inStream s (footerValue s) = bs.flatMap (storedCode tr) ++ rest →
    ∃ t, exec .decode s = .next t ∧ FailedAs .outputFull s t)

/-! ### DECODE -/

/-- R134: one step of WALK reads the stored bit at its position and moves to the child its complement selects: stored 0 to
the first, stored 1 to the second; it fails where that child is absent (R137). -/
def Obligations.WalkMovesByTheComplement : Prop :=
  ∀ (i : Nat) (s : State) (x : Node), s.tree.node[s.cur.toNat]? = some x →
    let child := if streamBit s i = false then x.first else x.second
    (child = NIL → walkBit i s = .error .absentChild) ∧
    (child ≠ NIL → leafSymbol s.tree child = none →
      walkBit i s = .ok { s with bitcur := BitVec.ofNat 64 i, cur := child }) ∧
    (∀ b, child ≠ NIL → leafSymbol s.tree child = some b →
      walkBit i s = emit b { s with bitcur := BitVec.ofNat 64 i, cur := child })

/-- R136, R159 (c): an emission writes the symbol at `OPOS`, advances `OPOS`, returns the walk to the root and changes
nothing else; where `OUT` is full it fails. -/
def Obligations.EmitWritesTheSymbol : Prop :=
  ∀ (b : Byte) (s : State),
    (s.params.outMax ≤ s.opos.toNat → emit b s = .error .outputFull) ∧
    (s.opos.toNat < s.params.outMax →
      ∃ t, emit b s = .ok t ∧ t = { s with opos := s.opos + 1, cur := s.tree.root, out := t.out } ∧
        ∀ a, t.outByte a = if a = s.opos.toNat then b else s.outByte a)

/-- R66, R132: the footer value has the last `FW` bytes of the buffer as its bytes, least significant first. -/
def Obligations.FooterIsLittleEndian : Prop :=
  ∀ s : State, s.params.fwBytes ≤ s.ilen.toNat →
    footerValue s ≤ maxBitCount s.params ∧
    ∀ k, k < s.params.fwBytes →
      footerValue s / 2 ^ (8 * k) % 256 = (s.inByte (s.ilen.toNat - s.params.fwBytes + k)).toNat

/-- R133: TruncatedStreamError is raised exactly when the buffer is shorter than a footer or the footer declares more
bits than the payload bytes hold (the entry checks and BUILD having passed). -/
def Obligations.TruncatedStreamExactly : Prop :=
  ∀ s : State, s.params.Legal → BufferFits s → tableSum s.ft ≠ 0 →
    (¬ FooterFits s → ∃ t, exec .decode s = .next t ∧ FailedAs .truncatedStream s t) ∧
    (∀ t, FooterFits s → exec .decode s = .next t → t.err ≠ ErrorCode.truncatedStream.code)

/-- R130, R134, R136, R140: DECODE of a stream that, read downward from position `bc-1`, is the stored codes of a list of
symbols delivers those symbols in order. -/
def Obligations.DecodeReadsTheCodes : Prop :=
  ∀ (s : State) (tr : Tree) (bs : List Byte), s.params.Legal → BufferFits s → buildTree s.ft = .ok tr →
    FooterFits s → (∀ b ∈ bs, entry s.ft b ≠ 0#32) → bs.length ≤ s.params.outMax →
    inStream s (footerValue s) = bs.flatMap (storedCode tr) →
    ∃ t, exec .decode s = .next t ∧ t.err = 0#8 ∧ SameInputs s t ∧
      t.olen.toNat = bs.length ∧ result t = bs ∧ t.bitcnt.toNat = footerValue s

/-- R134, R136, R140: and every success of DECODE is of that kind: the stream is the stored codes of the symbols
delivered, at least one and at most `bc` of them when `bc >= 1`. -/
def Obligations.DecodeSuccessIsACodeSequence : Prop :=
  ∀ s t : State, s.params.Legal → exec .decode s = .next t → t.err = 0#8 →
    BufferFits s ∧ FooterFits s ∧ t.bitcnt.toNat = footerValue s ∧
    (1 ≤ footerValue s → 1 ≤ t.olen.toNat ∧ t.olen.toNat ≤ footerValue s) ∧
    ∃ tr, buildTree s.ft = .ok tr ∧ (∀ b ∈ result t, entry s.ft b ≠ 0#32) ∧
      inStream s (footerValue s) = (result t).flatMap (storedCode tr)

/-- R137: AbsentChildError is raised in one case only, a stored 1 in the single-symbol tree; and there it is raised, if
the symbols before it fit `OUT`. -/
def Obligations.AbsentChildExactly : Prop :=
  (∀ s t : State, s.params.Legal → exec .decode s = .next t → t.err = ErrorCode.absentChild.code →
    (alphabet s.ft).length = 1 ∧ ∃ p, p < footerValue s ∧ streamBit s p = true) ∧
  (∀ (s : State) (p : Nat), s.params.Legal → BufferFits s → FooterFits s → (alphabet s.ft).length = 1 →
    p < footerValue s → streamBit s p = true → (∀ q, p < q → q < footerValue s → streamBit s q = false) →
    footerValue s - 1 - p ≤ s.params.outMax →
    ∃ t, exec .decode s = .next t ∧ FailedAs .absentChild s t)

/-- R138: DanglingPathError is raised exactly when the stream ends inside a code. -/
def Obligations.DanglingPathExactly : Prop :=
  (∀ s t : State, s.params.Legal → exec .decode s = .next t → t.err = ErrorCode.danglingPath.code →
    ∃ tr bs r b, buildTree s.ft = .ok tr ∧ b ∈ alphabet s.ft ∧ r ≠ [] ∧ r <+: storedCode tr b ∧ r ≠ storedCode tr b ∧
      inStream s (footerValue s) = List.flatMap (storedCode tr) bs ++ r) ∧
  (∀ (s : State) (tr : Tree) (bs : List Byte) (r : List Bool) (b : Byte),
    s.params.Legal → BufferFits s → buildTree s.ft = .ok tr → FooterFits s →
    (∀ c ∈ bs, entry s.ft c ≠ 0#32) → bs.length ≤ s.params.outMax →
    b ∈ alphabet s.ft → r ≠ [] → r <+: storedCode tr b → r ≠ storedCode tr b →
    inStream s (footerValue s) = bs.flatMap (storedCode tr) ++ r →
    ∃ t, exec .decode s = .next t ∧ FailedAs .danglingPath s t)

/-- R139: a footer value of 0 is accepted and gives an empty result; ENCODE never produces such a buffer. -/
def Obligations.ZeroBitCountIsAccepted : Prop :=
  (∀ s : State, s.params.Legal → BufferFits s → tableSum s.ft ≠ 0 → FooterFits s → footerValue s = 0 →
    ∃ t, exec .decode s = .next t ∧ t.err = 0#8 ∧ t.olen = 0#64 ∧ t.bitcnt = 0#64) ∧
  (∀ s t : State, s.params.Legal → exec .encode s = .next t → t.err = 0#8 → t.bitcnt ≠ 0#64)

/-- R134, R145: DECODE depends on the footer value and the stream bits below it alone: padding bits and unused payload
bytes change nothing. That the bytes of `OUT` which R19 and R160 leave unspecified and the cursors are equal too, as the
two runs have equal counters, is the model's choice, logs 3, 4 and 5. -/
def Obligations.DecodeIgnoresPadding : Prop :=
  ∀ (s : State) (inMem : Memory) (inSeed : Nat), s.params.Legal → Memory.wf s.out →
    let u : State := { s with inMem := inMem, inSeed := inSeed }
    footerValue u = footerValue s → (∀ p, p < footerValue s → streamBit u p = streamBit s p) →
    ∃ t, exec .decode s = .next t ∧ exec .decode u = .next { t with inMem := inMem, inSeed := inSeed }

/-! ### The round trip -/

/-- R141, the round trip: `decode(encode(B, count(B)), count(B)) == B`. On one instance COUNT, ENCODE, LOOPBACK, DECODE all
succeed and the result is the buffer, for parameters large enough for the counts, the bits and the results (which
LOOPBACK has to fit into `IN` too). On two instances with the same `FW` and the same `FT`, for any table: whatever an
ENCODE delivers, a DECODE with room for the symbols turns back into the buffer. -/
def Obligations.RoundTrip : Prop :=
  (∀ s : State, s.Inv → BufferFits s → (∀ b, occursIn s b ≤ 2 ^ 32 - 1) → s.ilen.toNat ≤ s.params.outMax →
    (∀ tr, buildTree (countTable s) = .ok tr →
      (bufferCode tr s).length ≤ maxBitCount s.params ∧
      ceil8 (bufferCode tr s).length + s.params.fwBytes ≤ s.params.outMax ∧
      ceil8 (bufferCode tr s).length + s.params.fwBytes ≤ s.params.inMax) →
    ∃ c e d, exec .count s = .next c ∧ c.err = 0#8 ∧ exec .encode c = .next e ∧ e.err = 0#8 ∧
      Host.Core.run Sys2Proof.core ((loopback e).length + 1) { e with host := loopback e ++ [cmdWrite 0x03#8] } = .next d ∧
      d.err = 0#8 ∧ d.olen = s.ilen ∧ result d = buffer s) ∧
  (∀ s t u : State, s.params.Legal → u.params.Legal → exec .encode s = .next t → t.err = 0#8 →
    u.params.fw = s.params.fw → u.ft = s.ft → u.ilen = t.olen → t.olen.toNat ≤ u.params.inMax →
    (∀ a, a < t.olen.toNat → u.inByte a = t.outByte a) → s.ilen.toNat ≤ u.params.outMax →
    ∃ v, exec .decode u = .next v ∧ v.err = 0#8 ∧ v.olen = s.ilen ∧ v.bitcnt = t.bitcnt ∧ result v = buffer s)
end

