-- ==== Sys2Proof/Laws/Memory.lean ====
section
/-! SUPPORT. The laws of a byte space: reading after a write, trimming, the canonical form. -/

namespace Sys2Proof.Machine

@[simp] theorem Memory.lookup_nil (a : Nat) : Memory.lookup [] a = none := rfl

/-- A byte space after a write: the written address holds the byte, every other what it held. -/
theorem Memory.lookup_store (m : Memory) (a : Nat) (v : Byte) (c : Nat) :
    Memory.lookup (Memory.store m a v) c = if c = a then some v else Memory.lookup m c := by
  induction m with
  | nil => simp [Memory.store, Memory.lookup, eq_comm]
  | cons x m ih =>
    obtain ⟨k, b⟩ := x
    simp only [Memory.store]
    split
    · simp only [Memory.lookup, eq_comm]
    · split
      · subst_vars
        simp only [Memory.lookup, eq_comm]
        split <;> simp_all
      · simp only [Memory.lookup, ih]
        split
        · subst_vars; simp_all [eq_comm]
        · rfl

@[simp] theorem Memory.lookup_store_self (m : Memory) (a : Nat) (v : Byte) :
    Memory.lookup (Memory.store m a v) a = some v := by simp [Memory.lookup_store]

theorem Memory.lookup_store_ne (m : Memory) {a c : Nat} (v : Byte) (h : c ≠ a) :
    Memory.lookup (Memory.store m a v) c = Memory.lookup m c := by simp [Memory.lookup_store, h]

/-- A trimmed byte space holds what it held below the bound and nothing above. -/
theorem Memory.lookup_below (n : Nat) (m : Memory) (a : Nat) :
    Memory.lookup (Memory.below n m) a = if a < n then Memory.lookup m a else none := by
  induction m with
  | nil => simp [Memory.below]
  | cons x m ih =>
    obtain ⟨k, b⟩ := x
    simp only [Memory.below, List.filter_cons] at ih ⊢
    by_cases hk : k < n
    · simp only [hk, decide_true, if_true, Memory.lookup, ih]
      split <;> simp_all
    · simp only [hk, decide_false, Memory.lookup]
      simp only [Bool.false_eq_true, if_false, ih]
      split <;> rename_i h
      · have : k ≠ a := by omega
        simp [this]
      · rfl

@[simp] theorem Memory.below_zero (m : Memory) : Memory.below 0 m = [] := by
  simp [Memory.below]

theorem Memory.below_below (n : Nat) (m : Memory) : Memory.below n (Memory.below n m) = Memory.below n m := by
  simp [Memory.below]

/-- The addresses of a space after a write: the old ones and the written one. -/
theorem Memory.mem_store {m : Memory} {a : Nat} {v : Byte} {c : Host.Cell} (h : c ∈ Memory.store m a v) :
    c = (a, v) ∨ c ∈ m := by
  induction m with
  | nil => simpa [Memory.store] using h
  | cons x m ih =>
    obtain ⟨k, b⟩ := x
    simp only [Memory.store] at h
    split at h
    · simpa using h
    · split at h
      · simp only [List.mem_cons] at h ⊢
        tauto
      · simp only [List.mem_cons] at h ⊢
        rcases h with h | h
        · exact .inr (.inl h)
        · rcases ih h with h | h <;> tauto

/-- A write keeps the canonical form. -/
theorem Memory.store_wf {m : Memory} (a : Nat) (v : Byte) (h : Memory.wf m) : Memory.wf (Memory.store m a v) := by
  induction m with
  | nil => simp [Memory.store, Memory.wf]
  | cons x m ih =>
    obtain ⟨k, b⟩ := x
    simp only [Memory.wf, List.pairwise_cons] at h
    simp only [Memory.store]
    split
    · rename_i hk
      simp only [Memory.wf, List.pairwise_cons, List.mem_cons]
      refine ⟨?_, h⟩
      rintro c (rfl | hc)
      · exact hk
      · exact lt_trans hk (h.1 c hc)
    · split
      · subst_vars
        exact List.pairwise_cons.2 h
      · refine List.pairwise_cons.2 ⟨fun c hc => ?_, ih h.2⟩
        rcases Memory.mem_store hc with rfl | hc
        · simp; omega
        · exact h.1 c hc

/-- Trimming keeps the canonical form. -/
theorem Memory.below_wf {m : Memory} (n : Nat) (h : Memory.wf m) : Memory.wf (Memory.below n m) :=
  h.sublist List.filter_sublist

theorem Memory.lookup_eq_none_of_forall {m : Memory} {a : Nat} (h : ∀ c ∈ m, c.1 ≠ a) : Memory.lookup m a = none := by
  induction m with
  | nil => rfl
  | cons x m ih =>
    obtain ⟨k, b⟩ := x
    simp only [Memory.lookup]
    rw [if_neg (h (k, b) (by simp)), ih fun c hc => h c (by simp [hc])]

/-- An address holds a value exactly when it is listed. -/
theorem Memory.lookup_isSome (m : Memory) (a : Nat) : (Memory.lookup m a).isSome ↔ a ∈ m.map Prod.fst := by
  induction m with
  | nil => simp
  | cons x m ih =>
    obtain ⟨k, b⟩ := x
    simp only [Memory.lookup]
    split
    · simp_all
    · rename_i h
      simp [ih, Ne.symm h]

/-- Equal contents are equal data: two spaces in canonical form that hold the same bytes are the same list. -/
theorem Memory.ext_of_wf {m m' : Memory} (h : Memory.wf m) (h' : Memory.wf m')
    (e : ∀ a, Memory.lookup m a = Memory.lookup m' a) : m = m' := by
  induction m generalizing m' with
  | nil =>
    cases m' with
    | nil => rfl
    | cons y m' => simpa [Memory.lookup] using e y.1
  | cons x m ih =>
    obtain ⟨k, b⟩ := x
    cases m' with
    | nil => simpa [Memory.lookup] using e k
    | cons y m' =>
      obtain ⟨k', b'⟩ := y
      simp only [Memory.wf, List.pairwise_cons] at h h'
      have none_of : ∀ (j : Nat) (l : Memory), (∀ c ∈ l, j < c.1) → ∀ a, a ≤ j → Memory.lookup l a = none :=
        fun j l hl a ha => Memory.lookup_eq_none_of_forall fun c hc => by have := hl c hc; omega
      have hk : k = k' := by
        rcases lt_trichotomy k k' with hlt | heq | hgt
        · have := e k
          rw [Memory.lookup, if_pos rfl, Memory.lookup, if_neg (by omega),
            none_of k' m' h'.1 k (by omega)] at this
          cases this
        · exact heq
        · have := e k'
          rw [Memory.lookup, if_neg (by omega), none_of k m h.1 k' (by omega), Memory.lookup, if_pos rfl] at this
          cases this
      subst hk
      have hb : b = b' := by simpa [Memory.lookup] using e k
      subst hb
      congr 1
      refine ih h.2 h'.2 fun a => ?_
      have := e a
      simp only [Memory.lookup] at this
      by_cases hka : k = a
      · subst hka
        rw [none_of k m h.1 k le_rfl, none_of k m' h'.1 k le_rfl]
      · simpa [hka] using this

/-- A space in canonical form that holds a value exactly below `n` lists exactly the addresses below `n`. -/
theorem Memory.addresses_eq_range {m : Memory} (h : Memory.wf m) {n : Nat}
    (e : ∀ a, (Memory.lookup m a).isSome ↔ a < n) : m.map Prod.fst = List.range n := by
  have h1 : (m.map Prod.fst).Pairwise (· < ·) := List.pairwise_map.2 h
  refine h1.eq_of_mem_iff List.pairwise_lt_range fun a => ?_
  rw [← Memory.lookup_isSome, e, List.mem_range]

/-- A byte read of `IN` after a host write of a byte. -/
theorem inByte_writeIn (a : Nat) (v : Byte) (s : State) (c : Nat) :
    (writeIn a v s).inByte c = if c = a then v else s.inByte c := by
  simp only [State.inByte, writeIn, Memory.lookup_store]
  split <;> simp

/-- A byte read of `OUT` after a byte write. -/
theorem outByte_writeOut (a : Nat) (v : Byte) (s : State) (c : Nat) :
    (writeOut a v s).outByte c = if c = a then v else s.outByte c := by
  simp only [State.outByte, writeOut, Memory.lookup_store]
  split <;> simp

end Sys2Proof.Machine
end

