-- ==== Sys2Proof/Laws/Operands.lean ====
section
/-! SUPPORT. The laws of the operands: tables by symbol, the bit in a byte, the footer, counting. -/

namespace Sys2Proof.Machine

/-! ### Tables by symbol -/

@[simp] theorem entry_tabulate {α : Type} (f : Byte → α) (b : Byte) : entry (tabulate f) b = f b := by
  simp [entry, tabulate]

/-- An entry of a table after a write of one entry. -/
theorem entry_setEntry {α : Type} (v : Vector α 256) (b : Byte) (x : α) (c : Byte) :
    entry (setEntry v b x) c = if c = b then x else entry v c := by
  simp only [entry, setEntry, Vector.getElem_set]
  by_cases h : c = b
  · simp [h]
  · have : b.toNat ≠ c.toNat := fun e => h (BitVec.eq_of_toNat_eq e.symm)
    simp [h, this]

@[simp] theorem entry_replicate {α : Type} (x : α) (b : Byte) : entry (Vector.replicate 256 x) b = x := by
  simp [entry]

/-- Tables with the same entries are the same. -/
theorem table_ext {α : Type} {v w : Vector α 256} (h : ∀ b, entry v b = entry w b) : v = w := by
  apply Vector.ext
  intro i hi
  have := h (BitVec.ofNat 8 i)
  simpa [entry, Nat.mod_eq_of_lt (show i < 256 by omega)] using this

theorem ofNat_toNat8 (i : Nat) (h : i < 256) : (BitVec.ofNat 8 i).toNat = i := by
  simp; omega

/-! ### One bit of a byte -/

/-- The byte with one bit set: that bit is the new one, "the other seven bits of the byte are kept" (R111). -/
theorem getLsbD_setBit (old : Byte) (b : Bool) {i j : Nat} (hi : i < 8) (hj : j < 8) :
    (setBit old i b).getLsbD j = if j = i then b else old.getLsbD j := by
  have hmask : ∀ i j : Fin 8, (0xFF#8 - (1#8 <<< i.val)).getLsbD j.val = decide (j ≠ i) := by decide
  have hbit : ∀ (c : Bool) (i j : Fin 8),
      (((BitVec.ofBool c).setWidth 8 : BitVec 8) <<< i.val).getLsbD j.val = (c && decide (j = i)) := by decide
  have hm := hmask ⟨i, hi⟩ ⟨j, hj⟩
  have hb := hbit b ⟨i, hi⟩ ⟨j, hj⟩
  simp only [Fin.mk.injEq, ne_eq] at hm hb
  simp only [setBit, BitVec.getLsbD_or, BitVec.getLsbD_and, hm, hb]
  by_cases e : j = i <;> simp [e]

/-! ### The footer -/

theorem fwBytes_pos (p : Params) : 4 ≤ p.fwBytes ∧ p.fwBytes ≤ 8 := by
  unfold Params.fwBytes; cases p.fw <;> simp

theorem littleEndian_lt (s : State) (a k : Nat) : littleEndian s a k < 2 ^ (8 * k) := by
  induction k with
  | zero => simp [littleEndian]
  | succ k ih =>
    have hb := (s.inByte (a + k)).isLt
    have h1 : (s.inByte (a + k)).toNat * 2 ^ (8 * k) ≤ 255 * 2 ^ (8 * k) := Nat.mul_le_mul_right _ (by omega)
    have h2 : 2 ^ (8 * (k + 1)) = 256 * 2 ^ (8 * k) := by rw [Nat.mul_add, Nat.pow_add]; ring
    simp only [littleEndian]
    omega

/-- Byte `j` of the value of `k` little-endian bytes is the `j`-th of them (R66). -/
theorem littleEndian_byte (s : State) (a : Nat) {j k : Nat} (h : j < k) :
    littleEndian s a k / 2 ^ (8 * j) % 256 = (s.inByte (a + j)).toNat := by
  induction k with
  | zero => omega
  | succ k ih =>
    have hb := (s.inByte (a + k)).isLt
    have hlt := littleEndian_lt s a k
    simp only [littleEndian]
    rcases Nat.lt_succ_iff_lt_or_eq.1 h with hj | rfl
    · obtain ⟨d, rfl⟩ := Nat.exists_eq_add_of_lt hj
      have e : 2 ^ (8 * (j + d + 1)) = 2 ^ (8 * j) * (256 * 2 ^ (8 * d)) := by
        rw [show (256 : Nat) = 2 ^ 8 by rfl, ← Nat.pow_add, ← Nat.pow_add]; congr 1; ring
      rw [e, show ∀ x y z : Nat, x * (y * (256 * z)) = y * (256 * (x * z)) by intros; ring,
        Nat.add_mul_div_left _ _ (Nat.two_pow_pos _), Nat.add_mul_mod_self_left]
      exact ih hj
    · rw [Nat.add_mul_div_right _ _ (Nat.two_pow_pos _), Nat.div_eq_of_lt hlt]
      omega

theorem littleEndian_congr {s u : State} {a b k : Nat} (h : ∀ j, j < k → s.inByte (a + j) = u.inByte (b + j)) :
    littleEndian s a k = littleEndian u b k := by
  induction k with
  | zero => rfl
  | succ k ih => simp only [littleEndian, ih fun j hj => h j (by omega), h k (by omega)]

/-- The value of `k` bytes that are the bytes of `n` is `n`, if `n` fits. -/
theorem littleEndian_of_bytes {s : State} {a n : Nat} {k : Nat} (hn : n < 2 ^ (8 * k))
    (h : ∀ j, j < k → s.inByte (a + j) = BitVec.ofNat 8 (n / 2 ^ (8 * j))) : littleEndian s a k = n := by
  have key : ∀ m, m ≤ k → littleEndian s a m = n % 2 ^ (8 * m) := by
    intro m
    induction m with
    | zero => simp [littleEndian, Nat.mod_one]
    | succ m ih =>
      intro hm
      simp only [littleEndian, ih (by omega), h m (by omega), BitVec.toNat_ofNat]
      rw [show 8 * (m + 1) = 8 * m + 8 by ring, Nat.pow_add, Nat.mod_mul]
      ring
  rw [key k le_rfl, Nat.mod_eq_of_lt hn]

theorem maxBitCount_lt (p : Params) : maxBitCount p < 2 ^ 64 := by
  unfold maxBitCount Params.fwBytes; cases p.fw <;> simp

theorem footerValue_le (s : State) : footerValue s ≤ maxBitCount s.params := by
  have := littleEndian_lt s (s.ilen.toNat - s.params.fwBytes) s.params.fwBytes
  unfold footerValue maxBitCount; omega

/-- The bytes of `OUT` after the footer is written: the footer's bytes, and every other as before (R66). -/
theorem lookup_writeFooter (nb : Nat) (bits : Word) (k : Nat) (s : State) (a : Nat) :
    Memory.lookup (writeFooter nb bits k s).out a =
      if nb ≤ a ∧ a < nb + k then some (BitVec.ofNat 8 (bits.toNat / 2 ^ (8 * (a - nb)))) else Memory.lookup s.out a := by
  induction k with
  | zero => simp [writeFooter]
  | succ k ih =>
    simp only [writeFooter, writeOut, Memory.lookup_store, ih]
    by_cases h : a = nb + k
    · subst h
      rw [if_pos rfl, if_pos (by omega)]
      congr 1
      apply BitVec.eq_of_toNat_eq
      simp [Nat.shiftRight_eq_div_pow]
    · rw [if_neg h]
      by_cases h2 : nb ≤ a ∧ a < nb + k
      · rw [if_pos h2, if_pos (by omega)]
      · rw [if_neg h2, if_neg (by omega)]

/-- Writing the footer changes `OUT` alone. -/
theorem writeFooter_frame (nb : Nat) (bits : Word) (k : Nat) (s : State) :
    writeFooter nb bits k s = { s with out := (writeFooter nb bits k s).out } := by
  induction k with
  | zero => rfl
  | succ k ih => rw [writeFooter, writeOut, ih]

theorem writeFooter_wf (nb : Nat) (bits : Word) (k : Nat) {s : State} (h : Memory.wf s.out) :
    Memory.wf (writeFooter nb bits k s).out := by
  induction k with
  | zero => exact h
  | succ k ih => exact Memory.store_wf _ _ ih

/-! ### Counting -/

theorem occurrences_eq_count (s : State) (b : Byte) (n : Nat) :
    occurrences s b n = ((List.range n).map s.inByte).count b := by
  induction n with
  | zero => rfl
  | succ n ih =>
    rw [occurrences, ih, List.range_succ, List.map_append, List.count_append]
    simp [List.count_singleton]

theorem occurrences_eq_occursIn (s : State) (b : Byte) : occurrences s b s.ilen.toNat = occursIn s b :=
  occurrences_eq_count s b _

/-- The overflow check of COUNT fires exactly when some byte value occurs too often (R83). -/
theorem countOverflows_iff (s : State) : countOverflows s = true ↔ ∃ b, 2 ^ 32 - 1 < occursIn s b := by
  simp only [countOverflows, List.any_eq_true, List.mem_range, decide_eq_true_eq, occurrences_eq_occursIn]
  constructor
  · rintro ⟨i, -, h⟩; exact ⟨_, h⟩
  · rintro ⟨b, h⟩; exact ⟨b.toNat, b.isLt, by simpa using h⟩

theorem entry_countTable (s : State) (b : Byte) : entry (countTable s) b = BitVec.ofNat 32 (occursIn s b) := by
  simp [countTable, occurrences_eq_occursIn]

theorem sum_indicator (c : Byte) (n : Nat) (hn : n ≤ 256) :
    ((List.range n).map (fun i => if c = BitVec.ofNat 8 i then 1 else 0)).sum = if c.toNat < n then 1 else 0 := by
  induction n with
  | zero => simp
  | succ n ih =>
    have e : c = BitVec.ofNat 8 n ↔ c.toNat = n := by
      rw [← BitVec.toNat_inj, ofNat_toNat8 n (by omega)]
    rw [List.range_succ, List.map_append, List.sum_append, ih (by omega), List.map_singleton, List.sum_singleton]
    simp only [e]
    split <;> split <;> split <;> omega

/-- The counts of all byte values in a list sum to its length. -/
theorem sum_count_bytes (l : List Byte) (n : Nat) (hn : n = 256) :
    ((List.range n).map (fun i => l.count (BitVec.ofNat 8 i))).sum = l.length := by
  induction l with
  | nil => simp
  | cons b l ih =>
    have split : ((List.range n).map (fun i => (b :: l).count (BitVec.ofNat 8 i))).sum =
        ((List.range n).map (fun i => l.count (BitVec.ofNat 8 i))).sum +
        ((List.range n).map (fun i => if b = BitVec.ofNat 8 i then 1 else 0)).sum := by
      rw [← List.sum_map_add]
      congr 1
      refine List.map_congr_left fun i _ => ?_
      simp [List.count_cons]
    have := b.isLt
    rw [split, ih, sum_indicator b n (by omega), if_pos (by omega), List.length_cons]

@[simp] theorem buffer_length (s : State) : (buffer s).length = s.ilen.toNat := by simp [buffer]

theorem occursIn_le (s : State) (b : Byte) : occursIn s b ≤ s.ilen.toNat := by
  have := List.count_le_length (l := buffer s) (a := b)
  simpa [occursIn] using this

theorem mem_alphabet {ft : Vector Count 256} {b : Byte} : b ∈ alphabet ft ↔ entry ft b ≠ 0#32 := by
  simp only [alphabet, List.mem_filter, List.mem_map, List.mem_range, bne_iff_ne, ne_eq, and_iff_right_iff_imp]
  intro _
  exact ⟨b.toNat, b.isLt, by simp⟩

theorem tableSum_eq_zero {ft : Vector Count 256} : tableSum ft = 0 ↔ ∀ b, entry ft b = 0#32 := by
  simp only [tableSum, List.sum_eq_zero_iff, List.mem_map, List.mem_range]
  constructor
  · intro h b
    have := h _ ⟨b.toNat, b.isLt, rfl⟩
    apply BitVec.eq_of_toNat_eq
    simpa using this
  · rintro h _ ⟨i, -, rfl⟩
    simp [h]

end Sys2Proof.Machine
end

