-- ==== Sys2Proof/Laws/Build.lean ====
section
/-! SUPPORT. The laws of BUILD: the pick, one merge, the forest that the merges keep, and the tree that comes out. -/

namespace Sys2Proof.Machine

/-! ### The pick (R94) -/

theorem pick_eq_none {l : List Candidate} : pick l = none ↔ l = [] := by
  cases l with
  | nil => simp [pick]
  | cons x l => simp only [pick]; split <;> simp

/-- The pick is a member of least frequency and, among those, of greatest index. -/
theorem pick_spec {l : List Candidate} {c : Candidate} (h : pick l = some c) :
    c ∈ l ∧ ∀ x ∈ l, c.1.freq ≤ x.1.freq ∧ (x.1.freq = c.1.freq → x.2 ≤ c.2) := by
  induction l generalizing c with
  | nil => simp [pick] at h
  | cons x l ih =>
    simp only [pick] at h
    split at h
    · rename_i hn
      simp only [Option.some.injEq] at h
      subst h
      rw [pick_eq_none.1 hn]
      simp
    · rename_i y hy
      obtain ⟨hm, hl⟩ := ih hy
      simp only [Option.some.injEq] at h
      split at h
      · rename_i hb
        subst h
        refine ⟨by simp [hm], ?_⟩
        simp only [comesBefore, Bool.or_eq_true, decide_eq_true_eq, Bool.and_eq_true, beq_iff_eq] at hb
        intro z hz
        rcases List.mem_cons.1 hz with rfl | hz
        · rcases hb with hb | ⟨hb, hi⟩
          · exact ⟨BitVec.le_of_lt hb, fun e => absurd (e ▸ hb) (BitVec.lt_irrefl _)⟩
          · exact ⟨hb ▸ BitVec.le_refl _, fun _ => hi.le⟩
        · exact hl z hz
      · rename_i hb
        subst h
        refine ⟨by simp, ?_⟩
        simp only [comesBefore, Bool.or_eq_true, decide_eq_true_eq, Bool.and_eq_true, beq_iff_eq, not_or, not_and] at hb
        obtain ⟨h1, h2⟩ := hb
        have hxy : x.1.freq ≤ y.1.freq := BitVec.not_lt.1 h1
        intro z hz
        rcases List.mem_cons.1 hz with rfl | hz
        · exact ⟨BitVec.le_refl _, fun _ => le_rfl⟩
        · obtain ⟨h3, h4⟩ := hl z hz
          refine ⟨BitVec.le_trans hxy h3, fun e => ?_⟩
          have hyz : y.1.freq = z.1.freq := BitVec.le_antisymm h3 (e ▸ hxy)
          have := h2 (by rw [hyz, e])
          have := h4 hyz.symm
          omega

/-! ### The pool (R24) -/

theorem mem_pool {t : Tree} {c : Candidate} : c ∈ t.pool ↔ t.node[c.2]? = some c.1 ∧ c.1.parent = NIL := by
  simp only [Tree.pool, List.mem_filter, beq_iff_eq, List.mem_zipIdx_iff_getElem?]

/-- The indices of a pool are in rising order. -/
theorem pool_rising (t : Tree) : t.pool.Pairwise (fun x y => x.2 < y.2) := by
  have h : (t.node.zipIdx).Pairwise (fun x y => x.2 < y.2) := by
    rw [← List.pairwise_map (f := Prod.snd) (R := (· < ·)), List.zipIdx_map_snd]
    exact List.pairwise_lt_range' ..
  exact h.sublist List.filter_sublist

theorem zipIdx_modify {α : Type} (l : List α) (n : Nat) (f : α → α) :
    (l.modify n f).zipIdx = l.zipIdx.map (fun c => if c.2 = n then (f c.1, c.2) else c) := by
  apply List.ext_getElem?
  intro i
  simp only [List.getElem?_zipIdx, List.getElem?_modify, List.getElem?_map]
  cases l[i]? with
  | none => simp
  | some x =>
    simp only [Option.map_some, Nat.zero_add]
    by_cases h : n = i
    · simp [h]
    · simp [h, Ne.symm h]

/-- A node that gets a parent leaves the pool (R24). -/
theorem pool_setParent (nodes : List Node) (n : Nat) {m : NodeIdx} (hm : m ≠ NIL) :
    (setParent n m nodes).zipIdx.filter (fun c => c.1.parent == NIL) =
      (nodes.zipIdx.filter (fun c => c.1.parent == NIL)).filter (fun c => c.2 != n) := by
  rw [setParent, zipIdx_modify, List.filter_map, List.filter_filter]
  have e1 : List.filter ((fun c : Candidate => c.1.parent == NIL) ∘
      fun c => if c.2 = n then (({ c.1 with parent := m } : Node), c.2) else c) nodes.zipIdx =
      List.filter (fun c => c.2 != n && c.1.parent == NIL) nodes.zipIdx := by
    refine List.filter_congr fun c _ => ?_
    simp only [Function.comp]
    by_cases h : c.2 = n <;> simp [h, hm]
  rw [e1]
  conv_rhs => rw [← List.map_id (List.filter _ nodes.zipIdx)]
  refine List.map_congr_left fun c hc => ?_
  have : c.2 ≠ n := by simp [List.mem_filter] at hc; exact hc.2.1
  simp [this]

/-! ### One merge (R95) -/

theorem next_eq {t : Tree} (h : t.ncount.toNat = t.node.length) (hl : t.node.length < 511) :
    t.next = BitVec.ofNat 9 t.node.length ∧ t.next.toNat = t.node.length ∧ t.next ≠ NIL := by
  have e : t.next = BitVec.ofNat 9 t.node.length := by
    apply BitVec.eq_of_toNat_eq
    simp only [Tree.next, BitVec.toNat_setWidth, BitVec.toNat_ofNat, h]
  have e2 : t.next.toNat = t.node.length := by rw [e]; simp; omega
  refine ⟨e, e2, fun h => ?_⟩
  have := congrArg BitVec.toNat h
  rw [e2] at this
  simp at this
  omega

theorem push_count {t : Tree} (n : Node) (h : t.ncount.toNat = t.node.length) (hl : t.node.length < 511) :
    (t.push n).ncount.toNat = (t.push n).node.length := by
  simp only [Tree.push, BitVec.toNat_add, List.length_append, List.length_singleton, h]
  have : (1 : BitVec 10).toNat = 1 := rfl
  omega

/-- The slots after a join: the two nodes have the new parent, which takes the next slot. -/
theorem join_node (a b : Candidate) (t : Tree) (n : Nat) :
    (t.join a b).node[n]? =
      if n < t.node.length then (t.node[n]?).map (fun x =>
        if n = a.2 ∨ n = b.2 then { x with parent := t.next } else x)
      else if n = t.node.length then some (mergedNode a b) else none := by
  simp only [Tree.join, Tree.push, setParent, List.getElem?_append, List.length_modify]
  split
  · simp only [List.getElem?_modify]
    cases t.node[n]? with
    | none => simp
    | some x =>
      simp only [eq_comm (a := a.2) (b := n), eq_comm (a := b.2) (b := n)]
      by_cases h1 : n = a.2 <;> by_cases h2 : n = b.2 <;> simp [h1, h2]
      split <;> simp
  · rename_i h
    rcases Nat.lt_or_eq_of_le (not_lt.1 h) with h | h
    · rw [if_neg (by omega)]; simp; omega
    · simp [h]

@[simp] theorem join_length (a b : Candidate) (t : Tree) : (t.join a b).node.length = t.node.length + 1 := by
  simp [Tree.join, Tree.push, setParent]

@[simp] theorem join_leaf (a b : Candidate) (t : Tree) : (t.join a b).leaf = t.leaf := rfl

theorem join_count {a b : Candidate} {t : Tree} (h : t.ncount.toNat = t.node.length) (hl : t.node.length < 511) :
    (t.join a b).ncount.toNat = (t.join a b).node.length := by
  apply push_count <;> simp [setParent, h, hl]

/-- The pool after a join: the two nodes are out and the new node is in. -/
theorem pool_join {a b : Candidate} {t : Tree} (h : t.ncount.toNat = t.node.length) (hl : t.node.length < 511) :
    (t.join a b).pool =
      (t.pool.filter (fun c => c.2 != a.2)).filter (fun c => c.2 != b.2) ++ [(mergedNode a b, t.node.length)] := by
  have hn := (next_eq h hl).2.2
  simp only [Tree.pool, Tree.join, Tree.push]
  rw [List.zipIdx_append, List.filter_append, pool_setParent _ _ hn, pool_setParent _ _ hn]
  simp [mergedNode, setParent, List.zipIdx]

/-- Taking one member of the pool out of it leaves the rest. -/
theorem pool_perm_cons {l : List Candidate} (hl : l.Pairwise (fun x y => x.2 < y.2)) {c : Candidate}
    (hc : c ∈ l) : l.Perm (c :: l.filter (fun x => x.2 != c.2)) := by
  induction l with
  | nil => simp at hc
  | cons x l ih =>
    rw [List.pairwise_cons] at hl
    rcases List.mem_cons.1 hc with rfl | hm
    · have : l.filter (fun x => x.2 != c.2) = l := by
        refine List.filter_eq_self.2 fun y hy => ?_
        have := hl.1 y hy
        simp; omega
      simp [this]
    · have hne : x.2 ≠ c.2 := by have := hl.1 c hm; omega
      have : (x :: l).filter (fun y => y.2 != c.2) = x :: l.filter (fun y => y.2 != c.2) := by
        simp [hne]
      rw [this]
      exact ((ih hl.2 hm).cons x).trans (List.Perm.swap _ _ _)

/-- What a merge of a pool of two or more does (R95): the last and the second to last node of the order are joined. -/
theorem mergeOnce_spec {t : Tree} (hp : 2 ≤ t.pool.length) :
    ∃ a b, pick t.pool = some a ∧ pick (t.pool.filter (fun c => c.2 != a.2)) = some b ∧
      a ∈ t.pool ∧ b ∈ t.pool ∧ a.2 ≠ b.2 ∧ mergeOnce t = t.join a b := by
  cases ha : pick t.pool with
  | none => rw [pick_eq_none.1 ha] at hp; simp at hp
  | some a =>
    have ham := (pick_spec ha).1
    have perm := pool_perm_cons (pool_rising t) ham
    cases hb : pick (t.pool.filter (fun c => c.2 != a.2)) with
    | none =>
      rw [pick_eq_none.1 hb] at perm
      have := perm.length_eq
      simp at this; omega
    | some b =>
      have hbm := (pick_spec hb).1
      simp only [List.mem_filter, bne_iff_ne, ne_eq] at hbm
      exact ⟨a, b, rfl, hb, ham, hbm.1, fun h => hbm.2 h.symm, by simp only [mergeOnce, ha, hb]⟩

/-! ### The leaf scan (R91) -/

/-- The symbols below `n` that have a leaf, in ascending order. -/
def alphabetBelow (ft : Vector Count 256) (n : Nat) : List Byte :=
  ((List.range n).map (BitVec.ofNat 8)).filter (fun b => entry ft b != 0#32)

theorem alphabetBelow_succ (ft : Vector Count 256) (n : Nat) :
    alphabetBelow ft (n + 1) = alphabetBelow ft n ++
      (if entry ft (BitVec.ofNat 8 n) = 0#32 then [] else [BitVec.ofNat 8 n]) := by
  simp only [alphabetBelow, List.range_succ, List.map_append, List.filter_append, List.map_singleton]
  congr 1
  by_cases h : entry ft (BitVec.ofNat 8 n) = 0#32 <;> simp [h]

theorem mem_alphabetBelow {ft : Vector Count 256} {n : Nat} (hn : n ≤ 256) {b : Byte} :
    b ∈ alphabetBelow ft n ↔ b.toNat < n ∧ entry ft b ≠ 0#32 := by
  simp only [alphabetBelow, List.mem_filter, List.mem_map, List.mem_range, bne_iff_ne, ne_eq, and_congr_left_iff]
  intro _
  constructor
  · rintro ⟨i, hi, rfl⟩
    rw [ofNat_toNat8 i (by omega)]; exact hi
  · intro h; exact ⟨b.toNat, h, by simp⟩

theorem alphabetBelow_nodup (ft : Vector Count 256) {n : Nat} (hn : n ≤ 256) : (alphabetBelow ft n).Nodup := by
  refine List.Nodup.filter _ ?_
  refine List.Nodup.map_on ?_ List.nodup_range
  intro i hi j hj e
  have := congrArg BitVec.toNat e
  simp only [List.mem_range] at hi hj
  rwa [ofNat_toNat8 i (by omega), ofNat_toNat8 j (by omega)] at this

theorem alphabetBelow_length_le (ft : Vector Count 256) (n : Nat) : (alphabetBelow ft n).length ≤ n := by
  refine (List.length_filter_le _ _).trans ?_
  simp

theorem alphabet_length_le (ft : Vector Count 256) : (alphabet ft).length ≤ 256 := alphabetBelow_length_le ft 256

theorem alphabet_nodup (ft : Vector Count 256) : (alphabet ft).Nodup := alphabetBelow_nodup ft le_rfl

/-- What the scan of the symbols below `n` has made: their leaves in order, and `LEAF` (R91). -/
theorem scanLeaves_spec (ft : Vector Count 256) (n : Nat) (hn : n ≤ 256) :
    let t := scanLeaves ft n
    t.node = (alphabetBelow ft n).map (leafNode ft) ∧ t.ncount.toNat = (alphabetBelow ft n).length ∧ t.root = NIL ∧
    ∀ b, entry t.leaf b =
      if b ∈ alphabetBelow ft n then BitVec.ofNat 9 ((alphabetBelow ft n).idxOf b) else NIL := by
  induction n with
  | zero => simp [scanLeaves, Tree.released, alphabetBelow]
  | succ n ih =>
    obtain ⟨h1, h2, h3, h4⟩ := ih (by omega)
    have hle := alphabetBelow_length_le ft n
    simp only [scanLeaves, addLeaf, alphabetBelow_succ]
    split
    · rename_i hz
      simp only [List.append_nil]
      exact ⟨h1, h2, h3, h4⟩
    · rename_i hz
      have hcount : (scanLeaves ft n).ncount.toNat = (scanLeaves ft n).node.length := by rw [h1, h2]; simp
      have hlen : (scanLeaves ft n).node.length < 511 := by rw [h1]; simp; omega
      refine ⟨by simp [Tree.push, h1], ?_, h3, ?_⟩
      · have := push_count (leafNode ft (BitVec.ofNat 8 n)) hcount hlen
        simpa [Tree.push, h1] using this
      · intro b
        simp only [entry_setEntry, h4, (next_eq hcount hlen).1, h1, List.length_map]
        have hnot : BitVec.ofNat 8 n ∉ alphabetBelow ft n := by
          rw [mem_alphabetBelow (by omega), ofNat_toNat8 n (by omega)]; omega
        by_cases hb : b = BitVec.ofNat 8 n
        · subst hb
          simp [List.idxOf_append, hnot]
        · by_cases hm : b ∈ alphabetBelow ft n <;> simp [hb, hm, List.idxOf_append]

theorem alphabet_eq (ft : Vector Count 256) : alphabet ft = alphabetBelow ft 256 := rfl

/-- The leaf of every symbol at its place in the alphabet, a parent apart. -/
theorem scanLeaves_all (ft : Vector Count 256) :
    (scanLeaves ft 256).node = (alphabet ft).map (leafNode ft) ∧
    (scanLeaves ft 256).ncount.toNat = (alphabet ft).length ∧
    ∀ b, entry (scanLeaves ft 256).leaf b =
      if b ∈ alphabet ft then BitVec.ofNat 9 ((alphabet ft).idxOf b) else NIL := by
  obtain ⟨h1, h2, -, h4⟩ := scanLeaves_spec ft 256 le_rfl
  exact ⟨h1, h2, h4⟩

theorem alphabet_eq_nil {ft : Vector Count 256} : alphabet ft = [] ↔ ∀ b, entry ft b = 0#32 := by
  rw [List.eq_nil_iff_forall_not_mem]
  simp [mem_alphabet]

theorem leafNode_freq (ft : Vector Count 256) (b : Byte) : (leafNode ft b).freq.toNat = (entry ft b).toNat := by
  have := (entry ft b).isLt
  simp only [leafNode, BitVec.toNat_setWidth]
  omega

theorem sum_filter_of_zero {α : Type} (l : List α) (p : α → Bool) (f : α → Nat) (h : ∀ x ∈ l, p x = false → f x = 0) :
    ((l.filter p).map f).sum = (l.map f).sum := by
  induction l with
  | nil => rfl
  | cons x l ih =>
    have ih := ih fun y hy => h y (by simp [hy])
    cases hp : p x with
    | true => simp [hp, ih]
    | false => simp [hp, ih, h x (by simp) hp]

/-- The sum of the table is the sum over the symbols that have a leaf. -/
theorem tableSum_eq (ft : Vector Count 256) : tableSum ft = ((alphabet ft).map (fun b => (entry ft b).toNat)).sum := by
  unfold alphabet
  rw [sum_filter_of_zero]
  · rw [List.map_map]; rfl
  · intro b _ h
    simp only [bne_eq_false_iff_eq] at h
    simp [h]

/-- The sum of the table fits 40 bits (R33). -/
theorem tableSum_lt (ft : Vector Count 256) : tableSum ft < 2 ^ 40 := by
  have h : ∀ (l : List Byte), (l.map (fun b => (entry ft b).toNat)).sum ≤ l.length * (2 ^ 32 - 1) := by
    intro l
    induction l with
    | nil => simp
    | cons b l ih =>
      have := (entry ft b).isLt
      simp only [List.map_cons, List.sum_cons, List.length_cons]
      omega
  have h1 := h (alphabet ft)
  have h2 := alphabet_length_le ft
  rw [tableSum_eq]
  have : (alphabet ft).length * (2 ^ 32 - 1) ≤ 256 * (2 ^ 32 - 1) := Nat.mul_le_mul_right _ h2
  omega

/-! ### The forest that the merges keep -/

/-- What holds of the arena from the end of the leaf scan to the end of BUILD: the leaves, the internal nodes with their
children below them, the parent pointers, the leaf index, and the frequencies as exact sums. -/
structure Forest (ft : Vector Count 256) (t : Tree) : Prop where
  count : t.ncount.toNat = t.node.length
  size : t.node.length ≤ 511
  leafNodes : ∀ (i : Nat) (b : Byte), (alphabet ft)[i]? = some b → ∃ q : NodeIdx, t.node[i]? = some { leafNode ft b with parent := q }
  internal : ∀ (i : Nat) (x : Node), (alphabet ft).length ≤ i → t.node[i]? = some x → x.kind = .internal ∧
    ∃ (a : Nat) (xa : Node), a < i ∧ x.first = BitVec.ofNat 9 a ∧ t.node[a]? = some xa ∧ xa.parent = BitVec.ofNat 9 i ∧
      ((x.second = NIL ∧ (alphabet ft).length = 1 ∧ x.freq = xa.freq) ∨
        ∃ (b : Nat) (xb : Node), b < i ∧ b ≠ a ∧ x.second = BitVec.ofNat 9 b ∧ t.node[b]? = some xb ∧
          xb.parent = BitVec.ofNat 9 i ∧ x.freq.toNat = xa.freq.toNat + xb.freq.toNat)
  parent : ∀ (i : Nat) (x : Node), t.node[i]? = some x → x.parent ≠ NIL →
    ∃ (p : Nat) (y : Node), x.parent = BitVec.ofNat 9 p ∧ i < p ∧ (alphabet ft).length ≤ p ∧ t.node[p]? = some y ∧
      (y.first = BitVec.ofNat 9 i ∨ y.second = BitVec.ofNat 9 i)
  leafIndex : ∀ b, entry t.leaf b = if b ∈ alphabet ft then BitVec.ofNat 9 ((alphabet ft).idxOf b) else NIL
  sum : (t.pool.map (fun c => c.1.freq.toNat)).sum = tableSum ft

theorem scanLeaves_forest (ft : Vector Count 256) : Forest ft (scanLeaves ft 256) := by
  obtain ⟨h1, h2, h4⟩ := scanLeaves_all ft
  have hle := alphabet_length_le ft
  have hpool : (scanLeaves ft 256).pool = ((alphabet ft).map (leafNode ft)).zipIdx := by
    simp only [Tree.pool, h1]
    refine List.filter_eq_self.2 fun c hc => ?_
    have := List.mem_zipIdx_iff_getElem?.1 hc
    rw [List.getElem?_map, Option.map_eq_some_iff] at this
    obtain ⟨b, -, hb⟩ := this
    simp [← hb, leafNode]
  refine ⟨by rw [h1, h2]; simp, by rw [h1]; simp; omega, ?_, ?_, ?_, h4, ?_⟩
  · intro i b hb
    exact ⟨NIL, by rw [h1, List.getElem?_map, hb]; rfl⟩
  · intro i x hi hx
    rw [h1, List.getElem?_eq_none (by simpa using hi)] at hx
    cases hx
  · intro i x hx hp
    rw [h1, List.getElem?_map, Option.map_eq_some_iff] at hx
    obtain ⟨b, -, rfl⟩ := hx
    exact absurd rfl hp
  · rw [hpool, tableSum_eq]
    have : (((alphabet ft).map (leafNode ft)).zipIdx.map (fun c => c.1.freq.toNat)) =
        (((alphabet ft).map (leafNode ft)).zipIdx.map Prod.fst).map (fun x => x.freq.toNat) := by
      rw [List.map_map]; rfl
    rw [this, List.zipIdx_map_fst, List.map_map]
    exact congrArg List.sum (List.map_congr_left fun b _ => leafNode_freq ft b)

/-- A node index below the size of the arena is not changed by its 9-bit form. -/
theorem idx_toNat {n : Nat} (h : n < 511) : (BitVec.ofNat 9 n).toNat = n := by
  simp; omega

theorem idx_ne_nil {n : Nat} (h : n < 511) : BitVec.ofNat 9 n ≠ NIL := by
  intro e
  have := congrArg BitVec.toNat e
  rw [idx_toNat h] at this
  simp at this; omega

theorem idx_inj {m n : Nat} (hm : m < 511) (hn : n < 511) (h : BitVec.ofNat 9 m = BitVec.ofNat 9 n) : m = n := by
  have := congrArg BitVec.toNat h
  rwa [idx_toNat hm, idx_toNat hn] at this

theorem getElem?_lt {α : Type} {l : List α} {i : Nat} {x : α} (h : l[i]? = some x) : i < l.length :=
  (List.getElem?_eq_some_iff.1 h).1

/-- A join of two members of the pool keeps the forest (R95). -/
theorem join_forest {ft : Vector Count 256} {t : Tree} (f : Forest ft t) (hl : t.node.length < 511) {a b : Candidate}
    (ha : a ∈ t.pool) (hb : b ∈ t.pool) (hab : a.2 ≠ b.2) : Forest ft (t.join a b) := by
  obtain ⟨ha1, ha2⟩ := mem_pool.1 ha
  obtain ⟨hb1, hb2⟩ := mem_pool.1 hb
  obtain ⟨hn1, hn2, hn3⟩ := next_eq f.count hl
  have hla := getElem?_lt ha1
  have hlb := getElem?_lt hb1
  have hL : (alphabet ft).length ≤ t.node.length := by
    by_contra hc
    obtain ⟨q, hq⟩ := f.leafNodes t.node.length _ (List.getElem?_eq_getElem (not_le.1 hc))
    simp at hq
  have old : ∀ i x, t.node[i]? = some x → (t.join a b).node[i]? =
      some (if i = a.2 ∨ i = b.2 then { x with parent := t.next } else x) := by
    intro i x hx
    rw [join_node, if_pos (getElem?_lt hx), hx]
    rfl
  have new : (t.join a b).node[t.node.length]? = some (mergedNode a b) := by
    rw [join_node, if_neg (by omega), if_pos rfl]
  have sumEq : a.1.freq.toNat + b.1.freq.toNat +
      (((t.pool.filter (fun c => c.2 != a.2)).filter (fun c => c.2 != b.2)).map (fun c => c.1.freq.toNat)).sum =
      tableSum ft := by
    have p1 := pool_perm_cons (pool_rising t) ha
    have p2 := pool_perm_cons ((pool_rising t).filter (fun x => x.2 != a.2))
      (List.mem_filter.2 ⟨hb, by simpa using hab.symm⟩)
    rw [← f.sum, (p1.map _).sum_eq, List.map_cons, List.sum_cons, (p2.map _).sum_eq, List.map_cons, List.sum_cons]
    ring
  have hfreq : (mergedNode a b).freq.toNat = a.1.freq.toNat + b.1.freq.toNat := by
    have := tableSum_lt ft
    simp only [mergedNode, BitVec.toNat_add]
    omega
  refine ⟨join_count f.count hl, by simp; omega, ?_, ?_, ?_, f.leafIndex, ?_⟩
  · intro i c hc
    obtain ⟨q, hq⟩ := f.leafNodes i c hc
    rw [old i _ hq]
    split
    · exact ⟨t.next, rfl⟩
    · exact ⟨q, rfl⟩
  · intro i x hi hx
    have hlt := getElem?_lt hx
    rw [join_length] at hlt
    rcases Nat.lt_succ_iff_lt_or_eq.1 hlt with hlt | rfl
    · obtain ⟨y, hy⟩ : ∃ y, t.node[i]? = some y := ⟨_, List.getElem?_eq_getElem hlt⟩
      obtain ⟨hk, c, xc, hc, hfirst, hxc, hpc, rest⟩ := f.internal i y hi hy
      have hne : BitVec.ofNat 9 i ≠ NIL := idx_ne_nil (by omega)
      have notPool : ∀ (j : Nat) (z : Node), t.node[j]? = some z → z.parent = BitVec.ofNat 9 i → ¬ (j = a.2 ∨ j = b.2) := by
        rintro j z hz hp (rfl | rfl)
        · rw [ha1, Option.some.injEq] at hz; subst hz; exact hne (hp ▸ ha2)
        · rw [hb1, Option.some.injEq] at hz; subst hz; exact hne (hp ▸ hb2)
      rw [old i y hy, Option.some.injEq] at hx
      have hx' : x.kind = y.kind ∧ x.first = y.first ∧ x.second = y.second ∧ x.freq = y.freq := by
        subst hx; split <;> simp
      obtain ⟨e1, e2, e3, e4⟩ := hx'
      refine ⟨e1 ▸ hk, c, xc, hc, e2 ▸ hfirst, by rw [old c xc hxc, if_neg (notPool c xc hxc hpc)], hpc, ?_⟩
      rcases rest with ⟨r1, r2, r3⟩ | ⟨d, xd, hd, hdc, hsec, hxd, hpd, hf⟩
      · exact .inl ⟨e3 ▸ r1, r2, e4 ▸ r3⟩
      · exact .inr ⟨d, xd, hd, hdc, e3 ▸ hsec, by rw [old d xd hxd, if_neg (notPool d xd hxd hpd)], hpd, e4 ▸ hf⟩
    · rw [new, Option.some.injEq] at hx
      subst hx
      refine ⟨rfl, a.2, { a.1 with parent := t.next }, hla, rfl, ?_, hn1, .inr ⟨b.2, { b.1 with parent := t.next }, hlb,
        Ne.symm hab, rfl, ?_, hn1, hfreq⟩⟩
      · rw [old _ _ ha1, if_pos (.inl rfl)]
      · rw [old _ _ hb1, if_pos (.inr rfl)]
  · intro i x hx hp
    have hlt := getElem?_lt hx
    rw [join_length] at hlt
    rcases Nat.lt_succ_iff_lt_or_eq.1 hlt with hlt | rfl
    · obtain ⟨y, hy⟩ : ∃ y, t.node[i]? = some y := ⟨_, List.getElem?_eq_getElem hlt⟩
      rw [old i y hy, Option.some.injEq] at hx
      split at hx
      · rename_i hi
        subst hx
        refine ⟨t.node.length, mergedNode a b, hn1, hlt, hL, new, ?_⟩
        rcases hi with rfl | rfl
        · exact .inl rfl
        · exact .inr rfl
      · subst hx
        obtain ⟨p, z, h1, h2, h3, h4, h5⟩ := f.parent i y hy hp
        refine ⟨p, _, h1, h2, h3, old p z h4, ?_⟩
        split <;> exact h5
    · rw [new, Option.some.injEq] at hx
      subst hx
      exact absurd rfl hp
  · rw [pool_join f.count hl, List.map_append, List.sum_append]
    simp only [List.map_singleton, List.sum_singleton, hfreq]
    omega

theorem pool_join_length {t : Tree} (hc : t.ncount.toNat = t.node.length) (hl : t.node.length < 511) {a b : Candidate}
    (ha : a ∈ t.pool) (hb : b ∈ t.pool) (hab : a.2 ≠ b.2) : (t.join a b).pool.length + 1 = t.pool.length := by
  have p1 := (pool_perm_cons (pool_rising t) ha).length_eq
  have p2 := (pool_perm_cons ((pool_rising t).filter (fun x => x.2 != a.2))
      (List.mem_filter.2 ⟨hb, by simpa using hab.symm⟩)).length_eq
  rw [pool_join hc hl, List.length_append]
  simp only [List.length_cons, List.length_nil] at p1 p2 ⊢
  omega

/-- `k` merges of a pool of more than `k` nodes: the forest is kept, the pool is `k` smaller and the arena `k` larger
(R96). -/
theorem mergeTimes_forest {ft : Vector Count 256} (k : Nat) {t : Tree} (f : Forest ft t) (hp : k < t.pool.length)
    (hl : t.node.length + k ≤ 511) :
    Forest ft (mergeTimes k t) ∧ (mergeTimes k t).pool.length + k = t.pool.length ∧
      (mergeTimes k t).node.length = t.node.length + k := by
  induction k generalizing t with
  | zero => exact ⟨f, by simp [mergeTimes]⟩
  | succ k ih =>
    obtain ⟨a, b, -, -, ha, hb, hab, e⟩ := mergeOnce_spec (t := t) (by omega)
    have f' := join_forest f (by omega) ha hb hab
    have hlen := pool_join_length f.count (by omega) ha hb hab
    rw [mergeTimes, e]
    obtain ⟨h1, h2, h3⟩ := ih f' (by omega) (by simp; omega)
    exact ⟨h1, by omega, by rw [h3, join_length]; omega⟩

/-! ### The tree (R25) -/

/-- A tree that BUILD has made: a forest with one root, which is internal and the last slot (R25, R98, R99). -/
structure Built (ft : Vector Count 256) (t : Tree) : Prop extends Forest ft t where
  nonempty : alphabet ft ≠ []
  nodeCount : t.node.length = if (alphabet ft).length = 1 then 2 else 2 * (alphabet ft).length - 1
  rootIdx : t.root.toNat + 1 = t.node.length
  oneRoot : ∀ (i : Nat) (x : Node), t.node[i]? = some x → (x.parent = NIL ↔ i = t.root.toNat)

theorem forest_with_root {ft : Vector Count 256} {t : Tree} (f : Forest ft t) (r : NodeIdx) :
    Forest ft { t with root := r } :=
  ⟨f.count, f.size, f.leafNodes, f.internal, f.parent, f.leafIndex, f.sum⟩

/-- After the leaf scan every leaf is in the pool (R91). -/
theorem scanLeaves_pool_length (ft : Vector Count 256) : (scanLeaves ft 256).pool.length = (alphabet ft).length := by
  obtain ⟨h1, -, -⟩ := scanLeaves_all ft
  have : (scanLeaves ft 256).pool = (scanLeaves ft 256).node.zipIdx := by
    simp only [Tree.pool]
    refine List.filter_eq_self.2 fun c hc => ?_
    have := List.mem_zipIdx_iff_getElem?.1 hc
    rw [h1, List.getElem?_map, Option.map_eq_some_iff] at this
    obtain ⟨b, -, hb⟩ := this
    simp [← hb, leafNode]
  rw [this, List.length_zipIdx, h1, List.length_map]

/-- The tree of two or more symbols. -/
theorem mergeAll_built {ft : Vector Count 256} (h : 2 ≤ (alphabet ft).length) :
    Built ft (mergeAll (scanLeaves ft 256)) := by
  obtain ⟨h1, h2, -⟩ := scanLeaves_all ft
  have f := scanLeaves_forest ft
  have hle := alphabet_length_le ft
  have hlen : (scanLeaves ft 256).node.length = (alphabet ft).length := by rw [h1]; simp
  have hpool := scanLeaves_pool_length ft
  obtain ⟨g1, g2, g3⟩ := mergeTimes_forest ((scanLeaves ft 256).ncount.toNat - 1) f (by omega) (by omega)
  have hroot : ((((mergeTimes ((scanLeaves ft 256).ncount.toNat - 1) (scanLeaves ft 256)).ncount - 1).setWidth 9 : NodeIdx)).toNat
      + 1 = (mergeTimes ((scanLeaves ft 256).ncount.toNat - 1) (scanLeaves ft 256)).node.length := by
    have hc := g1.count
    have := g1.size
    simp only [BitVec.toNat_setWidth, BitVec.toNat_sub]
    have : (1 : BitVec 10).toNat = 1 := rfl
    omega
  refine { toForest := forest_with_root g1 _, nonempty := ?_, nodeCount := ?_, rootIdx := hroot, oneRoot := ?_ }
  · intro e; rw [e] at h; simp at h
  · show (mergeTimes _ _).node.length = _
    rw [g3, if_neg (by omega)]; omega
  · show ∀ (i : Nat) (x : Node), (mergeTimes _ _).node[i]? = some x → (x.parent = NIL ↔ i = BitVec.toNat (BitVec.setWidth 9 _))
    intro i x hx
    have last : ∃ y, (mergeTimes ((scanLeaves ft 256).ncount.toNat - 1) (scanLeaves ft 256)).node[
        (mergeTimes ((scanLeaves ft 256).ncount.toNat - 1) (scanLeaves ft 256)).node.length - 1]? = some y :=
      ⟨_, List.getElem?_eq_getElem (by omega)⟩
    obtain ⟨y, hy⟩ := last
    have hyNil : y.parent = NIL := by
      by_contra hne
      obtain ⟨p, z, -, hp, -, hz, -⟩ := g1.parent _ y hy hne
      have := getElem?_lt hz
      omega
    obtain ⟨c, hc⟩ := List.length_eq_one_iff.1 (show
      (mergeTimes ((scanLeaves ft 256).ncount.toNat - 1) (scanLeaves ft 256)).pool.length = 1 by omega)
    have hyc := mem_pool (c := (y, _)).2 ⟨hy, hyNil⟩
    rw [hc, List.mem_singleton] at hyc
    constructor
    · intro hpx
      have hxc := mem_pool (c := (x, i)).2 ⟨hx, hpx⟩
      rw [hc, List.mem_singleton, ← hyc, Prod.mk.injEq] at hxc
      omega
    · intro hi
      have : i = (mergeTimes ((scanLeaves ft 256).ncount.toNat - 1) (scanLeaves ft 256)).node.length - 1 := by omega
      subst this
      rw [hy, Option.some.injEq] at hx
      exact hx ▸ hyNil

/-- The tree of one symbol (R98). -/
theorem wrapSingle_eq {ft : Vector Count 256} {b : Byte} (h : alphabet ft = [b]) :
    wrapSingle (scanLeaves ft 256) =
      ⟨[{ leafNode ft b with parent := 1#9 }, syntheticRoot (leafNode ft b)], 2#10, 1#9, (scanLeaves ft 256).leaf⟩ := by
  obtain ⟨h1, h2, -⟩ := scanLeaves_all ft
  rw [h] at h1 h2
  have hc : (scanLeaves ft 256).ncount = 1#10 := BitVec.eq_of_toNat_eq (by simpa using h2)
  have : (scanLeaves ft 256) =
      ⟨[leafNode ft b], 1#10, (scanLeaves ft 256).root, (scanLeaves ft 256).leaf⟩ := by
    rw [← hc, ← List.map_singleton (f := leafNode ft), ← h1]
  rw [this]
  rfl

theorem wrapSingle_built {ft : Vector Count 256} {b : Byte} (h : alphabet ft = [b]) :
    Built ft (wrapSingle (scanLeaves ft 256)) := by
  rw [wrapSingle_eq h]
  obtain ⟨-, -, h4⟩ := scanLeaves_all ft
  have hb : (leafNode ft b).freq.toNat = tableSum ft := by
    have e : tableSum ft = (entry ft b).toNat := (tableSum_eq ft).trans (by rw [h]; simp)
    exact (leafNode_freq ft b).trans e.symm
  have n1 : (1#9 : NodeIdx) ≠ NIL := by decide
  refine ⟨⟨rfl, by simp, ?_, ?_, ?_, h4, ?_⟩, by simp [h], by simp [h], rfl, ?_⟩
  · intro i c hc
    rw [h, List.getElem?_singleton] at hc
    split at hc
    · rename_i hi
      subst hi
      simp only [Option.some.injEq] at hc
      subst hc
      exact ⟨1#9, rfl⟩
    · cases hc
  · intro i x hi hx
    rw [h] at hi
    have := getElem?_lt hx
    obtain rfl : i = 1 := by simp at this hi; omega
    simp only [List.getElem?_cons_succ, List.getElem?_cons_zero, Option.some.injEq] at hx
    subst hx
    exact ⟨rfl, 0, { leafNode ft b with parent := 1#9 }, by omega, rfl, rfl, rfl, .inl ⟨rfl, by simp [h], rfl⟩⟩
  · intro i x hx hp
    have hlt := getElem?_lt hx
    have : i = 0 ∨ i = 1 := by simp at hlt; omega
    rcases this with rfl | rfl
    · simp only [List.getElem?_cons_zero, Option.some.injEq] at hx
      subst hx
      exact ⟨1, syntheticRoot (leafNode ft b), rfl, by omega, by simp [h], rfl, .inl rfl⟩
    · simp only [List.getElem?_cons_succ, List.getElem?_cons_zero, Option.some.injEq] at hx
      subst hx
      exact absurd rfl hp
  · simp [Tree.pool, syntheticRoot, List.zipIdx, n1, hb]
  · intro i x hx
    have hlt := getElem?_lt hx
    have : i = 0 ∨ i = 1 := by simp at hlt; omega
    rcases this with rfl | rfl
    · simp only [List.getElem?_cons_zero, Option.some.injEq] at hx
      subst hx
      simp [n1]
    · simp only [List.getElem?_cons_succ, List.getElem?_cons_zero, Option.some.injEq] at hx
      subst hx
      simp [syntheticRoot]

/-- BUILD as one case distinction on the alphabet (R90, R92): no symbol is EmptyAlphabetError, one symbol the wrapped
leaf, more the merge; and the tree is a built tree. -/
theorem buildTree_cases (ft : Vector Count 256) :
    (alphabet ft = [] ∧ buildTree ft = .error .emptyAlphabet) ∨
    (∃ b, alphabet ft = [b] ∧ buildTree ft = .ok (wrapSingle (scanLeaves ft 256)) ∧
      Built ft (wrapSingle (scanLeaves ft 256))) ∨
    (2 ≤ (alphabet ft).length ∧ buildTree ft = .ok (mergeAll (scanLeaves ft 256)) ∧
      Built ft (mergeAll (scanLeaves ft 256))) := by
  obtain ⟨-, h2, -⟩ := scanLeaves_all ft
  have key : ∀ k : Nat, k < 1024 → ((scanLeaves ft 256).ncount = BitVec.ofNat 10 k ↔ (alphabet ft).length = k) := by
    intro k hk
    rw [← BitVec.toNat_inj, h2, BitVec.toNat_ofNat, Nat.mod_eq_of_lt hk]
  have k0 := key 0 (by omega)
  have k1 := key 1 (by omega)
  rcases h : alphabet ft with _ | ⟨b, _ | ⟨c, l⟩⟩
  · left
    refine ⟨rfl, ?_⟩
    simp only [buildTree, if_pos (k0.2 (by simp [h]))]
  · right; left
    refine ⟨b, rfl, ?_, wrapSingle_built h⟩
    simp only [buildTree]
    rw [if_neg (by rw [k0, h]; simp), if_pos (k1.2 (by simp [h]))]
  · right; right
    refine ⟨by simp, ?_, mergeAll_built (by simp [h])⟩
    simp only [buildTree]
    rw [if_neg (by rw [k0, h]; simp), if_neg (by rw [k1, h]; simp)]

/-- A tree BUILD makes is a built tree. -/
theorem buildTree_built {ft : Vector Count 256} {t : Tree} (h : buildTree ft = .ok t) : Built ft t := by
  rcases buildTree_cases ft with ⟨-, e⟩ | ⟨b, -, e, hb⟩ | ⟨-, e, hb⟩
  · rw [e] at h; cases h
  · rw [e] at h; cases h; exact hb
  · rw [e] at h; cases h; exact hb

/-- BUILD succeeds exactly when some entry is not zero (R92). -/
theorem buildTree_ok {ft : Vector Count 256} (h : alphabet ft ≠ []) : ∃ t, buildTree ft = .ok t := by
  rcases buildTree_cases ft with ⟨e, -⟩ | ⟨b, -, e, -⟩ | ⟨-, e, -⟩
  · exact absurd e h
  · exact ⟨_, e⟩
  · exact ⟨_, e⟩

theorem buildTree_empty {ft : Vector Count 256} (h : alphabet ft = []) : buildTree ft = .error .emptyAlphabet := by
  rcases buildTree_cases ft with ⟨-, e⟩ | ⟨b, e, -⟩ | ⟨e, -⟩
  · exact e
  · rw [h] at e; cases e
  · rw [h] at e; simp at e

/-- BUILD on the state sets the tree and a phase. -/
theorem build_eq (s : State) :
    build s = (buildTree s.ft).map (fun t => setPhase (buildPhase s.ft) { s with tree := t }) := by
  unfold build; cases buildTree s.ft <;> rfl

end Sys2Proof.Machine
end

