-- ==== Sys2Proof/Laws/Paths.lean ====
section
/-! SUPPORT. Paths in a built tree: from a node to the root (APPENDPATH), from the root to a node (WALK), and the codes
between them. -/

namespace Sys2Proof.Machine

/-- The node that a walk from `n` reaches by consuming stored bits: `sel <- NOT bit` at each (R134). -/
def descend (t : Tree) : NodeIdx → List Bool → NodeIdx
  | n, [] => n
  | n, b :: bs => descend t (selectChild t n (!b)) bs

theorem descend_append (t : Tree) (n : NodeIdx) (p q : List Bool) :
    descend t n (p ++ q) = descend t (descend t n p) q := by
  induction p generalizing n with
  | nil => rfl
  | cons b p ih => exact ih _

variable {ft : Vector Count 256} {t : Tree}

namespace Built

theorem len_le (h : Built ft t) : t.node.length ≤ 511 := h.size

theorem alphabet_pos (h : Built ft t) : 0 < (alphabet ft).length := List.length_pos_iff.2 h.nonempty

theorem alphabet_lt (h : Built ft t) : (alphabet ft).length < t.node.length := by
  have h1 := h.nodeCount
  have h2 := h.alphabet_pos
  split at h1 <;> omega

theorem root_lt (h : Built ft t) : t.root.toNat < t.node.length := by have := h.rootIdx; omega

theorem root_eq (_h : Built ft t) : t.root = BitVec.ofNat 9 t.root.toNat := by simp

/-- The root is internal: it is the last slot. -/
theorem root_ge (h : Built ft t) : (alphabet ft).length ≤ t.root.toNat := by
  have := h.rootIdx; have := h.alphabet_lt; omega

theorem node_of_lt (_h : Built ft t) {i : Nat} (hi : i < t.node.length) : ∃ x, t.node[i]? = some x :=
  ⟨_, List.getElem?_eq_getElem hi⟩

theorem leaf_kind (h : Built ft t) {i : Nat} (hi : i < (alphabet ft).length) {x : Node} (hx : t.node[i]? = some x) :
    x.kind = .leaf ∧ (alphabet ft)[i]? = some x.sym ∧ x.first = NIL ∧ x.second = NIL ∧
      x.freq = (leafNode ft x.sym).freq := by
  obtain ⟨q, hq⟩ := h.leafNodes i _ (List.getElem?_eq_getElem hi)
  rw [hq, Option.some.injEq] at hx
  subst hx
  exact ⟨rfl, List.getElem?_eq_getElem hi, rfl, rfl, rfl⟩

theorem kind_leaf_iff (h : Built ft t) {i : Nat} {x : Node} (hx : t.node[i]? = some x) :
    x.kind = .leaf ↔ i < (alphabet ft).length := by
  constructor
  · intro hk
    by_contra hi
    rw [(h.internal i x (not_lt.1 hi) hx).1] at hk
    cases hk
  · intro hi; exact (h.leaf_kind hi hx).1

/-- The two facts about a node that is not the root: its parent is a later internal node, and walking from there by the
bit APPENDPATH records leads back to it. -/
theorem parent_step (h : Built ft t) {i : Nat} {x : Node} (hx : t.node[i]? = some x) (hi : i ≠ t.root.toNat) :
    ∃ p, x.parent = BitVec.ofNat 9 p ∧ i < p ∧ (alphabet ft).length ≤ p ∧ p < t.node.length ∧ x.parent ≠ NIL ∧
      selectChild t (BitVec.ofNat 9 p) (!childBit t.node (BitVec.ofNat 9 p) (BitVec.ofNat 9 i)) = BitVec.ofNat 9 i := by
  have hp : x.parent ≠ NIL := fun e => hi ((h.oneRoot i x hx).1 e)
  obtain ⟨p, y, h1, h2, h3, h4, h5⟩ := h.parent i x hx hp
  have hlt := getElem?_lt h4
  have hp' : (BitVec.ofNat 9 p).toNat = p := idx_toNat (by have := h.len_le; omega)
  refine ⟨p, h1, h2, h3, hlt, hp, ?_⟩
  simp only [selectChild, childBit, hp', h4]
  by_cases hs : y.second = BitVec.ofNat 9 i
  · simp [hs]
  · rcases h5 with h5 | h5
    · simp [hs, h5]
    · exact absurd h5 hs

/-- The bits of the walk from a node that is not the root: the bit of the first step, then those of the parent. -/
theorem pathBits_succ (h : Built ft t) {i : Nat} {x : Node} (hx : t.node[i]? = some x) (hi : i ≠ t.root.toNat)
    (fuel : Nat) :
    pathBits t.node (fuel + 1) (BitVec.ofNat 9 i) =
      childBit t.node x.parent (BitVec.ofNat 9 i) :: pathBits t.node fuel x.parent := by
  have hlt := getElem?_lt hx
  have e : (BitVec.ofNat 9 i).toNat = i := idx_toNat (by have := h.len_le; omega)
  obtain ⟨p, -, -, -, -, hp, -⟩ := h.parent_step hx hi
  simp only [pathBits, e, hx, if_neg hp]

theorem pathBits_root (h : Built ft t) (fuel : Nat) : pathBits t.node fuel t.root = [] := by
  cases fuel with
  | zero => rfl
  | succ fuel =>
    obtain ⟨x, hx⟩ := h.node_of_lt h.root_lt
    have := (h.oneRoot _ x hx).2 rfl
    simp only [pathBits, hx, if_pos this]

/-- Enough fuel is as good as any other. -/
theorem pathBits_fuel (h : Built ft t) {f g : Nat} {i : Nat} (hi : i < t.node.length) (hf : t.node.length ≤ i + f)
    (hg : t.node.length ≤ i + g) :
    pathBits t.node f (BitVec.ofNat 9 i) = pathBits t.node g (BitVec.ofNat 9 i) := by
  induction f generalizing g i with
  | zero => omega
  | succ f ih =>
    cases g with
    | zero => omega
    | succ g =>
      by_cases hr : i = t.root.toNat
      · rw [hr, ← h.root_eq, h.pathBits_root, h.pathBits_root]
      · obtain ⟨x, hx⟩ := h.node_of_lt hi
        obtain ⟨p, hp, hip, -, hpl, -, -⟩ := h.parent_step hx hr
        rw [h.pathBits_succ hx hr, h.pathBits_succ hx hr, hp, ih (g := g) hpl (by omega) (by omega)]

end Built

/-- The stored bits of a node's path, from the root down. -/
def down (t : Tree) (i : Nat) : List Bool := (pathBits t.node NNODE (BitVec.ofNat 9 i)).reverse

namespace Built

theorem down_root (h : Built ft t) : down t t.root.toNat = [] := by
  rw [down, ← h.root_eq, h.pathBits_root]; rfl

/-- The path of a node is that of its parent and one bit more. -/
theorem down_step (h : Built ft t) {i : Nat} {x : Node} (hx : t.node[i]? = some x) (hi : i ≠ t.root.toNat) :
    ∃ p, x.parent = BitVec.ofNat 9 p ∧ i < p ∧ (alphabet ft).length ≤ p ∧ p < t.node.length ∧
      down t i = down t p ++ [childBit t.node (BitVec.ofNat 9 p) (BitVec.ofNat 9 i)] ∧
      selectChild t (BitVec.ofNat 9 p) (!childBit t.node (BitVec.ofNat 9 p) (BitVec.ofNat 9 i)) = BitVec.ofNat 9 i := by
  obtain ⟨p, hp, hip, hL, hpl, -, hs⟩ := h.parent_step hx hi
  refine ⟨p, hp, hip, hL, hpl, ?_, hs⟩
  have hlen := h.len_le
  have hil := getElem?_lt hx
  unfold down
  rw [show NNODE = 510 + 1 from rfl, h.pathBits_succ hx hi, hp, List.reverse_cons,
    h.pathBits_fuel (f := 510) (g := 510 + 1) hpl (by omega) (by omega)]

/-- The walk from the root by a node's stored bits leads to it, through internal nodes. -/
theorem descend_down (h : Built ft t) {i : Nat} (hi : i < t.node.length) :
    descend t t.root (down t i) = BitVec.ofNat 9 i ∧
    ∀ p q, down t i = p ++ q → q ≠ [] →
      ∃ j, (alphabet ft).length ≤ j ∧ j < t.node.length ∧ descend t t.root p = BitVec.ofNat 9 j ∧ down t j = p := by
  induction hn : t.node.length - i using Nat.strong_induction_on generalizing i with
  | _ n ih =>
    by_cases hr : i = t.root.toNat
    · subst hr
      rw [h.down_root]
      refine ⟨h.root_eq, fun p q e hq => ?_⟩
      rw [eq_comm, List.append_eq_nil_iff] at e
      exact absurd e.2 hq
    · obtain ⟨x, hx⟩ := h.node_of_lt hi
      obtain ⟨p, hp, hip, hL, hpl, hdown, hsel⟩ := h.down_step hx hr
      obtain ⟨ih1, ih2⟩ := ih (t.node.length - p) (by omega) hpl rfl
      refine ⟨?_, fun u v e hv => ?_⟩
      · rw [hdown, descend_append, ih1]
        exact hsel
      · rw [hdown] at e
        rcases List.eq_nil_or_concat v with rfl | ⟨w, b, rfl⟩
        · exact absurd rfl hv
        · have e' : down t p = u ++ w := by
            have := congrArg List.dropLast e
            simpa [← List.append_assoc] using this
          by_cases hw : w = []
          · subst hw
            rw [List.append_nil] at e'
            exact ⟨p, hL, hpl, e' ▸ ih1, e'⟩
          · exact ih2 u w e' hw

/-- A node's path determines it. -/
theorem down_inj (h : Built ft t) {i j : Nat} (hi : i < t.node.length) (hj : j < t.node.length)
    (e : down t i = down t j) : i = j := by
  have h1 := (h.descend_down hi).1
  have h2 := (h.descend_down hj).1
  have := h.len_le
  exact idx_inj (by omega) (by omega) (h1.symm.trans (e ▸ h2))

/-- The selected child of an internal node: it exists, lies below its parent and has one bit more on its path, or the
node is the synthetic root and the bit a 1. -/
theorem select_cases (h : Built ft t) {i : Nat} (hi : (alphabet ft).length ≤ i) (hl : i < t.node.length) (b : Bool) :
    (∃ c, c < i ∧ selectChild t (BitVec.ofNat 9 i) (!b) = BitVec.ofNat 9 c ∧ down t c = down t i ++ [b]) ∨
    (selectChild t (BitVec.ofNat 9 i) (!b) = NIL ∧ (alphabet ft).length = 1 ∧ i = t.root.toNat ∧ b = true) := by
  obtain ⟨x, hx⟩ := h.node_of_lt hl
  have hlen := h.len_le
  have hin : (BitVec.ofNat 9 i).toNat = i := idx_toNat (by omega)
  obtain ⟨-, a, xa, ha, hfirst, hxa, hpa, rest⟩ := h.internal i x hi hx
  -- a child of `i` has the path of `i` and the bit recorded for it
  have step : ∀ c xc, c < i → t.node[c]? = some xc → xc.parent = BitVec.ofNat 9 i →
      down t c = down t i ++ [childBit t.node (BitVec.ofNat 9 i) (BitVec.ofNat 9 c)] := by
    intro c xc hc hxc hpc
    have hne : c ≠ t.root.toNat := by have := h.rootIdx; omega
    obtain ⟨p, hp, -, -, hpl, hd, -⟩ := h.down_step hxc hne
    have : p = i := idx_inj (by omega) (by omega) (hp.symm.trans hpc)
    rw [this] at hd
    exact hd
  have bit : ∀ c, childBit t.node (BitVec.ofNat 9 i) (BitVec.ofNat 9 c) = (x.second == BitVec.ofNat 9 c) := by
    intro c; simp only [childBit, hin, hx]
  cases b with
  | false =>
    left
    refine ⟨a, ha, by simp only [selectChild, hin, hx]; simpa using hfirst, ?_⟩
    rw [step a xa ha hxa hpa, bit]
    congr 2
    rcases rest with ⟨hs, -, -⟩ | ⟨c, xc, hc, hca, hsec, -, -, -⟩
    · rw [hs]; simpa using (idx_ne_nil (show a < 511 by omega)).symm
    · rw [hsec]
      simp only [beq_eq_false_iff_ne, ne_eq]
      exact fun e => hca (idx_inj (by omega) (by omega) e)
  | true =>
    rcases rest with ⟨hs, h1, -⟩ | ⟨c, xc, hc, hca, hsec, hxc, hpc, -⟩
    · right
      refine ⟨by simp only [selectChild, hin, hx]; simpa using hs, h1, ?_, rfl⟩
      have hnc := h.nodeCount
      have hri := h.rootIdx
      rw [if_pos h1] at hnc
      omega
    · left
      refine ⟨c, hc, by simp only [selectChild, hin, hx]; simpa using hsec, ?_⟩
      rw [step c xc hc hxc hpc, bit, hsec]
      simp

/-- No path is longer than the number of internal nodes above the node. -/
theorem down_length (h : Built ft t) {i : Nat} (hi : i < t.node.length) :
    (down t i).length ≤ t.node.length - 1 - i ∧
    (i < (alphabet ft).length → (down t i).length ≤ t.node.length - (alphabet ft).length) := by
  induction hn : t.node.length - i using Nat.strong_induction_on generalizing i with
  | _ n ih =>
    by_cases hr : i = t.root.toNat
    · subst hr
      rw [h.down_root]; simp
    · obtain ⟨x, hx⟩ := h.node_of_lt hi
      obtain ⟨p, hp, hip, hL, hpl, hdown, -⟩ := h.down_step hx hr
      obtain ⟨ih1, -⟩ := ih (t.node.length - p) (by omega) hpl rfl
      rw [hdown, List.length_append, List.length_singleton]
      constructor
      · omega
      · intro _; omega

/-- The parents lead from a node to the root, in as many steps as its path has bits (R25 (e)). -/
theorem climb_down (h : Built ft t) {i : Nat} (hi : i < t.node.length) :
    climb t (down t i).length (BitVec.ofNat 9 i) = t.root := by
  induction hn : t.node.length - i using Nat.strong_induction_on generalizing i with
  | _ n ih =>
    by_cases hr : i = t.root.toNat
    · subst hr
      rw [h.down_root]
      exact h.root_eq.symm
    · obtain ⟨x, hx⟩ := h.node_of_lt hi
      obtain ⟨p, hp, hip, hL, hpl, hdown, -⟩ := h.down_step hx hr
      have hin : (BitVec.ofNat 9 i).toNat = i := idx_toNat (by have := h.len_le; omega)
      rw [hdown, List.length_append, List.length_singleton]
      simp only [climb, hin, hx, hp]
      exact ih (t.node.length - p) (by omega) hpl rfl

/-! ### Codes -/

theorem leaf_entry (h : Built ft t) {b : Byte} (hb : b ∈ alphabet ft) :
    entry t.leaf b = BitVec.ofNat 9 ((alphabet ft).idxOf b) ∧ (alphabet ft).idxOf b < (alphabet ft).length := by
  rw [h.leafIndex b, if_pos hb]
  exact ⟨rfl, List.idxOf_lt_length_of_mem hb⟩

theorem leaf_entry_nil (h : Built ft t) {b : Byte} : entry t.leaf b = NIL ↔ b ∉ alphabet ft := by
  constructor
  · intro e hb
    obtain ⟨e', hlt⟩ := h.leaf_entry hb
    have := h.alphabet_lt
    have := h.len_le
    exact idx_ne_nil (by omega) (e'.symm.trans e)
  · intro hb
    rw [h.leafIndex b, if_neg hb]

/-- The stored code of a symbol is the path of its leaf. -/
theorem storedCode_eq (h : Built ft t) {b : Byte} (hb : b ∈ alphabet ft) :
    storedCode t b = down t ((alphabet ft).idxOf b) := by
  rw [storedCode, (h.leaf_entry hb).1]; rfl

theorem leafSymbol_leaf (h : Built ft t) {b : Byte} (hb : b ∈ alphabet ft) :
    leafSymbol t (BitVec.ofNat 9 ((alphabet ft).idxOf b)) = some b := by
  have hlt := (h.leaf_entry hb).2
  have h1 := h.alphabet_lt
  have h2 := h.len_le
  obtain ⟨x, hx⟩ := h.node_of_lt (hlt.trans h1)
  obtain ⟨hk, hs, -⟩ := h.leaf_kind hlt hx
  have : x.sym = b := by
    rw [List.getElem?_eq_getElem hlt, Option.some.injEq, List.getElem_idxOf] at hs
    exact hs.symm
  simp only [leafSymbol, idx_toNat (show (alphabet ft).idxOf b < 511 by omega), hx, hk, if_true, this]

theorem leafSymbol_internal (h : Built ft t) {i : Nat} (hi : (alphabet ft).length ≤ i) (hl : i < t.node.length) :
    leafSymbol t (BitVec.ofNat 9 i) = none := by
  obtain ⟨x, hx⟩ := h.node_of_lt hl
  have := (h.internal i x hi hx).1
  simp [leafSymbol, idx_toNat (show i < 511 by have := h.len_le; omega), hx, this]

/-- Every internal node has a leaf below it: its path is a proper beginning of a code. -/
theorem down_extends (h : Built ft t) {i : Nat} (hi : (alphabet ft).length ≤ i) (hl : i < t.node.length) :
    ∃ b ∈ alphabet ft, ∃ u, u ≠ [] ∧ storedCode t b = down t i ++ u := by
  induction i using Nat.strong_induction_on with
  | _ i ih =>
    rcases h.select_cases hi hl false with ⟨c, hc, -, hd⟩ | ⟨-, -, -, e⟩
    · by_cases hcl : c < (alphabet ft).length
      · refine ⟨(alphabet ft)[c], List.getElem_mem hcl, [false], by simp, ?_⟩
        rw [h.storedCode_eq (List.getElem_mem hcl), (alphabet_nodup ft).idxOf_getElem]
        exact hd
      · obtain ⟨b, hb, u, -, hu⟩ := ih c hc (not_lt.1 hcl) (by omega)
        exact ⟨b, hb, [false] ++ u, by simp, by rw [hu, hd, List.append_assoc]⟩
    · cases e

/-- How a list of bits starts, seen from an internal node: it completes a code, or it ends inside one, or the tree has
one symbol and a 1 selects the missing child (R137, R138). -/
theorem bits_cases (h : Built ft t) (l : List Bool) {i : Nat} (hi : (alphabet ft).length ≤ i) (hl : i < t.node.length) :
    (∃ b ∈ alphabet ft, ∃ u v, u ≠ [] ∧ storedCode t b = down t i ++ u ∧ l = u ++ v) ∨
    (∃ b ∈ alphabet ft, ∃ u, u ≠ [] ∧ storedCode t b = down t i ++ l ++ u) ∨
    ((alphabet ft).length = 1 ∧ i = t.root.toNat ∧ ∃ v, l = true :: v) := by
  induction l generalizing i with
  | nil =>
    obtain ⟨b, hb, u, hu, e⟩ := h.down_extends hi hl
    exact .inr (.inl ⟨b, hb, u, hu, by simpa using e⟩)
  | cons x l ih =>
    rcases h.select_cases hi hl x with ⟨c, hc, -, hd⟩ | ⟨-, h1, h2, rfl⟩
    · by_cases hcl : c < (alphabet ft).length
      · left
        refine ⟨(alphabet ft)[c], List.getElem_mem hcl, [x], l, by simp, ?_, by simp⟩
        rw [h.storedCode_eq (List.getElem_mem hcl), (alphabet_nodup ft).idxOf_getElem]
        exact hd
      · rcases ih (not_lt.1 hcl) (by omega) with ⟨b, hb, u, v, -, e1, e2⟩ | ⟨b, hb, u, hu, e⟩ | ⟨h1, h2, v, hv⟩
        · exact .inl ⟨b, hb, x :: u, v, by simp, by rw [e1, hd]; simp, by rw [e2]; rfl⟩
        · exact .inr (.inl ⟨b, hb, u, hu, by rw [e, hd]; simp⟩)
        · exfalso
          have := h.rootIdx; omega
    · exact .inr (.inr ⟨h1, h2, l, rfl⟩)

/-- A code is not empty. -/
theorem storedCode_ne_nil (h : Built ft t) {b : Byte} (hb : b ∈ alphabet ft) : storedCode t b ≠ [] := by
  have hlt := (h.leaf_entry hb).2
  have h1 := h.alphabet_lt
  have h2 := h.root_ge
  obtain ⟨x, hx⟩ := h.node_of_lt (hlt.trans h1)
  obtain ⟨p, -, -, -, -, hd, -⟩ := h.down_step hx (by omega)
  rw [h.storedCode_eq hb, hd]
  simp

/-- No proper beginning of a code is the path of a leaf (R100). -/
theorem storedCode_split (h : Built ft t) {b : Byte} (hb : b ∈ alphabet ft) {p q : List Bool}
    (e : storedCode t b = p ++ q) (hq : q ≠ []) :
    ∃ j, (alphabet ft).length ≤ j ∧ j < t.node.length ∧ descend t t.root p = BitVec.ofNat 9 j ∧ down t j = p := by
  have hlt := (h.leaf_entry hb).2
  have h1 := h.alphabet_lt
  rw [h.storedCode_eq hb] at e
  exact (h.descend_down (hlt.trans h1)).2 p q e hq

/-- A code that begins with another is that other (R100). -/
theorem storedCode_inj_of_append (h : Built ft t) {b c : Byte} (hb : b ∈ alphabet ft) (hc : c ∈ alphabet ft)
    {u : List Bool} (e : storedCode t c = storedCode t b ++ u) : b = c ∧ u = [] := by
  have hlb := (h.leaf_entry hb).2
  have hlc := (h.leaf_entry hc).2
  have h1 := h.alphabet_lt
  by_cases hu : u = []
  · refine ⟨?_, hu⟩
    rw [hu, List.append_nil, h.storedCode_eq hb, h.storedCode_eq hc] at e
    have := h.down_inj (hlc.trans h1) (hlb.trans h1) e
    exact ((List.idxOf_inj hc).1 this).symm
  · obtain ⟨j, hj, hjl, -, hd⟩ := h.storedCode_split hc e hu
    rw [h.storedCode_eq hb] at hd
    have := h.down_inj hjl (hlb.trans h1) hd
    omega

theorem storedCode_length (h : Built ft t) {b : Byte} (hb : b ∈ alphabet ft) :
    1 ≤ (storedCode t b).length ∧ (storedCode t b).length ≤ t.node.length - (alphabet ft).length ∧
      (storedCode t b).length ≤ 255 := by
  have hlb := (h.leaf_entry hb).2
  have h1 := h.alphabet_lt
  have h2 := (h.down_length (hlb.trans h1)).2 hlb
  have h3 := List.length_pos_iff.2 (h.storedCode_ne_nil hb)
  have h4 := h.nodeCount
  have h5 := alphabet_length_le ft
  rw [← h.storedCode_eq hb] at h2
  refine ⟨h3, h2, ?_⟩
  split at h4 <;> omega

end Built

end Sys2Proof.Machine
end

