-- ==== Sys2Proof/Laws/State.lean ====
section
/-! SUPPORT. One lemma per field of State per named update, true by rfl. -/

namespace Sys2Proof.Machine

variable (s : State)

/-! ### setErr -/

@[simp] theorem setErr_params (e : BitVec 8) : (setErr e s).params = s.params := rfl
@[simp] theorem setErr_ft (e : BitVec 8) : (setErr e s).ft = s.ft := rfl
@[simp] theorem setErr_ilen (e : BitVec 8) : (setErr e s).ilen = s.ilen := rfl
@[simp] theorem setErr_olen (e : BitVec 8) : (setErr e s).olen = s.olen := rfl
@[simp] theorem setErr_bitcnt (e : BitVec 8) : (setErr e s).bitcnt = s.bitcnt := rfl
@[simp] theorem setErr_err (e : BitVec 8) : (setErr e s).err = e := rfl
@[simp] theorem setErr_inMem (e : BitVec 8) : (setErr e s).inMem = s.inMem := rfl
@[simp] theorem setErr_out (e : BitVec 8) : (setErr e s).out = s.out := rfl
@[simp] theorem setErr_tree (e : BitVec 8) : (setErr e s).tree = s.tree := rfl
@[simp] theorem setErr_phase (e : BitVec 8) : (setErr e s).phase = s.phase := rfl
@[simp] theorem setErr_bitcur (e : BitVec 8) : (setErr e s).bitcur = s.bitcur := rfl
@[simp] theorem setErr_sidx (e : BitVec 8) : (setErr e s).sidx = s.sidx := rfl
@[simp] theorem setErr_opos (e : BitVec 8) : (setErr e s).opos = s.opos := rfl
@[simp] theorem setErr_cap (e : BitVec 8) : (setErr e s).cap = s.cap := rfl
@[simp] theorem setErr_cur (e : BitVec 8) : (setErr e s).cur = s.cur := rfl
@[simp] theorem setErr_inSeed (e : BitVec 8) : (setErr e s).inSeed = s.inSeed := rfl
@[simp] theorem setErr_outSeed (e : BitVec 8) : (setErr e s).outSeed = s.outSeed := rfl
@[simp] theorem setErr_host (e : BitVec 8) : (setErr e s).host = s.host := rfl

/-! ### setPhase -/

@[simp] theorem setPhase_params (p : Phase) : (setPhase p s).params = s.params := rfl
@[simp] theorem setPhase_ft (p : Phase) : (setPhase p s).ft = s.ft := rfl
@[simp] theorem setPhase_ilen (p : Phase) : (setPhase p s).ilen = s.ilen := rfl
@[simp] theorem setPhase_olen (p : Phase) : (setPhase p s).olen = s.olen := rfl
@[simp] theorem setPhase_bitcnt (p : Phase) : (setPhase p s).bitcnt = s.bitcnt := rfl
@[simp] theorem setPhase_err (p : Phase) : (setPhase p s).err = s.err := rfl
@[simp] theorem setPhase_inMem (p : Phase) : (setPhase p s).inMem = s.inMem := rfl
@[simp] theorem setPhase_out (p : Phase) : (setPhase p s).out = s.out := rfl
@[simp] theorem setPhase_tree (p : Phase) : (setPhase p s).tree = s.tree := rfl
@[simp] theorem setPhase_phase (p : Phase) : (setPhase p s).phase = p := rfl
@[simp] theorem setPhase_bitcur (p : Phase) : (setPhase p s).bitcur = s.bitcur := rfl
@[simp] theorem setPhase_sidx (p : Phase) : (setPhase p s).sidx = s.sidx := rfl
@[simp] theorem setPhase_opos (p : Phase) : (setPhase p s).opos = s.opos := rfl
@[simp] theorem setPhase_cap (p : Phase) : (setPhase p s).cap = s.cap := rfl
@[simp] theorem setPhase_cur (p : Phase) : (setPhase p s).cur = s.cur := rfl
@[simp] theorem setPhase_inSeed (p : Phase) : (setPhase p s).inSeed = s.inSeed := rfl
@[simp] theorem setPhase_outSeed (p : Phase) : (setPhase p s).outSeed = s.outSeed := rfl
@[simp] theorem setPhase_host (p : Phase) : (setPhase p s).host = s.host := rfl

/-! ### release -/

@[simp] theorem release_params : (release s).params = s.params := rfl
@[simp] theorem release_ft : (release s).ft = s.ft := rfl
@[simp] theorem release_ilen : (release s).ilen = s.ilen := rfl
@[simp] theorem release_olen : (release s).olen = s.olen := rfl
@[simp] theorem release_bitcnt : (release s).bitcnt = s.bitcnt := rfl
@[simp] theorem release_err : (release s).err = s.err := rfl
@[simp] theorem release_inMem : (release s).inMem = s.inMem := rfl
@[simp] theorem release_out : (release s).out = s.out := rfl
@[simp] theorem release_tree : (release s).tree = Tree.released := rfl
@[simp] theorem release_phase : (release s).phase = s.phase := rfl
@[simp] theorem release_bitcur : (release s).bitcur = s.bitcur := rfl
@[simp] theorem release_sidx : (release s).sidx = s.sidx := rfl
@[simp] theorem release_opos : (release s).opos = s.opos := rfl
@[simp] theorem release_cap : (release s).cap = s.cap := rfl
@[simp] theorem release_cur : (release s).cur = s.cur := rfl
@[simp] theorem release_inSeed : (release s).inSeed = s.inSeed := rfl
@[simp] theorem release_outSeed : (release s).outSeed = s.outSeed := rfl
@[simp] theorem release_host : (release s).host = s.host := rfl

/-! ### writeOut -/

@[simp] theorem writeOut_params (a : Nat) (v : Byte) : (writeOut a v s).params = s.params := rfl
@[simp] theorem writeOut_ft (a : Nat) (v : Byte) : (writeOut a v s).ft = s.ft := rfl
@[simp] theorem writeOut_ilen (a : Nat) (v : Byte) : (writeOut a v s).ilen = s.ilen := rfl
@[simp] theorem writeOut_olen (a : Nat) (v : Byte) : (writeOut a v s).olen = s.olen := rfl
@[simp] theorem writeOut_bitcnt (a : Nat) (v : Byte) : (writeOut a v s).bitcnt = s.bitcnt := rfl
@[simp] theorem writeOut_err (a : Nat) (v : Byte) : (writeOut a v s).err = s.err := rfl
@[simp] theorem writeOut_inMem (a : Nat) (v : Byte) : (writeOut a v s).inMem = s.inMem := rfl
@[simp] theorem writeOut_out (a : Nat) (v : Byte) : (writeOut a v s).out = Memory.store s.out a v := rfl
@[simp] theorem writeOut_tree (a : Nat) (v : Byte) : (writeOut a v s).tree = s.tree := rfl
@[simp] theorem writeOut_phase (a : Nat) (v : Byte) : (writeOut a v s).phase = s.phase := rfl
@[simp] theorem writeOut_bitcur (a : Nat) (v : Byte) : (writeOut a v s).bitcur = s.bitcur := rfl
@[simp] theorem writeOut_sidx (a : Nat) (v : Byte) : (writeOut a v s).sidx = s.sidx := rfl
@[simp] theorem writeOut_opos (a : Nat) (v : Byte) : (writeOut a v s).opos = s.opos := rfl
@[simp] theorem writeOut_cap (a : Nat) (v : Byte) : (writeOut a v s).cap = s.cap := rfl
@[simp] theorem writeOut_cur (a : Nat) (v : Byte) : (writeOut a v s).cur = s.cur := rfl
@[simp] theorem writeOut_inSeed (a : Nat) (v : Byte) : (writeOut a v s).inSeed = s.inSeed := rfl
@[simp] theorem writeOut_outSeed (a : Nat) (v : Byte) : (writeOut a v s).outSeed = s.outSeed := rfl
@[simp] theorem writeOut_host (a : Nat) (v : Byte) : (writeOut a v s).host = s.host := rfl

/-! ### writeIn -/

@[simp] theorem writeIn_params (a : Nat) (v : Byte) : (writeIn a v s).params = s.params := rfl
@[simp] theorem writeIn_ft (a : Nat) (v : Byte) : (writeIn a v s).ft = s.ft := rfl
@[simp] theorem writeIn_ilen (a : Nat) (v : Byte) : (writeIn a v s).ilen = s.ilen := rfl
@[simp] theorem writeIn_olen (a : Nat) (v : Byte) : (writeIn a v s).olen = s.olen := rfl
@[simp] theorem writeIn_bitcnt (a : Nat) (v : Byte) : (writeIn a v s).bitcnt = s.bitcnt := rfl
@[simp] theorem writeIn_err (a : Nat) (v : Byte) : (writeIn a v s).err = s.err := rfl
@[simp] theorem writeIn_inMem (a : Nat) (v : Byte) : (writeIn a v s).inMem = Memory.store s.inMem a v := rfl
@[simp] theorem writeIn_out (a : Nat) (v : Byte) : (writeIn a v s).out = s.out := rfl
@[simp] theorem writeIn_tree (a : Nat) (v : Byte) : (writeIn a v s).tree = s.tree := rfl
@[simp] theorem writeIn_phase (a : Nat) (v : Byte) : (writeIn a v s).phase = s.phase := rfl
@[simp] theorem writeIn_bitcur (a : Nat) (v : Byte) : (writeIn a v s).bitcur = s.bitcur := rfl
@[simp] theorem writeIn_sidx (a : Nat) (v : Byte) : (writeIn a v s).sidx = s.sidx := rfl
@[simp] theorem writeIn_opos (a : Nat) (v : Byte) : (writeIn a v s).opos = s.opos := rfl
@[simp] theorem writeIn_cap (a : Nat) (v : Byte) : (writeIn a v s).cap = s.cap := rfl
@[simp] theorem writeIn_cur (a : Nat) (v : Byte) : (writeIn a v s).cur = s.cur := rfl
@[simp] theorem writeIn_inSeed (a : Nat) (v : Byte) : (writeIn a v s).inSeed = s.inSeed := rfl
@[simp] theorem writeIn_outSeed (a : Nat) (v : Byte) : (writeIn a v s).outSeed = s.outSeed := rfl
@[simp] theorem writeIn_host (a : Nat) (v : Byte) : (writeIn a v s).host = s.host := rfl

/-! ### setResult -/

@[simp] theorem setResult_params (n b : Word) : (setResult n b s).params = s.params := rfl
@[simp] theorem setResult_ft (n b : Word) : (setResult n b s).ft = s.ft := rfl
@[simp] theorem setResult_ilen (n b : Word) : (setResult n b s).ilen = s.ilen := rfl
@[simp] theorem setResult_olen (n b : Word) : (setResult n b s).olen = n := rfl
@[simp] theorem setResult_bitcnt (n b : Word) : (setResult n b s).bitcnt = b := rfl
@[simp] theorem setResult_err (n b : Word) : (setResult n b s).err = s.err := rfl
@[simp] theorem setResult_inMem (n b : Word) : (setResult n b s).inMem = s.inMem := rfl
@[simp] theorem setResult_out (n b : Word) : (setResult n b s).out = s.out := rfl
@[simp] theorem setResult_tree (n b : Word) : (setResult n b s).tree = s.tree := rfl
@[simp] theorem setResult_phase (n b : Word) : (setResult n b s).phase = s.phase := rfl
@[simp] theorem setResult_bitcur (n b : Word) : (setResult n b s).bitcur = s.bitcur := rfl
@[simp] theorem setResult_sidx (n b : Word) : (setResult n b s).sidx = s.sidx := rfl
@[simp] theorem setResult_opos (n b : Word) : (setResult n b s).opos = s.opos := rfl
@[simp] theorem setResult_cap (n b : Word) : (setResult n b s).cap = s.cap := rfl
@[simp] theorem setResult_cur (n b : Word) : (setResult n b s).cur = s.cur := rfl
@[simp] theorem setResult_inSeed (n b : Word) : (setResult n b s).inSeed = s.inSeed := rfl
@[simp] theorem setResult_outSeed (n b : Word) : (setResult n b s).outSeed = s.outSeed := rfl
@[simp] theorem setResult_host (n b : Word) : (setResult n b s).host = s.host := rfl

/-! ### forget -/

@[simp] theorem forget_params (n : Nat) : (forget n s).params = s.params := rfl
@[simp] theorem forget_ft (n : Nat) : (forget n s).ft = s.ft := rfl
@[simp] theorem forget_ilen (n : Nat) : (forget n s).ilen = s.ilen := rfl
@[simp] theorem forget_olen (n : Nat) : (forget n s).olen = s.olen := rfl
@[simp] theorem forget_bitcnt (n : Nat) : (forget n s).bitcnt = s.bitcnt := rfl
@[simp] theorem forget_err (n : Nat) : (forget n s).err = s.err := rfl
@[simp] theorem forget_inMem (n : Nat) : (forget n s).inMem = s.inMem := rfl
@[simp] theorem forget_out (n : Nat) : (forget n s).out = Memory.below n s.out := rfl
@[simp] theorem forget_tree (n : Nat) : (forget n s).tree = s.tree := rfl
@[simp] theorem forget_phase (n : Nat) : (forget n s).phase = s.phase := rfl
@[simp] theorem forget_bitcur (n : Nat) : (forget n s).bitcur = Config.freeBitcur (s.outSeed + 1) := rfl
@[simp] theorem forget_sidx (n : Nat) : (forget n s).sidx = Config.freeSidx (s.outSeed + 1) := rfl
@[simp] theorem forget_opos (n : Nat) : (forget n s).opos = Config.freeOpos (s.outSeed + 1) := rfl
@[simp] theorem forget_cap (n : Nat) : (forget n s).cap = Config.freeCap (s.outSeed + 1) := rfl
@[simp] theorem forget_cur (n : Nat) : (forget n s).cur = Config.freeCur (s.outSeed + 1) := rfl
@[simp] theorem forget_inSeed (n : Nat) : (forget n s).inSeed = s.inSeed := rfl
@[simp] theorem forget_outSeed (n : Nat) : (forget n s).outSeed = s.outSeed + 1 := rfl
@[simp] theorem forget_host (n : Nat) : (forget n s).host = s.host := rfl

end Sys2Proof.Machine
end

