-- ==== Sys2Proof/Laws/Pack.lean ====
section
/-! SUPPORT. The laws of the packer: GROW, WRITEBIT, the symbol loop and the footer, each as what it does to the bits
packed so far. -/

namespace Sys2Proof.Machine

/-! ### Zero fill and growth (R113) -/

theorem lookup_zeroFill (a n : Nat) (m : Memory) (c : Nat) :
    Memory.lookup (zeroFill a n m) c = if a ≤ c ∧ c < a + n then some 0#8 else Memory.lookup m c := by
  induction n with
  | zero => simp [zeroFill]
  | succ n ih =>
    simp only [zeroFill, Memory.lookup_store, ih]
    by_cases h : c = a + n
    · rw [if_pos h, if_pos (by omega)]
    · rw [if_neg h]
      by_cases h2 : a ≤ c ∧ c < a + n
      · rw [if_pos h2, if_pos (by omega)]
      · rw [if_neg h2, if_neg (by omega)]

theorem zeroFill_wf (a n : Nat) {m : Memory} (h : Memory.wf m) : Memory.wf (zeroFill a n m) := by
  induction n with
  | zero => exact h
  | succ n ih => exact Memory.store_wf _ _ ih

theorem grownCap_toNat {s : State} (h : s.params.Legal) :
    (BitVec.ofNat 64 (grownCap s) : Word).toNat = grownCap s := by
  have := h.2.2.2
  have : grownCap s ≤ s.params.outMax := Nat.min_le_right _ _
  rw [BitVec.toNat_ofNat, Nat.mod_eq_of_lt (by omega)]

/-- What ensuring the capacity at the cursor does (R111, R113): nothing below the capacity; OutputFullError at the end of
`OUT`; else the capacity grows and every byte that enters it is 0. -/
theorem ensureCap_cases {s : State} (h : s.params.Legal) :
    (s.bitcur.toNat / 8 < s.cap.toNat ∧ ensureCap s = .ok s) ∨
    (s.cap.toNat ≤ s.bitcur.toNat / 8 ∧ s.params.outMax ≤ s.bitcur.toNat / 8 ∧ ensureCap s = .error .outputFull) ∨
    (s.cap.toNat ≤ s.bitcur.toNat / 8 ∧ s.bitcur.toNat / 8 < s.params.outMax ∧
      ∃ t, ensureCap s = .ok t ∧ t = { s with cap := t.cap, out := t.out } ∧ t.cap.toNat = grownCap s ∧
        (∀ a, Memory.lookup t.out a =
          if s.cap.toNat ≤ a ∧ a < grownCap s then some 0#8 else Memory.lookup s.out a) ∧
        (Memory.wf s.out → Memory.wf t.out)) := by
  by_cases h1 : s.cap.toNat ≤ s.bitcur.toNat / 8
  · by_cases h2 : s.params.outMax ≤ s.bitcur.toNat / 8
    · right; left
      refine ⟨h1, h2, ?_⟩
      simp only [ensureCap, if_pos h1, grow, if_pos h2]
    · right; right
      refine ⟨h1, not_le.1 h2,
        { s with
          out := zeroFill s.cap.toNat (grownCap s - s.cap.toNat) s.out
          cap := BitVec.ofNat 64 (grownCap s) },
        by simp only [ensureCap, if_pos h1, grow, if_neg h2], rfl, grownCap_toNat h, ?_, ?_⟩
      · intro a
        rw [lookup_zeroFill]
        have hg : s.cap.toNat ≤ a ∧ a < s.cap.toNat + (grownCap s - s.cap.toNat) ↔ s.cap.toNat ≤ a ∧ a < grownCap s := by
          omega
        simp only [hg]
      · exact fun hw => zeroFill_wf _ _ hw
  · left
    exact ⟨not_le.1 h1, by simp only [ensureCap, if_neg h1]⟩

/-! ### One bit (R111) -/

/-- The byte at the cursor after WRITEBIT holds the bit and keeps the others; no other byte changes. -/
theorem lookup_putBit (b : Bool) (s : State) (a : Nat) :
    Memory.lookup (putBit b s).out a =
      if a = s.bitcur.toNat / 8 then some (setBit (s.outByte a) (s.bitcur.toNat % 8) b) else Memory.lookup s.out a := by
  simp only [putBit, writeOut, Memory.lookup_store]
  split
  · rename_i h; rw [h]
  · rfl

/-! ### The bits packed so far -/

/-- In a state of the packer the bits `l` have been written, at positions `0 .. l.length - 1`, and every other bit of the
capacity is 0 (R111, R113, R114). -/
structure Packing (l : List Bool) (s : State) : Prop where
  bitcur : s.bitcur.toNat = l.length
  limit : l.length ≤ maxBitCount s.params
  capLe : s.cap.toNat ≤ s.params.outMax
  covered : l.length ≤ 8 * s.cap.toNat
  bytes : ∀ a, a < s.cap.toNat → ∃ v, Memory.lookup s.out a = some v ∧
    ∀ j, j < 8 → v.getLsbD j = (l[8 * a + j]?).getD false

/-- The first position at which a bit cannot be written: the footer's limit or the end of `OUT`. -/
def bitLimit (p : Params) : Nat := min (maxBitCount p) (8 * p.outMax)

/-- The error raised there: FooterOverflowError before OutputFullError (R165). -/
def limitError (p : Params) : ErrorCode := if maxBitCount p ≤ 8 * p.outMax then .footerOverflow else .outputFull

/-- WRITEBIT in terms of the bits packed so far: an error at the limit, else one bit more and nothing else changed. -/
theorem writeBit_spec {l : List Bool} {s : State} (hp : s.params.Legal) (h : Packing l s) (b : Bool) :
    if l.length < bitLimit s.params then
      ∃ t, writeBit b s = .ok t ∧ Packing (l ++ [b]) t ∧ t = { s with bitcur := t.bitcur, cap := t.cap, out := t.out }
    else writeBit b s = .error (limitError s.params) := by
  have hmax := maxBitCount_lt s.params
  have hlim := h.limit
  have hcapLe := h.capLe
  have hcov := h.covered
  have hcur := h.bitcur
  -- the state in which the bit is put: every byte of its capacity is known, and the cursor's byte is in it
  have put : ∀ u : State, u = { s with cap := u.cap, out := u.out } → l.length < maxBitCount s.params →
      l.length / 8 < u.cap.toNat → u.cap.toNat ≤ s.params.outMax →
      (∀ a, a < u.cap.toNat → ∃ v, Memory.lookup u.out a = some v ∧ ∀ j, j < 8 → v.getLsbD j = (l[8 * a + j]?).getD false) →
      Packing (l ++ [b]) (putBit b u) ∧
        putBit b u = { s with bitcur := (putBit b u).bitcur, cap := (putBit b u).cap, out := (putBit b u).out } := by
    intro u hu hl1 hl2 hl3 hl4
    have hub : u.bitcur = s.bitcur := by rw [hu]
    have hup : u.params = s.params := by rw [hu]
    refine ⟨⟨?_, ?_, ?_, ?_, ?_⟩, ?_⟩
    · show (u.bitcur + 1).toNat = _
      rw [hub, BitVec.toNat_add, hcur, List.length_append]
      have : (1 : Word).toNat = 1 := rfl
      simp only [List.length_singleton]
      omega
    · show _ ≤ maxBitCount u.params
      rw [hup, List.length_append, List.length_singleton]; omega
    · show u.cap.toNat ≤ u.params.outMax
      rw [hup]; exact hl3
    · show _ ≤ 8 * u.cap.toNat
      rw [List.length_append, List.length_singleton]; omega
    · intro a ha
      have ha' : a < u.cap.toNat := ha
      obtain ⟨v, hv, hbits⟩ := hl4 a ha'
      rw [lookup_putBit, hub, hcur]
      by_cases hal : a = l.length / 8
      · rw [if_pos hal]
        refine ⟨_, rfl, fun j hj => ?_⟩
        have hout : u.outByte a = v := by simp [State.outByte, hv]
        rw [getLsbD_setBit _ _ (Nat.mod_lt _ (by omega)) hj, hout, hbits j hj, List.getElem?_append]
        by_cases hj2 : j = l.length % 8
        · rw [if_pos hj2, if_neg (by omega), show 8 * a + j - l.length = 0 by omega]
          rfl
        · rw [if_neg hj2]
          by_cases hj3 : 8 * a + j < l.length
          · rw [if_pos hj3]
          · rw [if_neg hj3, List.getElem?_eq_none (by omega), List.getElem?_eq_none (by simp; omega)]
      · rw [if_neg hal]
        refine ⟨v, hv, fun j hj => ?_⟩
        rw [hbits j hj, List.getElem?_append]
        by_cases hj3 : 8 * a + j < l.length
        · rw [if_pos hj3]
        · rw [if_neg hj3, List.getElem?_eq_none (by omega), List.getElem?_eq_none (by simp; omega)]
    · rw [hu]; rfl
  have hbl : l.length < bitLimit s.params ↔ l.length < maxBitCount s.params ∧ l.length < 8 * s.params.outMax := by
    simp only [bitLimit]; omega
  split
  · rename_i hlt
    rw [hbl] at hlt
    have hne : s.bitcur.toNat ≠ maxBitCount s.params := by omega
    rcases ensureCap_cases (s := s) hp with ⟨h1, h2⟩ | ⟨-, h2, -⟩ | ⟨h1, h2, u, h3, h4, h5, h6, -⟩
    · obtain ⟨g1, g2⟩ := put s rfl hlt.1 (by omega) hcapLe h.bytes
      exact ⟨_, by simp only [writeBit, if_neg hne, h2]; rfl, g1, g2⟩
    · omega
    · have hgrow : grownCap s ≤ s.params.outMax := Nat.min_le_right _ _
      have hchunk := hp.1
      have hgt : l.length / 8 < grownCap s := by simp only [grownCap]; omega
      obtain ⟨g1, g2⟩ := put u h4 hlt.1 (by omega) (by omega) (fun a ha => by
        rw [h6 a]
        by_cases ha2 : s.cap.toNat ≤ a
        · rw [if_pos ⟨ha2, by omega⟩]
          refine ⟨_, rfl, fun j hj => ?_⟩
          rw [List.getElem?_eq_none (by omega)]
          simp
        · rw [if_neg (by omega)]
          exact h.bytes a (by omega))
      exact ⟨_, by simp only [writeBit, if_neg hne, h3]; rfl, g1, g2⟩
  · rename_i hlt
    rw [hbl] at hlt
    by_cases he : s.bitcur.toNat = maxBitCount s.params
    · have : maxBitCount s.params ≤ 8 * s.params.outMax := by omega
      simp only [writeBit, if_pos he, limitError, if_pos this]
    · rcases ensureCap_cases (s := s) hp with ⟨h1, -⟩ | ⟨-, h2, h3⟩ | ⟨h1, h2, -⟩
      · omega
      · have : ¬ maxBitCount s.params ≤ 8 * s.params.outMax := by omega
        simp only [writeBit, if_neg he, h3, limitError, if_neg this]
        rfl
      · omega

/-- WRITEBIT of a list of bits: all of them, or the error at the limit. -/
theorem writeBits_spec (bs : List Bool) {l : List Bool} {s : State} (hp : s.params.Legal) (h : Packing l s) :
    if l.length + bs.length ≤ bitLimit s.params then
      ∃ t, writeBits bs s = .ok t ∧ Packing (l ++ bs) t ∧ t = { s with bitcur := t.bitcur, cap := t.cap, out := t.out }
    else writeBits bs s = .error (limitError s.params) := by
  induction bs generalizing l s with
  | nil =>
    have h1 := h.limit
    have h2 := h.covered
    have h3 := h.capLe
    rw [if_pos (by simp [bitLimit]; omega)]
    exact ⟨s, rfl, by simpa using h, rfl⟩
  | cons b bs ih =>
    have hw := writeBit_spec hp h b
    by_cases h1 : l.length < bitLimit s.params
    · rw [if_pos h1] at hw
      obtain ⟨t, ht, hpack, hframe⟩ := hw
      have hpt : t.params = s.params := by rw [hframe]
      have e : writeBits (b :: bs) s = writeBits bs t := by simp only [writeBits, ht]; rfl
      have ih := ih (by rw [hpt]; exact hp) hpack
      rw [hpt, List.length_append, List.length_singleton] at ih
      rw [e, List.length_cons, show l.length + (bs.length + 1) = l.length + 1 + bs.length by omega]
      by_cases h2 : l.length + 1 + bs.length ≤ bitLimit s.params
      · rw [if_pos h2] at ih ⊢
        obtain ⟨u, hu, hpu, hfu⟩ := ih
        refine ⟨u, hu, by simpa using hpu, ?_⟩
        rw [hfu, hframe]
      · rw [if_neg h2] at ih ⊢
        exact ih
    · rw [if_neg h1] at hw
      rw [if_neg (by simp; omega)]
      simp only [writeBits, hw]
      rfl

/-! ### The symbol loop (R122) -/

/-- The symbol loop as a function of the bits packed so far and the symbols still to pack, the next one first: the
complete list of bits, or the first error (R165). -/
def packOutcome (ft : Vector Count 256) (tr : Tree) (p : Params) : List Bool → List Byte → Except ErrorCode (List Bool)
  | l, [] => .ok l
  | l, b :: bs =>
    if entry ft b = 0#32 then .error .symbolNotInTree
    else if l.length + (storedCode tr b).length ≤ bitLimit p then
      packOutcome ft tr p (l ++ (storedCode tr b).reverse) bs
    else .error (limitError p)

/-- The symbol loop over `SIDX = n-1 downto 0` is `packOutcome` of the symbols in that order; it changes the cursors,
the capacity and `OUT` alone. -/
theorem packSymbols_spec {ft : Vector Count 256} {tr : Tree} (hb : Built ft tr) (n : Nat) {l : List Bool} {s : State}
    (hp : s.params.Legal) (ht : s.tree = tr) (h : Packing l s) :
    match packOutcome ft tr s.params l (((List.range n).map s.inByte).reverse) with
    | .ok l' => ∃ t, packSymbols n s = .ok t ∧ Packing l' t ∧
        t = { s with bitcur := t.bitcur, cap := t.cap, out := t.out, sidx := t.sidx }
    | .error e => packSymbols n s = .error e := by
  induction n generalizing l s with
  | zero => exact ⟨s, rfl, h, rfl⟩
  | succ n ih =>
    rw [List.range_succ, List.map_append, List.map_singleton, List.reverse_append, List.reverse_singleton,
      List.singleton_append]
    simp only [packOutcome]
    by_cases hz : entry ft (s.inByte n) = 0#32
    · rw [if_pos hz]
      have hleaf : entry s.tree.leaf (s.inByte n) = NIL := by
        rw [ht, hb.leaf_entry_nil, mem_alphabet, not_not]; exact hz
      show (packSymbol n s >>= packSymbols n) = _
      rw [show packSymbol n s = .error .symbolNotInTree from if_pos hleaf]
      rfl
    · rw [if_neg hz]
      have hleaf : entry s.tree.leaf (s.inByte n) ≠ NIL := by
        rw [ht, ne_eq, hb.leaf_entry_nil, mem_alphabet, not_not]; exact hz
      have hsym : packSymbol n s = writeBits (storedCode tr (s.inByte n)).reverse { s with sidx := BitVec.ofNat 64 n } := by
        rw [storedCode, List.reverse_reverse, ← ht]
        exact if_neg hleaf
      have h0 : Packing l { s with sidx := BitVec.ofNat 64 n } := ⟨h.1, h.2, h.3, h.4, h.5⟩
      have hw := writeBits_spec (storedCode tr (s.inByte n)).reverse (s := { s with sidx := BitVec.ofNat 64 n }) hp h0
      rw [List.length_reverse] at hw
      by_cases hlim : l.length + (storedCode tr (s.inByte n)).length ≤ bitLimit s.params
      · rw [if_pos hlim]
        rw [if_pos hlim] at hw
        obtain ⟨t, h1, h2, h3⟩ := hw
        have hpt : t.params = s.params := by rw [h3]
        have htt : t.tree = tr := by rw [h3]; exact ht
        have hin : t.inByte = s.inByte := by rw [h3]; rfl
        have ih := ih (s := t) (by rw [hpt]; exact hp) htt h2
        rw [hpt, hin] at ih
        have e : packSymbols (n + 1) s = packSymbols n t := by
          show (packSymbol n s >>= packSymbols n) = _
          rw [hsym, h1]; rfl
        rw [e]
        split at ih
        · obtain ⟨u, g1, g2, g3⟩ := ih
          refine ⟨u, g1, g2, ?_⟩
          rw [g3, h3]
        · exact ih
      · rw [if_neg hlim]
        rw [if_neg hlim] at hw
        show (packSymbol n s >>= packSymbols n) = _
        rw [hsym, hw]
        rfl

/-- Where every symbol has a leaf, the loop packs all codes or fails at the limit. -/
theorem packOutcome_all {ft : Vector Count 256} (tr : Tree) (p : Params) {bs : List Byte}
    (h : ∀ b ∈ bs, entry ft b ≠ 0#32) {l : List Bool} (hl : l.length ≤ bitLimit p) :
    packOutcome ft tr p l bs =
      if l.length + (bs.flatMap (storedCode tr)).length ≤ bitLimit p then
        .ok (l ++ bs.flatMap (fun b => (storedCode tr b).reverse))
      else .error (limitError p) := by
  induction bs generalizing l with
  | nil => simp [packOutcome, hl]
  | cons b bs ih =>
    rw [packOutcome, if_neg (h b (by simp))]
    by_cases h1 : l.length + (storedCode tr b).length ≤ bitLimit p
    · rw [if_pos h1, ih (fun c hc => h c (by simp [hc])) (by simpa using h1)]
      simp only [List.flatMap_cons, List.length_append, List.length_reverse, List.append_assoc, Nat.add_assoc]
    · rw [if_neg h1, if_neg (by simp; omega)]

/-- A symbol without a leaf, after symbols that can be packed, is SymbolNotInTreeError (R123). -/
theorem packOutcome_missing {ft : Vector Count 256} (tr : Tree) (p : Params) {bs cs : List Byte} {b : Byte}
    (h : ∀ c ∈ bs, entry ft c ≠ 0#32) (hb : entry ft b = 0#32) {l : List Bool}
    (hlim : l.length + (bs.flatMap (storedCode tr)).length ≤ bitLimit p) :
    packOutcome ft tr p l (bs ++ b :: cs) = .error .symbolNotInTree := by
  induction bs generalizing l with
  | nil => simp [packOutcome, hb]
  | cons c bs ih =>
    simp only [List.flatMap_cons, List.length_append] at hlim
    rw [List.cons_append, packOutcome, if_neg (h c (by simp)), if_pos (by omega)]
    refine ih (fun d hd => h d (by simp [hd])) ?_
    simp only [List.length_append, List.length_reverse]
    omega

/-- The errors of the symbol loop: a symbol of the buffer has no leaf, or the limit is reached. -/
theorem packOutcome_error {ft : Vector Count 256} {tr : Tree} {p : Params} {bs : List Byte} {l : List Bool} {e : ErrorCode}
    (h : packOutcome ft tr p l bs = .error e) :
    (e = .symbolNotInTree ∧ ∃ b ∈ bs, entry ft b = 0#32) ∨ e = limitError p := by
  induction bs generalizing l with
  | nil => simp [packOutcome] at h
  | cons b bs ih =>
    rw [packOutcome] at h
    split at h
    · rename_i hb
      cases h
      exact .inl ⟨rfl, b, by simp, hb⟩
    · split at h
      · rcases ih h with ⟨h1, c, hc, h2⟩ | h
        · exact .inl ⟨h1, c, by simp [hc], h2⟩
        · exact .inr h
      · cases h; exact .inr rfl

/-- A loop that completes has packed the codes of symbols that all have leaves. -/
theorem packOutcome_ok {ft : Vector Count 256} {tr : Tree} {p : Params} {bs : List Byte} {l l' : List Bool}
    (hl : l.length ≤ bitLimit p) (h : packOutcome ft tr p l bs = .ok l') :
    (∀ b ∈ bs, entry ft b ≠ 0#32) ∧ l.length + (bs.flatMap (storedCode tr)).length ≤ bitLimit p ∧
      l' = l ++ bs.flatMap (fun b => (storedCode tr b).reverse) := by
  have all : ∀ b ∈ bs, entry ft b ≠ 0#32 := by
    induction bs generalizing l with
    | nil => simp
    | cons b bs ih =>
      rw [packOutcome] at h
      split at h
      · cases h
      · rename_i hb
        split at h
        · rename_i hlim
          intro c hc
          rcases List.mem_cons.1 hc with rfl | hc
          · exact hb
          · exact ih (by simpa using hlim) h c hc
        · cases h
  rw [packOutcome_all tr p all hl] at h
  split at h
  · cases h; exact ⟨all, ‹_›, rfl⟩
  · cases h

theorem flatMap_reverse_codes (tr : Tree) (bs : List Byte) :
    bs.reverse.flatMap (fun b => (storedCode tr b).reverse) = (bs.flatMap (storedCode tr)).reverse := by
  rw [List.reverse_flatMap]; rfl

theorem length_flatMap_reverse (tr : Tree) (bs : List Byte) :
    (bs.reverse.flatMap (storedCode tr)).length = (bs.flatMap (storedCode tr)).length := by
  simp [List.length_flatMap]

/-! ### The canonical form -/

theorem ensureCap_wf {s t : State} (h : ensureCap s = .ok t) (hw : Memory.wf s.out) : Memory.wf t.out := by
  unfold ensureCap grow at h
  split at h
  · split at h
    · cases h
    · cases h; exact zeroFill_wf _ _ hw
  · cases h; exact hw

theorem writeBit_wf {b : Bool} {s t : State} (h : writeBit b s = .ok t) (hw : Memory.wf s.out) : Memory.wf t.out := by
  unfold writeBit at h
  split at h
  · cases h
  · cases hc : ensureCap s with
    | error e => rw [hc] at h; cases h
    | ok u =>
      rw [hc] at h
      cases h
      exact Memory.store_wf _ _ (ensureCap_wf hc hw)

theorem writeBits_wf {bs : List Bool} {s t : State} (h : writeBits bs s = .ok t) (hw : Memory.wf s.out) :
    Memory.wf t.out := by
  induction bs generalizing s with
  | nil => cases h; exact hw
  | cons b bs ih =>
    cases hc : writeBit b s with
    | error e => rw [writeBits, hc] at h; cases h
    | ok u =>
      rw [writeBits, hc] at h
      exact ih h (writeBit_wf hc hw)

/-- The packer keeps the canonical form of `OUT`. -/
theorem packSymbols_wf {n : Nat} {s t : State} (h : packSymbols n s = .ok t) (hw : Memory.wf s.out) :
    Memory.wf t.out := by
  induction n generalizing s with
  | zero => cases h; exact hw
  | succ n ih =>
    cases hc : packSymbol n s with
    | error e => rw [packSymbols, hc] at h; cases h
    | ok u =>
      rw [packSymbols, hc] at h
      refine ih h ?_
      unfold packSymbol at hc
      dsimp only at hc
      split at hc
      · cases hc
      · exact writeBits_wf hc hw

/-! ### Trim and footer (R124) -/

/-- The end of ENCODE: OutputFullError where payload and footer do not fit; else the result, whose bytes are the packed
bytes and the footer, and no byte above it holds a value. -/
theorem trimAndFooter_spec {l : List Bool} {s : State} (hp : s.params.Legal) (h : Packing l s) :
    if s.params.outMax < ceil8 l.length + s.params.fwBytes then trimAndFooter s = .error .outputFull
    else ∃ t, trimAndFooter s = .ok t ∧ t.err = 0#8 ∧ t.bitcnt.toNat = l.length ∧
      t.olen.toNat = ceil8 l.length + s.params.fwBytes ∧ t.tree = Tree.released ∧ t.phase = .idle ∧
      (∀ a, a < ceil8 l.length → ∃ v, Memory.lookup t.out a = some v ∧
        ∀ j, j < 8 → v.getLsbD j = (l[8 * a + j]?).getD false) ∧
      (∀ k, k < s.params.fwBytes →
        Memory.lookup t.out (ceil8 l.length + k) = some (BitVec.ofNat 8 (l.length / 2 ^ (8 * k)))) ∧
      (∀ a, ceil8 l.length + s.params.fwBytes ≤ a → Memory.lookup t.out a = none) ∧ (Memory.wf s.out → Memory.wf t.out) ∧
      t = deliver t.olen t.bitcnt { s with out := t.out } := by
  have hout := hp.2.2.2
  split
  · rename_i hlt
    simp only [trimAndFooter, h.bitcur, if_pos hlt]
  · rename_i hlt
    have hn : (BitVec.ofNat 64 (ceil8 l.length + s.params.fwBytes) : Word).toNat = ceil8 l.length + s.params.fwBytes := by
      rw [BitVec.toNat_ofNat, Nat.mod_eq_of_lt (by omega)]
    have hcov := h.covered
    refine ⟨_, by simp only [trimAndFooter, h.bitcur, if_neg hlt]; rfl, rfl, h.bitcur, ?_, rfl, rfl, ?_, ?_, ?_, ?_, ?_⟩
    · exact hn
    · intro a ha
      obtain ⟨v, hv, hb⟩ := h.bytes a (by unfold ceil8 at ha; omega)
      refine ⟨v, ?_, hb⟩
      show Memory.lookup (Memory.below _ (writeFooter _ _ _ s).out) a = _
      rw [Memory.lookup_below, hn, if_pos (by omega), lookup_writeFooter, if_neg (by omega)]
      exact hv
    · intro k hk
      show Memory.lookup (Memory.below _ (writeFooter _ _ _ s).out) _ = _
      rw [Memory.lookup_below, hn, if_pos (by omega), lookup_writeFooter, if_pos (by omega), h.bitcur,
        Nat.add_sub_cancel_left]
    · intro a ha
      show Memory.lookup (Memory.below _ (writeFooter _ _ _ s).out) _ = _
      rw [Memory.lookup_below, hn, if_neg (by omega)]
    · exact fun hw => Memory.below_wf _ (writeFooter_wf _ _ _ hw)
    · rw [writeFooter_frame]
      simp only [deliver, forget, setResult, setPhase, setErr, release, Memory.below_below]

end Sys2Proof.Machine
end

