-- ==== Sys2Proof/Laws/Walk.lean ====
section
/-! SUPPORT. The laws of WALK: the walk as a function of the stream bits read downward, and what it answers on a list of
stored codes. -/

namespace Sys2Proof.Machine

/-! ### The walk as a function of the bits (R130, R134) -/

/-- The walk from a node over the bits still to read, with the symbols emitted so far: the symbols delivered at the end of
the stream, or the first error. -/
def walkOutcome (tr : Tree) (p : Params) : NodeIdx → List Byte → List Bool → Except ErrorCode (List Byte)
  | cur, out, [] => if cur = tr.root then .ok out else .error .danglingPath
  | cur, out, b :: bs =>
    if selectChild tr cur (!b) = NIL then .error .absentChild
    else
      match leafSymbol tr (selectChild tr cur (!b)) with
      | some x => if p.outMax ≤ out.length then .error .outputFull else walkOutcome tr p tr.root (out ++ [x]) bs
      | none => walkOutcome tr p (selectChild tr cur (!b)) out bs

/-- In a state of the walk the symbols `l` have been emitted, at addresses `0 .. l.length - 1` of `OUT`. -/
structure Emitted (l : List Byte) (s : State) : Prop where
  opos : s.opos.toNat = l.length
  limit : l.length ≤ s.params.outMax
  bytes : ∀ a, a < l.length → Memory.lookup s.out a = l[a]?

/-- EMIT: OutputFullError where `OUT` is full, else one symbol more (R136). -/
theorem emit_spec {l : List Byte} {s : State} (hp : s.params.Legal) (h : Emitted l s) (x : Byte) :
    if s.params.outMax ≤ l.length then emit x s = .error .outputFull
    else ∃ t, emit x s = .ok t ∧ Emitted (l ++ [x]) t ∧ t.cur = s.tree.root ∧
      t = { s with out := t.out, opos := t.opos, cur := t.cur } := by
  have hout := hp.2.2.2
  have hlim := h.limit
  have hpos := h.opos
  split
  · rename_i hle
    rw [emit, hpos, if_pos hle]
  · rename_i hle
    refine ⟨_, by rw [emit, hpos, if_neg hle], ⟨?_, ?_, ?_⟩, rfl, rfl⟩
    · show (s.opos + 1).toNat = _
      rw [BitVec.toNat_add, hpos, List.length_append]
      have : (1 : Word).toNat = 1 := rfl
      simp only [List.length_singleton]
      omega
    · show _ ≤ s.params.outMax
      simp only [List.length_append, List.length_singleton]; omega
    · intro a ha
      simp only [List.length_append, List.length_singleton] at ha
      show Memory.lookup (Memory.store s.out l.length x) a = _
      rw [Memory.lookup_store]
      split
      · subst_vars; simp
      · rw [h.bytes a (by omega), List.getElem?_append_left (by omega)]

/-- The walk over the positions `n-1 downto 0` and its end are `walkOutcome` of the bits in that order; the bytes of `OUT`
below the number of symbols are the symbols. -/
theorem walkBits_spec {tr : Tree} (n : Nat) {l : List Byte} {s : State} (hp : s.params.Legal) (ht : s.tree = tr)
    (h : Emitted l s) :
    match walkOutcome tr s.params s.cur l (inStream s n) with
    | .ok l' => ∃ t, walkBits n s = .ok t ∧ Emitted l' t ∧ t.cur = tr.root ∧
        t = { s with bitcur := t.bitcur, cur := t.cur, out := t.out, opos := t.opos }
    | .error .danglingPath => ∃ t, walkBits n s = .ok t ∧ t.cur ≠ t.tree.root
    | .error e => walkBits n s = .error e := by
  induction n generalizing l s with
  | zero =>
    simp only [inStream, List.range_zero, List.map_nil, List.reverse_nil, walkOutcome]
    by_cases hc : s.cur = tr.root
    · rw [if_pos hc]; exact ⟨s, rfl, h, hc, rfl⟩
    · rw [if_neg hc]; exact ⟨s, rfl, ht ▸ hc⟩
  | succ n ih =>
    have hbits : inStream s (n + 1) = streamBit s n :: inStream s n := by
      simp only [inStream, List.range_succ, List.map_append, List.map_singleton, List.reverse_append,
        List.reverse_singleton, List.singleton_append]
    rw [hbits]
    simp only [walkOutcome]
    have run : ∀ r, walkBit n s = r → walkBits (n + 1) s = (r >>= walkBits n) := fun r hr => by rw [← hr]; rfl
    by_cases hnil : selectChild tr s.cur (!streamBit s n) = NIL
    · rw [if_pos hnil]
      refine run (.error .absentChild) ?_
      subst ht
      exact if_pos hnil
    · rw [if_neg hnil]
      subst ht
      cases hleaf : leafSymbol s.tree (selectChild s.tree s.cur (!streamBit s n)) with
      | none =>
        have hw : walkBit n s = .ok { s with bitcur := BitVec.ofNat 64 n,
                                             cur := selectChild s.tree s.cur (!streamBit s n) } := by
          rw [walkBit]
          dsimp only
          refine (if_neg hnil).trans ?_
          have : leafSymbol s.tree (selectChild s.tree s.cur (!streamBit s n)) = none := hleaf
          split
          · rename_i heq
            have heq' : leafSymbol s.tree (selectChild s.tree s.cur (!streamBit s n)) = _ := heq
            rw [this] at heq'; cases heq'
          · rfl
        have ih := ih (l := l) (s := { s with bitcur := BitVec.ofNat 64 n,
                                              cur := selectChild s.tree s.cur (!streamBit s n) }) hp rfl ⟨h.1, h.2, h.3⟩
        rw [run _ hw]
        exact ih
      | some x =>
        have hw : walkBit n s = emit x { s with bitcur := BitVec.ofNat 64 n,
                                                cur := selectChild s.tree s.cur (!streamBit s n) } := by
          rw [walkBit]
          dsimp only
          refine (if_neg hnil).trans ?_
          have : leafSymbol s.tree (selectChild s.tree s.cur (!streamBit s n)) = some x := hleaf
          split
          · rename_i heq
            have heq' : leafSymbol s.tree (selectChild s.tree s.cur (!streamBit s n)) = _ := heq
            rw [this] at heq'; cases heq'; rfl
          · rename_i heq
            have heq' : leafSymbol s.tree (selectChild s.tree s.cur (!streamBit s n)) = _ := heq
            rw [this] at heq'; cases heq'
        have he := emit_spec (s := { s with bitcur := BitVec.ofNat 64 n,
                                            cur := selectChild s.tree s.cur (!streamBit s n) }) (l := l) hp
          ⟨h.1, h.2, h.3⟩ x
        dsimp only at he ⊢
        by_cases hfull : s.params.outMax ≤ l.length
        · rw [if_pos hfull]
          rw [if_pos hfull] at he
          exact run _ (hw.trans he)
        · rw [if_neg hfull]
          rw [if_neg hfull] at he
          obtain ⟨t, h1, h2, h3, h4⟩ := he
          have hpt : t.params = s.params := by rw [h4]
          have htt : t.tree = s.tree := by rw [h4]
          have hst : inStream t n = inStream s n := by rw [h4]; rfl
          have ih := ih (l := l ++ [x]) (s := t) (hpt ▸ hp) htt h2
          rw [hpt, hst, h3] at ih
          rw [run _ (hw.trans h1), show ((Except.ok t : Except ErrorCode State) >>= walkBits n) = walkBits n t from rfl]
          revert ih
          cases walkOutcome s.tree s.params s.tree.root (l ++ [x]) (inStream s n) with
          | ok l' =>
            rintro ⟨u, g1, g2, g3, g4⟩
            exact ⟨u, g1, g2, g3, by rw [g4, h4]⟩
          | error e => cases e <;> exact id

/-- WALK keeps the canonical form of `OUT`. -/
theorem walkBits_wf {n : Nat} {s t : State} (h : walkBits n s = .ok t) (hw : Memory.wf s.out) : Memory.wf t.out := by
  induction n generalizing s with
  | zero => cases h; exact hw
  | succ n ih =>
    cases hc : walkBit n s with
    | error e => rw [walkBits, hc] at h; cases h
    | ok u =>
      rw [walkBits, hc] at h
      refine ih h ?_
      unfold walkBit emit at hc
      dsimp only at hc
      split at hc
      · cases hc
      · split at hc
        · split at hc
          · cases hc
          · cases hc; exact Memory.store_wf _ _ hw
        · cases hc; exact hw

/-! ### The walk over codes -/

namespace Built

variable {ft : Vector Count 256} {t : Tree}

/-- Below an internal node on the path to a leaf: the child that the next bit of the code selects. -/
theorem select_on_code (h : Built ft t) {b : Byte} (hb : b ∈ alphabet ft) {i : Nat} (hi : i < t.node.length)
    {c : Bool} {u : List Bool} (e : storedCode t b = down t i ++ c :: u) :
    (u = [] → selectChild t (BitVec.ofNat 9 i) (!c) = BitVec.ofNat 9 ((alphabet ft).idxOf b)) ∧
    (u ≠ [] → ∃ j, (alphabet ft).length ≤ j ∧ j < t.node.length ∧ down t j = down t i ++ [c] ∧
      selectChild t (BitVec.ofNat 9 i) (!c) = BitVec.ofNat 9 j) := by
  have hd := (h.descend_down hi).1
  have hs : descend t t.root (down t i ++ [c]) = selectChild t (BitVec.ofNat 9 i) (!c) := by
    rw [descend_append, hd]; rfl
  have e' : storedCode t b = (down t i ++ [c]) ++ u := by rw [e]; simp
  constructor
  · intro hu
    rw [← hs, ← (h.descend_down ((h.leaf_entry hb).2.trans h.alphabet_lt)).1, ← h.storedCode_eq hb, e', hu,
      List.append_nil]
  · intro hu
    obtain ⟨j, h1, h2, h3, h4⟩ := h.storedCode_split hb e' hu
    exact ⟨j, h1, h2, h4, by rw [← hs, h3]⟩

theorem node_ne_nil (h : Built ft t) {i : Nat} (hi : i < t.node.length) : BitVec.ofNat 9 i ≠ NIL :=
  idx_ne_nil (by have := h.len_le; omega)

/-- The walk over the rest of a code emits the symbol, or finds `OUT` full. -/
theorem walk_code_rest (h : Built ft t) (p : Params) {b : Byte} (hb : b ∈ alphabet ft) (out : List Byte)
    (rest : List Bool) (u : List Bool) {i : Nat} (hi : i < t.node.length) (hu : u ≠ [])
    (e : storedCode t b = down t i ++ u) :
    walkOutcome t p (BitVec.ofNat 9 i) out (u ++ rest) =
      if p.outMax ≤ out.length then .error .outputFull else walkOutcome t p t.root (out ++ [b]) rest := by
  induction u generalizing i with
  | nil => exact absurd rfl hu
  | cons c u ih =>
    have hsel := h.select_on_code hb hi e
    rw [List.cons_append, walkOutcome]
    by_cases hu' : u = []
    · have hlt := (h.leaf_entry hb).2.trans h.alphabet_lt
      rw [hsel.1 hu', if_neg (h.node_ne_nil hlt), h.leafSymbol_leaf hb, hu']
      rfl
    · obtain ⟨j, h1, h2, h3, h4⟩ := hsel.2 hu'
      rw [h4, if_neg (h.node_ne_nil h2), h.leafSymbol_internal h1 h2]
      exact ih h2 hu' (by rw [e, h3]; simp)

/-- The walk over one code from the root. -/
theorem walk_code (h : Built ft t) (p : Params) {b : Byte} (hb : b ∈ alphabet ft) (out : List Byte)
    (rest : List Bool) :
    walkOutcome t p t.root out (storedCode t b ++ rest) =
      if p.outMax ≤ out.length then .error .outputFull else walkOutcome t p t.root (out ++ [b]) rest := by
  have := h.walk_code_rest p hb out rest (storedCode t b) h.root_lt (h.storedCode_ne_nil hb)
    (by rw [h.down_root, List.nil_append])
  rwa [← h.root_eq] at this

/-- The walk over the codes of a list of symbols emits them, if `OUT` has room. -/
theorem walk_codes (h : Built ft t) (p : Params) {bs : List Byte} (hb : ∀ b ∈ bs, b ∈ alphabet ft) (out : List Byte)
    (rest : List Bool) (hout : out.length ≤ p.outMax) :
    walkOutcome t p t.root out (bs.flatMap (storedCode t) ++ rest) =
      if out.length + bs.length ≤ p.outMax then walkOutcome t p t.root (out ++ bs) rest else .error .outputFull := by
  induction bs generalizing out with
  | nil => simp [hout]
  | cons b bs ih =>
    rw [List.flatMap_cons, List.append_assoc, h.walk_code p (hb b (by simp))]
    by_cases h1 : p.outMax ≤ out.length
    · rw [if_pos h1, if_neg (by simp; omega)]
    · rw [if_neg h1, ih (fun c hc => hb c (by simp [hc])) _ (by simp; omega)]
      simp only [List.length_append, List.length_cons, List.length_nil, List.append_assoc, List.cons_append,
        List.nil_append]
      by_cases h2 : out.length + (bs.length + 1) ≤ p.outMax
      · rw [if_pos h2, if_pos (by omega)]
      · rw [if_neg h2, if_neg (by omega)]

/-- A stream that ends below an internal node other than the root ends inside a code (R138). -/
theorem walk_partial_rest (h : Built ft t) (p : Params) {b : Byte} (hb : b ∈ alphabet ft) (out : List Byte)
    (r : List Bool) {u : List Bool} (hu : u ≠ []) {i : Nat} (hi : i < t.node.length) (hne : down t i ++ r ≠ [])
    (e : storedCode t b = down t i ++ r ++ u) :
    walkOutcome t p (BitVec.ofNat 9 i) out r = .error .danglingPath := by
  induction r generalizing i with
  | nil =>
    rw [walkOutcome, if_neg]
    intro hr
    refine hne ?_
    have hlen := h.len_le
    rw [h.root_eq] at hr
    rw [List.append_nil, idx_inj (by omega) (by have := h.root_lt; omega) hr, h.down_root]
  | cons c r ih =>
    have hru : r ++ u ≠ [] := by simp [hu]
    obtain ⟨j, h1, h2, h3, h4⟩ := (h.select_on_code hb hi (c := c) (u := r ++ u) (by rw [e]; simp)).2 hru
    rw [walkOutcome, h4, if_neg (h.node_ne_nil h2), h.leafSymbol_internal h1 h2]
    exact ih h2 (by rw [h3]; simp) (by rw [e, h3]; simp)

theorem walk_partial (h : Built ft t) (p : Params) {b : Byte} (hb : b ∈ alphabet ft) (out : List Byte)
    {r u : List Bool} (hr : r ≠ []) (hu : u ≠ []) (e : storedCode t b = r ++ u) :
    walkOutcome t p t.root out r = .error .danglingPath := by
  have := h.walk_partial_rest p hb out r hu h.root_lt (by rw [h.down_root]; simpa using hr)
    (by rw [h.down_root, e]; rfl)
  rwa [← h.root_eq] at this

/-- A stored 1 at the synthetic root selects a child that is absent (R137). -/
theorem walk_absent (h : Built ft t) (h1 : (alphabet ft).length = 1) (p : Params) (out : List Byte) (v : List Bool) :
    walkOutcome t p t.root out (true :: v) = .error .absentChild := by
  have hroot : t.root.toNat = 1 := by
    have a := h.nodeCount; have b := h.rootIdx; rw [if_pos h1] at a; omega
  have hr : t.root = BitVec.ofNat 9 1 := by rw [h.root_eq, hroot]
  have hlen : 1 < t.node.length := by have := h.root_lt; omega
  have hd : down t 1 = [] := by rw [← hroot]; exact h.down_root
  have sel : selectChild t (BitVec.ofNat 9 1) (!true) = NIL := by
    rcases h.select_cases (by omega) hlen true with ⟨c, hc, -, h2⟩ | ⟨h2, -⟩
    · rcases h.select_cases (by omega) hlen false with ⟨c', hc', -, h3⟩ | ⟨-, -, -, h3⟩
      · obtain rfl : c = c' := by omega
        rw [h2] at h3
        simp at h3
      · cases h3
    · exact h2
  rw [walkOutcome, hr, if_pos sel]

/-- Every stream is the codes of some symbols and then nothing, or the beginning of a code, or, in the single-symbol tree,
a bit with no child. -/
theorem stream_cases (h : Built ft t) (l : List Bool) :
    ∃ (bs : List Byte) (r : List Bool), (∀ b ∈ bs, b ∈ alphabet ft) ∧ l = bs.flatMap (storedCode t) ++ r ∧
      (r = [] ∨ (r ≠ [] ∧ ∃ b ∈ alphabet ft, ∃ u, u ≠ [] ∧ storedCode t b = r ++ u) ∨
        ((alphabet ft).length = 1 ∧ ∃ v, r = true :: v)) := by
  induction hn : l.length using Nat.strong_induction_on generalizing l with
  | _ n ih =>
    rcases h.bits_cases l h.root_ge h.root_lt with ⟨b, hb, u, v, hu, e, rfl⟩ | ⟨b, hb, u, hu, e⟩ | ⟨h1, -, v, rfl⟩
    · rw [h.down_root, List.nil_append] at e
      have hlt : v.length < n := by
        have := List.length_pos_iff.2 hu
        rw [List.length_append] at hn; omega
      obtain ⟨bs, r, h1, h2, h3⟩ := ih _ hlt v rfl
      refine ⟨b :: bs, r, ?_, ?_, h3⟩
      · intro c hc
        rcases List.mem_cons.1 hc with rfl | hc
        · exact hb
        · exact h1 c hc
      · rw [h2, List.flatMap_cons, e, List.append_assoc]
    · rw [h.down_root, List.nil_append] at e
      by_cases hl : l = []
      · exact ⟨[], [], by simp, by simp [hl], .inl rfl⟩
      · exact ⟨[], l, by simp, by simp, .inr (.inl ⟨hl, b, hb, u, hu, e⟩)⟩
    · exact ⟨[], true :: v, by simp, by simp, .inr (.inr ⟨h1, v, rfl⟩)⟩

/-- What the walk from the root answers, and on which streams. -/
theorem walk_cases (h : Built ft t) (p : Params) (l : List Bool) :
    ∃ (bs : List Byte) (r : List Bool), (∀ b ∈ bs, b ∈ alphabet ft) ∧ l = bs.flatMap (storedCode t) ++ r ∧
      ((p.outMax < bs.length ∧ walkOutcome t p t.root [] l = .error .outputFull) ∨
       (bs.length ≤ p.outMax ∧ r = [] ∧ walkOutcome t p t.root [] l = .ok bs) ∨
       (bs.length ≤ p.outMax ∧ r ≠ [] ∧ (∃ b ∈ alphabet ft, ∃ u, u ≠ [] ∧ storedCode t b = r ++ u) ∧
         walkOutcome t p t.root [] l = .error .danglingPath) ∨
       (bs.length ≤ p.outMax ∧ (alphabet ft).length = 1 ∧ (∃ v, r = true :: v) ∧
         walkOutcome t p t.root [] l = .error .absentChild)) := by
  obtain ⟨bs, r, hbs, hl, hr⟩ := h.stream_cases l
  refine ⟨bs, r, hbs, hl, ?_⟩
  have hw := h.walk_codes p hbs [] r (by simp)
  rw [← hl, List.nil_append, List.length_nil, Nat.zero_add] at hw
  by_cases hfull : bs.length ≤ p.outMax
  · rw [if_pos hfull] at hw
    right
    rcases hr with rfl | ⟨hr, b, hb, u, hu, e⟩ | ⟨h1, v, rfl⟩
    · exact .inl ⟨hfull, rfl, by rw [hw, walkOutcome, if_pos rfl]⟩
    · exact .inr (.inl ⟨hfull, hr, ⟨b, hb, u, hu, e⟩, by rw [hw, h.walk_partial p hb bs hr hu e]⟩)
    · exact .inr (.inr ⟨hfull, h1, ⟨v, rfl⟩, by rw [hw, h.walk_absent h1]⟩)
  · rw [if_neg hfull] at hw
    exact .inl ⟨not_le.1 hfull, hw⟩

end Built

end Sys2Proof.Machine
end

