-- ==== Sys2Proof/Laws/Command.lean ====
section
/-! SUPPORT. The laws of the commands: each as a case distinction on a function of its operands, with everything it does
in each case. Callers cite these and do not unfold the meanings. -/

namespace Sys2Proof.Machine

/-! ### The operands -/

theorem entryChecks_cases (s : State) :
    (s.ilen = 0#64 ∧ entryChecks s = .error .emptyInput) ∨
    (s.ilen ≠ 0#64 ∧ s.params.inMax < s.ilen.toNat ∧ entryChecks s = .error .lengthRange) ∨
    (BufferFits s ∧ entryChecks s = .ok ()) := by
  unfold entryChecks BufferFits
  by_cases h1 : s.ilen = 0#64
  · exact .inl ⟨h1, if_pos h1⟩
  · by_cases h2 : s.params.inMax < s.ilen.toNat
    · exact .inr (.inl ⟨h1, h2, by rw [if_neg h1, if_pos h2]⟩)
    · exact .inr (.inr ⟨⟨h1, not_lt.1 h2⟩, by rw [if_neg h1, if_neg h2]⟩)

theorem entryChecks_ok {s : State} (h : BufferFits s) : entryChecks s = .ok () := by
  rcases entryChecks_cases s with ⟨h1, -⟩ | ⟨-, h1, -⟩ | ⟨-, e⟩
  · exact absurd h1 h.1
  · exact absurd h.2 (not_le.2 h1)
  · exact e

theorem readFooter_cases (s : State) :
    (¬ FooterFits s ∧ readFooter s = .error .truncatedStream) ∨
    (FooterFits s ∧ readFooter s = .ok (footerValue s)) := by
  unfold readFooter FooterFits
  by_cases h1 : s.ilen.toNat < s.params.fwBytes
  · exact .inl ⟨by omega, if_pos h1⟩
  · by_cases h2 : 8 * (s.ilen.toNat - s.params.fwBytes) < footerValue s
    · exact .inl ⟨by omega, by rw [if_neg h1, if_pos h2]⟩
    · exact .inr ⟨⟨not_lt.1 h1, not_lt.1 h2⟩, by rw [if_neg h1, if_neg h2]⟩

theorem readFooter_ok {s : State} (h : FooterFits s) : readFooter s = .ok (footerValue s) := by
  rcases readFooter_cases s with ⟨h1, -⟩ | ⟨-, e⟩
  · exact absurd h h1
  · exact e

/-! ### Operands do not see the phase or the tree -/

theorem occurrences_setPhase (p : Phase) (s : State) (b : Byte) (n : Nat) :
    occurrences (setPhase p s) b n = occurrences s b n := by
  rw [occurrences_eq_count, occurrences_eq_count]; rfl

theorem countOverflows_setPhase (p : Phase) (s : State) : countOverflows (setPhase p s) = countOverflows s := by
  simp only [countOverflows, occurrences_setPhase, setPhase_ilen]

theorem countTable_setPhase (p : Phase) (s : State) : countTable (setPhase p s) = countTable s := by
  simp only [countTable, occurrences_setPhase, setPhase_ilen]

/-- The footer depends on the input and the parameters alone. -/
theorem readFooter_congr {s u : State} (h1 : u.ilen = s.ilen) (h2 : u.params = s.params) (h3 : u.inMem = s.inMem)
    (h4 : u.inSeed = s.inSeed) : readFooter u = readFooter s := by
  have e : ∀ a, u.inByte a = s.inByte a := fun a => by simp only [State.inByte, h3, h4]
  have hf : footerValue u = footerValue s := by
    unfold footerValue
    rw [h1, h2]
    exact littleEndian_congr fun j _ => e _
  simp only [readFooter, h1, h2, hf]

/-! ### `raise` (R160) -/

theorem raiseError_err (c : Instr) (e : ErrorCode) (s : State) : (raiseError c e s).err = e.code := by
  cases c <;> rfl

theorem code_ne_zero (e : ErrorCode) : e.code ≠ 0#8 := by cases e <;> decide

theorem code_le (e : ErrorCode) : e.code.toNat ≤ 11 := by cases e <;> decide

theorem code_inj {e e' : ErrorCode} (h : e.code = e'.code) : e = e' := by
  cases e <;> cases e' <;> first | rfl | exact absurd h (by decide)

theorem raiseError_failedAs {c : Instr} (hc : c ≠ .count) (e : ErrorCode) (s : State) :
    FailedAs e s (raiseError c e s) := by
  cases c
  · exact absurd rfl hc
  · exact ⟨rfl, rfl, rfl, rfl, Memory.below_zero _, rfl, rfl, rfl, rfl, rfl, rfl, rfl⟩
  · exact ⟨rfl, rfl, rfl, rfl, Memory.below_zero _, rfl, rfl, rfl, rfl, rfl, rfl, rfl⟩

/-! ### COUNT -/

/-- COUNT as a case distinction (R80, R83, R165). -/
theorem exec_count_cases (s : State) :
    (s.ilen = 0#64 ∧ exec .count s = .next (raiseError .count .emptyInput s)) ∨
    (s.ilen ≠ 0#64 ∧ s.params.inMax < s.ilen.toNat ∧ exec .count s = .next (raiseError .count .lengthRange s)) ∨
    (BufferFits s ∧ (∃ b, 2 ^ 32 - 1 < occursIn s b) ∧ exec .count s = .next (raiseError .count .countOverflow s)) ∨
    (BufferFits s ∧ (∀ b, occursIn s b ≤ 2 ^ 32 - 1) ∧
      exec .count s = .next { s with ft := countTable s, err := 0#8, phase := .idle }) := by
  have run : exec .count s = finish .count (do
      entryChecks s
      if countOverflows s then .error .countOverflow
      else .ok { s with ft := countTable s, err := 0#8, phase := .idle }) s := by
    show finish .count (do
      entryChecks s
      if countOverflows (setPhase .counting (setPhase .check s)) then .error .countOverflow
      else .ok { s with ft := countTable (setPhase .counting (setPhase .check s)), err := 0#8, phase := .idle }) s = _
    simp only [countOverflows_setPhase, countTable_setPhase]
  rcases entryChecks_cases s with ⟨h1, h2⟩ | ⟨h1, h2, h3⟩ | ⟨h1, h2⟩
  · exact .inl ⟨h1, by rw [run, h2]; rfl⟩
  · exact .inr (.inl ⟨h1, h2, by rw [run, h3]; rfl⟩)
  · rw [h2] at run
    by_cases h : countOverflows s = true
    · refine .inr (.inr (.inl ⟨h1, (countOverflows_iff s).1 h, run.trans ?_⟩))
      show finish .count (if countOverflows s = true then _ else _) s = _
      rw [if_pos h]; rfl
    · refine .inr (.inr (.inr ⟨h1, fun b => ?_, run.trans ?_⟩))
      · by_contra hb
        exact h ((countOverflows_iff s).2 ⟨b, not_le.1 hb⟩)
      · show finish .count (if countOverflows s = true then _ else _) s = _
        rw [if_neg h]; rfl

/-- The counts that COUNT stores are exact where it succeeds (R80). -/
theorem entry_countTable_toNat {s : State} {b : Byte} (h : occursIn s b ≤ 2 ^ 32 - 1) :
    (entry (countTable s) b).toNat = occursIn s b := by
  rw [entry_countTable, BitVec.toNat_ofNat, Nat.mod_eq_of_lt (by omega)]

/-! ### ENCODE -/

/-- What ENCODE does, as a function of its operands: the complete list of packed bits, or the first error (R120, R165). -/
def encodeOutcome (s : State) : Except ErrorCode (List Bool) := do
  entryChecks s
  let tr ← buildTree s.ft
  let l ← packOutcome s.ft tr s.params [] (buffer s).reverse
  if s.params.outMax < ceil8 l.length + s.params.fwBytes then .error .outputFull else .ok l

/-- `t` is what ENCODE leaves of `s` when it has packed the bits `l` (R120, R124). -/
structure Encoded (l : List Bool) (s t : State) : Prop where
  err : t.err = 0#8
  bitcnt : t.bitcnt.toNat = l.length
  olen : t.olen.toNat = ceil8 l.length + s.params.fwBytes
  fits : t.olen.toNat ≤ s.params.outMax
  count : l.length ≤ maxBitCount s.params
  payload : ∀ a, a < ceil8 l.length → ∃ v, Memory.lookup t.out a = some v ∧
    ∀ j, j < 8 → v.getLsbD j = (l[8 * a + j]?).getD false
  footer : ∀ k, k < s.params.fwBytes →
    Memory.lookup t.out (ceil8 l.length + k) = some (BitVec.ofNat 8 (l.length / 2 ^ (8 * k)))
  above : ∀ a, t.olen.toNat ≤ a → Memory.lookup t.out a = none
  wf : Memory.wf s.out → Memory.wf t.out
  frame : t = { deliver t.olen t.bitcnt s with out := t.out }

theorem exec_encode_spec {s : State} (hp : s.params.Legal) :
    match encodeOutcome s with
    | .ok l => ∃ t, exec .encode s = .next t ∧ Encoded l s t
    | .error e => exec .encode s = .next (raiseError .encode e s) := by
  have run : exec .encode s = finish .encode (entryChecks s >>= fun _ =>
      build (setPhase .buildLeaves (setPhase .check s)) >>= fun u =>
      packSymbols u.ilen.toNat (setPhase .pack { u with bitcur := 0#64, cap := 0#64 }) >>= fun u =>
      trimAndFooter (setPhase .trimFooter u)) s := rfl
  rw [build_eq] at run
  rw [run, encodeOutcome]
  rcases entryChecks_cases s with ⟨-, h1⟩ | ⟨-, -, h1⟩ | ⟨-, h1⟩
  · rw [h1]; rfl
  · rw [h1]; rfl
  · rw [h1]
    simp only [setPhase_ft]
    cases h2 : buildTree s.ft with
    | error e => rfl
    | ok tr =>
      let u : State := { s with tree := tr, phase := .pack, bitcur := 0#64, cap := 0#64 }
      have hpack := packSymbols_spec (buildTree_built h2) s.ilen.toNat (l := []) (s := u) hp rfl
        ⟨rfl, Nat.zero_le _, Nat.zero_le _, Nat.zero_le _, fun a ha => absurd ha (Nat.not_lt_zero a)⟩
      have e1 : (List.range s.ilen.toNat).map u.inByte = buffer s := rfl
      rw [e1] at hpack
      have e2 : u.params = s.params := rfl
      rw [e2] at hpack
      show (match (packOutcome s.ft tr s.params [] (buffer s).reverse >>= fun l =>
          if s.params.outMax < ceil8 l.length + s.params.fwBytes then .error .outputFull else .ok l) with
        | .ok l => ∃ t, finish .encode (packSymbols s.ilen.toNat u >>= fun u => trimAndFooter (setPhase .trimFooter u)) s
            = .next t ∧ Encoded l s t
        | .error e => finish .encode (packSymbols s.ilen.toNat u >>= fun u => trimAndFooter (setPhase .trimFooter u)) s
            = .next (raiseError .encode e s))
      revert hpack
      cases packOutcome s.ft tr s.params [] (buffer s).reverse with
      | error e => intro hpack; dsimp only at hpack; rw [hpack]; rfl
      | ok l =>
        rintro ⟨v, h3, h4, h5⟩
        rw [h3]
        have hv : v.params = s.params := by rw [h5]
        have ht := trimAndFooter_spec (l := l) (s := setPhase .trimFooter v) (hv ▸ hp) ⟨h4.1, h4.2, h4.3, h4.4, h4.5⟩
        rw [setPhase_params, hv] at ht
        show (match (if s.params.outMax < ceil8 l.length + s.params.fwBytes then .error .outputFull else .ok l :
            Except ErrorCode (List Bool)) with
          | .ok l => ∃ t, finish .encode (trimAndFooter (setPhase .trimFooter v)) s = .next t ∧ Encoded l s t
          | .error e => finish .encode (trimAndFooter (setPhase .trimFooter v)) s = .next (raiseError .encode e s))
        split at ht
        · rename_i hlt
          rw [if_pos hlt, ht]; rfl
        · rename_i hlt
          rw [if_neg hlt]
          obtain ⟨t, g1, g2, g3, g4, g5, g6, g7, g8, g9, g10, g11⟩ := ht
          rw [g1]
          refine ⟨t, rfl, g2, g3, g4, by omega, hv ▸ h4.limit, g7, g8, fun a ha => g9 a (by omega), fun hw => ?_, ?_⟩
          · have : Memory.wf v.out := packSymbols_wf h3 hw
            exact g10 this
          · rw [g11, h5]
            rfl

theorem exec_encode_error {s : State} (hp : s.params.Legal) {e : ErrorCode} (h : encodeOutcome s = .error e) :
    exec .encode s = .next (raiseError .encode e s) := by
  have := exec_encode_spec hp
  rw [h] at this
  exact this

theorem exec_encode_ok {s : State} (hp : s.params.Legal) {l : List Bool} (h : encodeOutcome s = .ok l) :
    ∃ t, exec .encode s = .next t ∧ Encoded l s t := by
  have := exec_encode_spec hp
  rw [h] at this
  exact this

theorem encodeOutcome_of_build_error {s : State} (h : BufferFits s) {e : ErrorCode} (hb : buildTree s.ft = .error e) :
    encodeOutcome s = .error e := by
  rw [encodeOutcome, entryChecks_ok h, hb]; rfl

/-- ENCODE past its checks: the symbol loop, then the room for payload and footer. -/
theorem encodeOutcome_of_built {s : State} (h : BufferFits s) {tr : Tree} (hb : buildTree s.ft = .ok tr) :
    encodeOutcome s = (packOutcome s.ft tr s.params [] (buffer s).reverse >>= fun l =>
      if s.params.outMax < ceil8 l.length + s.params.fwBytes then .error .outputFull else .ok l) := by
  rw [encodeOutcome, entryChecks_ok h, hb]; rfl

/-- ENCODE of a buffer whose symbols all have a leaf. -/
theorem encodeOutcome_of_leaves {s : State} (h : BufferFits s) {tr : Tree} (hb : buildTree s.ft = .ok tr)
    (hl : ∀ b ∈ buffer s, entry s.ft b ≠ 0#32) :
    encodeOutcome s =
      if bitLimit s.params < (bufferCode tr s).length then .error (limitError s.params)
      else if s.params.outMax < ceil8 (bufferCode tr s).length + s.params.fwBytes then .error .outputFull
      else .ok (bufferCode tr s).reverse := by
  have hl' : ∀ b ∈ (buffer s).reverse, entry s.ft b ≠ 0#32 := fun b hb => hl b (by simpa using hb)
  rw [encodeOutcome_of_built h hb, packOutcome_all tr s.params hl' (Nat.zero_le _), length_flatMap_reverse,
    flatMap_reverse_codes, List.length_nil, Nat.zero_add, List.nil_append]
  simp only [← bufferCode.eq_def]
  by_cases h1 : bitLimit s.params < (bufferCode tr s).length
  · rw [if_neg (by omega), if_pos h1]; rfl
  · rw [if_pos (by omega), if_neg h1]
    show (if s.params.outMax < ceil8 (bufferCode tr s).reverse.length + s.params.fwBytes then _ else _) = _
    rw [List.length_reverse]

/-- What a successful ENCODE says of its operands (R120). -/
theorem encodeOutcome_ok {s : State} {l : List Bool} (h : encodeOutcome s = .ok l) :
    BufferFits s ∧ ∃ tr, buildTree s.ft = .ok tr ∧ (∀ b ∈ buffer s, entry s.ft b ≠ 0#32) ∧
      (bufferCode tr s).length ≤ bitLimit s.params ∧
      ceil8 (bufferCode tr s).length + s.params.fwBytes ≤ s.params.outMax ∧ l = (bufferCode tr s).reverse := by
  rcases entryChecks_cases s with ⟨-, h1⟩ | ⟨-, -, h1⟩ | ⟨hf, -⟩
  · rw [encodeOutcome, h1] at h; cases h
  · rw [encodeOutcome, h1] at h; cases h
  · refine ⟨hf, ?_⟩
    cases hb : buildTree s.ft with
    | error e => rw [encodeOutcome_of_build_error hf hb] at h; cases h
    | ok tr =>
      have hl : ∀ b ∈ buffer s, entry s.ft b ≠ 0#32 := by
        rw [encodeOutcome_of_built hf hb] at h
        cases hp : packOutcome s.ft tr s.params [] (buffer s).reverse with
        | error e => rw [hp] at h; cases h
        | ok l' =>
          intro b hb'
          exact (packOutcome_ok (Nat.zero_le _) hp).1 b (by simpa using hb')
      rw [encodeOutcome_of_leaves hf hb hl] at h
      split at h
      · cases h
      · split at h
        · cases h
        · cases h
          exact ⟨tr, rfl, hl, by omega, by omega, rfl⟩

/-! ### DECODE -/

/-- What DECODE does, as a function of its operands: the symbols delivered, or the first error (R130, R165). -/
def decodeOutcome (s : State) : Except ErrorCode (List Byte) := do
  entryChecks s
  let tr ← buildTree s.ft
  let bc ← readFooter s
  walkOutcome tr s.params tr.root [] (inStream s bc)

/-- `t` is what DECODE leaves of `s` when it has delivered the symbols `l` (R130, R140). -/
structure Decoded (l : List Byte) (s t : State) : Prop where
  err : t.err = 0#8
  olen : t.olen.toNat = l.length
  fits : t.olen.toNat ≤ s.params.outMax
  bitcnt : t.bitcnt.toNat = footerValue s
  bytes : ∀ a, Memory.lookup t.out a = l[a]?
  wf : Memory.wf s.out → Memory.wf t.out
  frame : t = { deliver t.olen t.bitcnt s with out := t.out }

theorem exec_decode_spec {s : State} (hp : s.params.Legal) :
    match decodeOutcome s with
    | .ok l => ∃ t, exec .decode s = .next t ∧ Decoded l s t
    | .error e => exec .decode s = .next (raiseError .decode e s) := by
  have run : exec .decode s = finish .decode (entryChecks s >>= fun _ =>
      build (setPhase .buildLeaves (setPhase .check s)) >>= fun u =>
      readFooter (setPhase .footerRead u) >>= fun bc =>
      walkBits bc (setPhase .walk { u with cur := u.tree.root, opos := 0#64 }) >>= fun u =>
      endWalk bc u) s := rfl
  rw [build_eq] at run
  rw [run, decodeOutcome]
  rcases entryChecks_cases s with ⟨-, h1⟩ | ⟨-, -, h1⟩ | ⟨-, h1⟩
  · rw [h1]; rfl
  · rw [h1]; rfl
  · rw [h1]
    simp only [setPhase_ft]
    cases h2 : buildTree s.ft with
    | error e => rfl
    | ok tr =>
      let u : State := { s with tree := tr, phase := .walk, cur := tr.root, opos := 0#64 }
      have hf : readFooter { s with tree := tr, phase := .footerRead } = readFooter s := readFooter_congr rfl rfl rfl rfl
      show (match (readFooter s >>= fun bc => walkOutcome tr s.params tr.root [] (inStream s bc)) with
        | .ok l => ∃ t, finish .decode (readFooter { s with tree := tr, phase := .footerRead } >>= fun bc =>
            walkBits bc u >>= fun u => endWalk bc u) s = .next t ∧ Decoded l s t
        | .error e => finish .decode (readFooter { s with tree := tr, phase := .footerRead } >>= fun bc =>
            walkBits bc u >>= fun u => endWalk bc u) s = .next (raiseError .decode e s))
      rw [hf]
      show (match (readFooter s >>= fun bc => walkOutcome tr s.params tr.root [] (inStream s bc)) with
        | .ok l => ∃ t, finish .decode (readFooter s >>= fun bc => walkBits bc u >>= fun u => endWalk bc u) s = .next t ∧
            Decoded l s t
        | .error e => finish .decode (readFooter s >>= fun bc => walkBits bc u >>= fun u => endWalk bc u) s =
            .next (raiseError .decode e s))
      rcases readFooter_cases s with ⟨-, h3⟩ | ⟨-, h3⟩
      · rw [h3]; rfl
      · rw [h3]
        have hw := walkBits_spec (tr := tr) (footerValue s) (l := []) (s := u) hp rfl
          ⟨rfl, Nat.zero_le _, fun a ha => absurd ha (Nat.not_lt_zero a)⟩
        show (match walkOutcome tr s.params tr.root [] (inStream s (footerValue s)) with
          | .ok l => ∃ t, finish .decode (walkBits (footerValue s) u >>= fun u => endWalk (footerValue s) u) s = .next t ∧
              Decoded l s t
          | .error e => finish .decode (walkBits (footerValue s) u >>= fun u => endWalk (footerValue s) u) s =
              .next (raiseError .decode e s))
        have e1 : inStream u (footerValue s) = inStream s (footerValue s) := rfl
        have e2 : u.params = s.params := rfl
        have e3 : u.cur = tr.root := rfl
        rw [e1, e2, e3] at hw
        revert hw
        cases walkOutcome tr s.params tr.root [] (inStream s (footerValue s)) with
        | error e =>
          cases e
          case danglingPath =>
            rintro ⟨t, g1, g2⟩
            dsimp only
            rw [g1]
            show finish .decode (endWalk (footerValue s) t) s = _
            rw [endWalk, if_neg g2]; rfl
          all_goals
            intro hw
            dsimp only at hw ⊢
            rw [hw]; rfl
        | ok l =>
          rintro ⟨t, g1, g2, g3, g4⟩
          have htr : t.tree = tr := by rw [g4]
          have hpt : t.params = s.params := by rw [g4]
          have hbc : (BitVec.ofNat 64 (footerValue s) : Word).toNat = footerValue s := by
            have := footerValue_le s; have := maxBitCount_lt s.params
            rw [BitVec.toNat_ofNat, Nat.mod_eq_of_lt (by omega)]
          refine ⟨deliver t.opos (BitVec.ofNat 64 (footerValue s)) (setPhase .release t), ?_, rfl, g2.opos, ?_, hbc,
            fun a => ?_, fun hwf => ?_, ?_⟩
          · rw [g1]
            show finish .decode (endWalk (footerValue s) t) s = _
            rw [endWalk, if_pos (by rw [g3, htr])]; rfl
          · have := g2.limit
            rw [hpt] at this
            show t.opos.toNat ≤ _
            rw [g2.opos]; exact this
          · show Memory.lookup (Memory.below t.opos.toNat t.out) a = _
            rw [Memory.lookup_below, g2.opos]
            split
            · exact g2.bytes a ‹_›
            · rw [List.getElem?_eq_none (by omega)]
          · have : Memory.wf t.out := walkBits_wf g1 hwf
            exact Memory.below_wf _ this
          · rw [g4]; rfl

theorem exec_decode_error {s : State} (hp : s.params.Legal) {e : ErrorCode} (h : decodeOutcome s = .error e) :
    exec .decode s = .next (raiseError .decode e s) := by
  have := exec_decode_spec hp
  rw [h] at this
  exact this

theorem exec_decode_ok {s : State} (hp : s.params.Legal) {l : List Byte} (h : decodeOutcome s = .ok l) :
    ∃ t, exec .decode s = .next t ∧ Decoded l s t := by
  have := exec_decode_spec hp
  rw [h] at this
  exact this

theorem decodeOutcome_of_build_error {s : State} (h : BufferFits s) {e : ErrorCode} (hb : buildTree s.ft = .error e) :
    decodeOutcome s = .error e := by
  rw [decodeOutcome, entryChecks_ok h, hb]; rfl

theorem decodeOutcome_of_no_footer {s : State} (h : BufferFits s) {tr : Tree} (hb : buildTree s.ft = .ok tr)
    (hf : ¬ FooterFits s) : decodeOutcome s = .error .truncatedStream := by
  rcases readFooter_cases s with ⟨-, e⟩ | ⟨h', -⟩
  · rw [decodeOutcome, entryChecks_ok h, hb]
    show (readFooter s >>= fun bc => walkOutcome tr s.params tr.root [] (inStream s bc)) = _
    rw [e]; rfl
  · exact absurd h' hf

/-- DECODE past its checks is the walk. -/
theorem decodeOutcome_of_built {s : State} (h : BufferFits s) {tr : Tree} (hb : buildTree s.ft = .ok tr)
    (hf : FooterFits s) :
    decodeOutcome s = walkOutcome tr s.params tr.root [] (inStream s (footerValue s)) := by
  rw [decodeOutcome, entryChecks_ok h, hb]
  show (readFooter s >>= fun bc => walkOutcome tr s.params tr.root [] (inStream s bc)) = _
  rw [readFooter_ok hf]; rfl

/-- DECODE as a case distinction on its checks (R165). -/
theorem decodeOutcome_cases (s : State) :
    (s.ilen = 0#64 ∧ decodeOutcome s = .error .emptyInput) ∨
    (s.ilen ≠ 0#64 ∧ s.params.inMax < s.ilen.toNat ∧ decodeOutcome s = .error .lengthRange) ∨
    (BufferFits s ∧ alphabet s.ft = [] ∧ decodeOutcome s = .error .emptyAlphabet) ∨
    (BufferFits s ∧ ¬ FooterFits s ∧ decodeOutcome s = .error .truncatedStream) ∨
    (BufferFits s ∧ FooterFits s ∧ ∃ tr, buildTree s.ft = .ok tr ∧ Built s.ft tr ∧
      decodeOutcome s = walkOutcome tr s.params tr.root [] (inStream s (footerValue s))) := by
  rcases entryChecks_cases s with ⟨h, h1⟩ | ⟨h, h', h1⟩ | ⟨hf, -⟩
  · exact .inl ⟨h, by rw [decodeOutcome, h1]; rfl⟩
  · exact .inr (.inl ⟨h, h', by rw [decodeOutcome, h1]; rfl⟩)
  · right; right
    by_cases ha : alphabet s.ft = []
    · exact .inl ⟨hf, ha, decodeOutcome_of_build_error hf (buildTree_empty ha)⟩
    · obtain ⟨tr, hb⟩ := buildTree_ok ha
      right
      by_cases hff : FooterFits s
      · exact .inr ⟨hf, hff, tr, hb, buildTree_built hb, decodeOutcome_of_built hf hb hff⟩
      · exact .inl ⟨hf, hff, decodeOutcome_of_no_footer hf hb hff⟩

/-! ### What every command does, whatever its operands and parameters -/

theorem writeBits_frame {bs : List Bool} {s t : State} (h : writeBits bs s = .ok t) :
    t = { s with bitcur := t.bitcur, cap := t.cap, out := t.out } := by
  induction bs generalizing s with
  | nil => cases h; rfl
  | cons b bs ih =>
    cases hc : writeBit b s with
    | error e => rw [writeBits, hc] at h; cases h
    | ok u =>
      rw [writeBits, hc] at h
      rw [ih h]
      suffices hu : u = { s with bitcur := u.bitcur, cap := u.cap, out := u.out } by rw [hu]
      unfold writeBit at hc
      split at hc
      · cases hc
      · unfold ensureCap grow at hc
        split at hc
        · split at hc
          · cases hc
          · cases hc; rfl
        · cases hc; rfl

theorem packSymbols_frame {n : Nat} {s t : State} (h : packSymbols n s = .ok t) :
    t = { s with bitcur := t.bitcur, cap := t.cap, out := t.out, sidx := t.sidx } := by
  induction n generalizing s with
  | zero => cases h; rfl
  | succ n ih =>
    cases hc : packSymbol n s with
    | error e => rw [packSymbols, hc] at h; cases h
    | ok u =>
      rw [packSymbols, hc] at h
      rw [ih h]
      suffices hu : u = { s with bitcur := u.bitcur, cap := u.cap, out := u.out, sidx := u.sidx } by rw [hu]
      unfold packSymbol at hc
      dsimp only at hc
      split at hc
      · cases hc
      · rw [writeBits_frame hc]

theorem walkBits_frame {n : Nat} {s t : State} (h : walkBits n s = .ok t) :
    t = { s with bitcur := t.bitcur, cur := t.cur, out := t.out, opos := t.opos } := by
  induction n generalizing s with
  | zero => cases h; rfl
  | succ n ih =>
    cases hc : walkBit n s with
    | error e => rw [walkBits, hc] at h; cases h
    | ok u =>
      rw [walkBits, hc] at h
      rw [ih h]
      suffices hu : u = { s with bitcur := u.bitcur, cur := u.cur, out := u.out, opos := u.opos } by rw [hu]
      unfold walkBit emit at hc
      dsimp only at hc
      split at hc
      · cases hc
      · split at hc
        · split at hc
          · cases hc
          · cases hc; rfl
        · cases hc; rfl

/-- A successful ENCODE changes the result, `OUT` and the cursors alone (R120). -/
theorem runEncode_frame {s t : State} (h : runEncode s = .ok t) :
    t = { deliver t.olen t.bitcnt s with out := t.out } ∧ ∀ a, t.olen.toNat ≤ a → Memory.lookup t.out a = none := by
  have run : runEncode s = (entryChecks s >>= fun _ =>
      build (setPhase .buildLeaves (setPhase .check s)) >>= fun u =>
      packSymbols u.ilen.toNat (setPhase .pack { u with bitcur := 0#64, cap := 0#64 }) >>= fun u =>
      trimAndFooter (setPhase .trimFooter u)) := rfl
  rw [build_eq] at run
  rw [run] at h
  rcases entryChecks_cases s with ⟨-, h1⟩ | ⟨-, -, h1⟩ | ⟨-, h1⟩ <;> rw [h1] at h
  · cases h
  · cases h
  · simp only [setPhase_ft] at h
    cases h2 : buildTree s.ft with
    | error e => rw [h2] at h; cases h
    | ok tr =>
      rw [h2] at h
      cases h3 : packSymbols s.ilen.toNat { s with tree := tr, phase := .pack, bitcur := 0#64, cap := 0#64 } with
      | error e =>
        have h' : (packSymbols s.ilen.toNat { s with tree := tr, phase := .pack, bitcur := 0#64, cap := 0#64 } >>=
          fun u => trimAndFooter (setPhase .trimFooter u)) = .ok t := h
        rw [h3] at h'; cases h'
      | ok v =>
        have h' : (packSymbols s.ilen.toNat { s with tree := tr, phase := .pack, bitcur := 0#64, cap := 0#64 } >>=
          fun u => trimAndFooter (setPhase .trimFooter u)) = .ok t := h
        rw [h3] at h'
        have hv := packSymbols_frame h3
        have h'' : trimAndFooter (setPhase .trimFooter v) = .ok t := h'
        unfold trimAndFooter at h''
        dsimp only at h''
        split at h''
        · cases h''
        · rw [writeFooter_frame] at h''
          cases h''
          refine ⟨?_, fun a ha => ?_⟩
          · rw [hv]; rfl
          · exact (Memory.lookup_below _ _ a).trans (if_neg (not_lt.2 ha))

/-- A successful DECODE changes the result, `OUT` and the cursors alone (R130). -/
theorem runDecode_frame {s t : State} (h : runDecode s = .ok t) :
    t = { deliver t.olen t.bitcnt s with out := t.out } ∧ ∀ a, t.olen.toNat ≤ a → Memory.lookup t.out a = none := by
  have run : runDecode s = (entryChecks s >>= fun _ =>
      build (setPhase .buildLeaves (setPhase .check s)) >>= fun u =>
      readFooter (setPhase .footerRead u) >>= fun bc =>
      walkBits bc (setPhase .walk { u with cur := u.tree.root, opos := 0#64 }) >>= fun u =>
      endWalk bc u) := rfl
  rw [build_eq] at run
  rw [run] at h
  rcases entryChecks_cases s with ⟨-, h1⟩ | ⟨-, -, h1⟩ | ⟨-, h1⟩ <;> rw [h1] at h
  · cases h
  · cases h
  · simp only [setPhase_ft] at h
    cases h2 : buildTree s.ft with
    | error e => rw [h2] at h; cases h
    | ok tr =>
      rw [h2] at h
      have h' : (readFooter { s with tree := tr, phase := .footerRead } >>= fun bc =>
        walkBits bc { s with tree := tr, phase := .walk, cur := tr.root, opos := 0#64 } >>= fun u =>
        endWalk bc u) = .ok t := h
      cases h3 : readFooter { s with tree := tr, phase := .footerRead } with
      | error e => rw [h3] at h'; cases h'
      | ok bc =>
        rw [h3] at h'
        cases h4 : walkBits bc { s with tree := tr, phase := .walk, cur := tr.root, opos := 0#64 } with
        | error e =>
          have h'' : (walkBits bc { s with tree := tr, phase := .walk, cur := tr.root, opos := 0#64 } >>= fun u =>
            endWalk bc u) = .ok t := h'
          rw [h4] at h''; cases h''
        | ok v =>
          have h'' : (walkBits bc { s with tree := tr, phase := .walk, cur := tr.root, opos := 0#64 } >>= fun u =>
            endWalk bc u) = .ok t := h'
          rw [h4] at h''
          have h5 : endWalk bc v = .ok t := h''
          unfold endWalk at h5
          split at h5
          · cases h5
            refine ⟨?_, fun a ha => (Memory.lookup_below _ _ a).trans (if_neg (not_lt.2 ha))⟩
            rw [walkBits_frame h4]; rfl
          · cases h5

/-- A command answers a next state: a success, or what `raise` leaves (R160, R175). -/
theorem exec_cases (i : Instr) (s : State) :
    (∃ e, exec i s = .next (raiseError i e s)) ∨
    (∃ t, exec i s = .next t ∧ t.err = 0#8 ∧
      ((i = .count ∧ BufferFits s ∧ (∀ b, occursIn s b ≤ 2 ^ 32 - 1) ∧
          t = { s with ft := countTable s, err := 0#8, phase := .idle }) ∨
       (i ≠ .count ∧ t = { deliver t.olen t.bitcnt s with out := t.out } ∧
          ∀ a, t.olen.toNat ≤ a → Memory.lookup t.out a = none))) := by
  cases i with
  | count =>
    rcases exec_count_cases s with ⟨-, h⟩ | ⟨-, -, h⟩ | ⟨-, -, h⟩ | ⟨h1, h2, h⟩
    · exact .inl ⟨_, h⟩
    · exact .inl ⟨_, h⟩
    · exact .inl ⟨_, h⟩
    · exact .inr ⟨_, h, rfl, .inl ⟨rfl, h1, h2, rfl⟩⟩
  | encode =>
    have run : exec .encode s = finish .encode (runEncode s) s := rfl
    cases h : runEncode s with
    | error e => rw [h] at run; exact .inl ⟨e, run⟩
    | ok t =>
      rw [h] at run
      obtain ⟨h1, h2⟩ := runEncode_frame h
      exact .inr ⟨t, run, by rw [h1]; rfl, .inr ⟨by simp, h1, h2⟩⟩
  | decode =>
    have run : exec .decode s = finish .decode (runDecode s) s := rfl
    cases h : runDecode s with
    | error e => rw [h] at run; exact .inl ⟨e, run⟩
    | ok t =>
      rw [h] at run
      obtain ⟨h1, h2⟩ := runDecode_frame h
      exact .inr ⟨t, run, by rw [h1]; rfl, .inr ⟨by simp, h1, h2⟩⟩

/-- What no command changes, and the phase in which it ends (R27, R62). -/
theorem exec_keeps {i : Instr} {s t : State} (h : exec i s = .next t) :
    t.params = s.params ∧ t.ilen = s.ilen ∧ t.inMem = s.inMem ∧ t.inSeed = s.inSeed ∧ t.host = s.host ∧
      (i ≠ .count → t.ft = s.ft) ∧ t.phase = .idle ∧ t.err.toNat ≤ 11 := by
  rcases exec_cases i s with ⟨e, he⟩ | ⟨u, hu, -, ⟨hi, -, -, h1⟩ | ⟨hi, h1, -⟩⟩
  · rw [h] at he
    obtain rfl : t = _ := by injection he
    have := code_le e
    cases i <;> exact ⟨rfl, rfl, rfl, rfl, rfl, fun hc => by first | exact absurd rfl hc | rfl, rfl, this⟩
  · rw [h] at hu
    obtain rfl : t = u := by injection hu
    rw [h1]
    exact ⟨rfl, rfl, rfl, rfl, rfl, fun hc => absurd hi hc, rfl, Nat.zero_le _⟩
  · rw [h] at hu
    obtain rfl : t = u := by injection hu
    rw [h1]
    exact ⟨rfl, rfl, rfl, rfl, rfl, fun _ => rfl, rfl, Nat.zero_le _⟩

end Sys2Proof.Machine
end

