-- ==== Sys2Proof/Laws/Step.lean ====
section
/-! SUPPORT. The laws of the step: the move it takes, and a run of moves. -/

namespace Sys2Proof.Machine

theorem step_move {s : State} {m : HostMove} {rest : List HostMove} (h1 : s.phase = .idle) (h2 : s.host = m :: rest) :
    step s = takeMove m { s with host := rest } := by
  rw [step, if_pos h1, serveHost, h2]

/-- A step that answers a next state is of the idle block, and takes the host's next move if there is one. -/
theorem step_cases {s t : State} (h : step s = .next t) :
    s.phase = .idle ∧ ((s.host = [] ∧ t = s) ∨
      ∃ m rest, s.host = m :: rest ∧ takeMove m { s with host := rest } = .next t) := by
  by_cases h1 : s.phase = .idle
  · refine ⟨h1, ?_⟩
    cases h2 : s.host with
    | nil =>
      rw [step, if_pos h1, serveHost, h2] at h
      exact .inl ⟨rfl, by injection h with h; exact h.symm⟩
    | cons m rest =>
      rw [step_move h1 h2] at h
      exact .inr ⟨m, rest, rfl, h⟩
  · rw [step, if_neg h1] at h
    cases h

/-- What a move that answers a next state does: a command, IllegalCommandError, a register write, an `FT` write, an `IN`
write, or the reset event (R10, R15, R17, R18, R64, R180). -/
theorem takeMove_cases {m : HostMove} {s t : State} (h : takeMove m s = .next t) :
    (∃ v i, m = .writeReg 0 v ∧ decode (v.setWidth 8) = .ok i ∧ exec i s = .next t) ∨
    (∃ v, m = .writeReg 0 v ∧ t = illegalCommand s) ∨
    (∃ v, m = .writeReg 2 v ∧ t = { s with ilen := v }) ∨
    (∃ n v, m = .writeReg n v ∧ n ≠ 0 ∧ n ≠ 2 ∧ t = s) ∨
    (∃ b v, m = .writeFt b v ∧ t = { s with ft := setEntry s.ft b v }) ∨
    (∃ a v, m = .writeIn a v ∧ a < s.params.inMax ∧ t = writeIn a v s) ∨
    (m = .reset ∧ t = resetEvent s) := by
  cases m with
  | writeReg n v =>
    by_cases h0 : n = 0
    · subst h0
      have h : startCommand (v.setWidth 8) s = .next t := h
      unfold startCommand at h
      cases hd : decode (v.setWidth 8) with
      | ok i => rw [hd] at h; exact .inl ⟨v, i, rfl, hd, h⟩
      | error e =>
        rw [hd] at h
        exact .inr (.inl ⟨v, rfl, by injection h with h; exact h.symm⟩)
    · by_cases h2 : n = 2
      · subst h2
        have h : Host.Outcome.next _ = .next t := h
        exact .inr (.inr (.inl ⟨v, rfl, by injection h with h; exact h.symm⟩))
      · have e : takeMove (.writeReg n v) s = .next s := by
          show hostWriteReg n v s = _
          unfold hostWriteReg
          split
          · exact absurd rfl h0
          · exact absurd rfl h2
          · rfl
        rw [e] at h
        exact .inr (.inr (.inr (.inl ⟨n, v, rfl, h0, h2, by injection h with h; exact h.symm⟩)))
  | writeFt b v =>
    have h : Host.Outcome.next _ = .next t := h
    exact .inr (.inr (.inr (.inr (.inl ⟨b, v, rfl, by injection h with h; exact h.symm⟩))))
  | writeIn a v =>
    have h : hostWriteIn a v s = .next t := h
    unfold hostWriteIn at h
    split at h
    · exact .inr (.inr (.inr (.inr (.inr (.inl ⟨a, v, rfl, ‹_›, by injection h with h; exact h.symm⟩)))))
    · cases h
  | reset =>
    have h : Host.Outcome.next _ = .next t := h
    exact .inr (.inr (.inr (.inr (.inr (.inr ⟨rfl, by injection h with h; exact h.symm⟩)))))

theorem run_next {s t : State} {k : Nat} (h : step s = .next t) :
    Host.Core.run Sys2Proof.core (k + 1) s = Host.Core.run Sys2Proof.core k t := by
  have h' : Sys2Proof.core.step s = .next t := h
  simp only [Host.Core.run, h']

/-- A run of writes to consecutive addresses of `IN` (R71): those bytes read as written, every other as before, and
nothing else has changed. -/
theorem run_writeBytes (bs : List Byte) {a : Nat} {s : State} {rest : List HostMove} (k : Nat) (h1 : s.phase = .idle)
    (h2 : s.host = writeBytes a bs ++ rest) (h3 : a + bs.length ≤ s.params.inMax) :
    ∃ t, Host.Core.run Sys2Proof.core (bs.length + k) s = Host.Core.run Sys2Proof.core k t ∧
      t = { s with host := rest, inMem := t.inMem } ∧
      ∀ c, t.inByte c = if a ≤ c ∧ c < a + bs.length then bs.getD (c - a) 0#8 else s.inByte c := by
  induction bs generalizing a s with
  | nil => exact ⟨s, by simp, by rw [← show s.host = rest from h2], fun c => by rw [if_neg (by simp)]⟩
  | cons b bs ih =>
    simp only [List.length_cons] at h3 ⊢
    have hs : step s = .next (writeIn a b { s with host := writeBytes (a + 1) bs ++ rest }) := by
      rw [step_move h1 h2]
      exact if_pos (show a < s.params.inMax by omega)
    obtain ⟨t, g1, g2, g3⟩ := ih (a := a + 1) (s := writeIn a b { s with host := writeBytes (a + 1) bs ++ rest })
      h1 rfl (show a + 1 + bs.length ≤ s.params.inMax by omega)
    refine ⟨t, by rw [show bs.length + 1 + k = (bs.length + k) + 1 by omega, run_next hs, g1], by rw [g2]; rfl, ?_⟩
    intro c
    rw [g3 c, inByte_writeIn]
    by_cases hc : c = a
    · subst hc
      rw [if_neg (by omega), if_pos rfl, if_pos (by omega), Nat.sub_self]
      rfl
    · rw [if_neg hc]
      by_cases hc2 : a + 1 ≤ c ∧ c < a + 1 + bs.length
      · rw [if_pos hc2, if_pos (by omega), show c - a = (c - (a + 1)) + 1 by omega]
        rfl
      · rw [if_neg hc2, if_neg (by omega)]
        rfl

theorem writeBytes_length (a : Nat) (bs : List Byte) : (writeBytes a bs).length = bs.length := by
  induction bs generalizing a with
  | nil => rfl
  | cons b bs ih => simp [writeBytes, ih]

end Sys2Proof.Machine
end

