-- ==== Sys2Proof/Laws/Outcome.lean ====
section
/-! SUPPORT. The outcomes of ENCODE and DECODE in the terms of claims: which outcome a command had, its errors, its result
as a stream of bits or a list of symbols, and what the outcome depends on. -/

namespace Sys2Proof.Machine

/-! ### Which outcome a next state comes from -/

theorem encode_next_cases {s t : State} (hp : s.params.Legal) (h : exec .encode s = .next t) :
    (∃ l, encodeOutcome s = .ok l ∧ Encoded l s t) ∨ (∃ e, encodeOutcome s = .error e ∧ t = raiseError .encode e s) := by
  cases ho : encodeOutcome s with
  | ok l =>
    obtain ⟨u, h1, h2⟩ := exec_encode_ok hp ho
    rw [h] at h1
    injection h1 with h1
    subst h1
    exact .inl ⟨l, rfl, h2⟩
  | error e =>
    have h1 := exec_encode_error hp ho
    rw [h] at h1
    injection h1 with h1
    exact .inr ⟨e, rfl, h1⟩

theorem decode_next_cases {s t : State} (hp : s.params.Legal) (h : exec .decode s = .next t) :
    (∃ l, decodeOutcome s = .ok l ∧ Decoded l s t) ∨ (∃ e, decodeOutcome s = .error e ∧ t = raiseError .decode e s) := by
  cases ho : decodeOutcome s with
  | ok l =>
    obtain ⟨u, h1, h2⟩ := exec_decode_ok hp ho
    rw [h] at h1
    injection h1 with h1
    subst h1
    exact .inl ⟨l, rfl, h2⟩
  | error e =>
    have h1 := exec_decode_error hp ho
    rw [h] at h1
    injection h1 with h1
    exact .inr ⟨e, rfl, h1⟩

/-- The errors of ENCODE and what each says of its operands (R165). -/
theorem encodeOutcome_error {s : State} {e : ErrorCode} (h : encodeOutcome s = .error e) :
    e = .emptyInput ∨ e = .lengthRange ∨ (e = .emptyAlphabet ∧ alphabet s.ft = []) ∨
      (e = .symbolNotInTree ∧ ∃ b ∈ buffer s, entry s.ft b = 0#32) ∨ (e = .footerOverflow ∨ e = .outputFull) := by
  rcases entryChecks_cases s with ⟨-, h1⟩ | ⟨-, -, h1⟩ | ⟨hf, -⟩
  · rw [encodeOutcome, h1] at h; cases h; exact .inl rfl
  · rw [encodeOutcome, h1] at h; cases h; exact .inr (.inl rfl)
  · by_cases ha : alphabet s.ft = []
    · rw [encodeOutcome_of_build_error hf (buildTree_empty ha)] at h
      cases h
      exact .inr (.inr (.inl ⟨rfl, ha⟩))
    · obtain ⟨tr, hb⟩ := buildTree_ok ha
      rw [encodeOutcome_of_built hf hb] at h
      cases hp : packOutcome s.ft tr s.params [] (buffer s).reverse with
      | error e' =>
        rw [hp] at h
        have e0 : e' = e := by injection h
        subst e0
        rcases packOutcome_error hp with ⟨h1, b, h2, h3⟩ | h1
        · exact .inr (.inr (.inr (.inl ⟨h1, b, by simpa using h2, h3⟩)))
        · unfold limitError at h1
          split at h1 <;> simp [h1]
      | ok l =>
        rw [hp] at h
        have h : (if s.params.outMax < ceil8 l.length + s.params.fwBytes then Except.error ErrorCode.outputFull
          else Except.ok l) = Except.error e := h
        split at h <;> cases h
        simp

/-- No buffer of an input memory that R5 allows has as many bits as an 8-byte footer counts (R158). -/
theorem packOutcome_ne_footerOverflow {ft : Vector Count 256} {tr : Tree} (hB : Built ft tr) {p : Params}
    (hw : p.fw = .w8) (bs : List Byte) {l : List Bool} (hl : l.length + 255 * bs.length < 2 ^ 64 - 1) :
    packOutcome ft tr p l bs ≠ .error .footerOverflow := by
  have hm : maxBitCount p = 2 ^ 64 - 1 := by
    unfold maxBitCount
    rw [show p.fwBytes = 8 by unfold Params.fwBytes; rw [hw]]
  induction bs generalizing l with
  | nil => intro h; cases h
  | cons b bs ih =>
    intro h
    rw [packOutcome] at h
    simp only [List.length_cons] at hl
    split at h
    · cases h
    · rename_i hz
      have hc := hB.storedCode_length (mem_alphabet.2 hz)
      split at h
      · exact ih (by simp; omega) h
      · rename_i hnl
        have h : limitError p = .footerOverflow := by injection h
        unfold limitError at h
        by_cases hle : maxBitCount p ≤ 8 * p.outMax
        · unfold bitLimit at hnl; omega
        · rw [if_neg hle] at h; cases h

/-! ### The results -/

theorem Encoded.same {l : List Bool} {s t : State} (h : Encoded l s t) : SameInputs s t := by
  rw [h.frame]; exact ⟨rfl, rfl, rfl, rfl, rfl, rfl⟩

theorem Decoded.same {l : List Byte} {s t : State} (h : Decoded l s t) : SameInputs s t := by
  rw [h.frame]; exact ⟨rfl, rfl, rfl, rfl, rfl, rfl⟩

/-- A bit of the payload: the packed bit, 0 in the padding. -/
theorem Encoded.bit {l : List Bool} {s t : State} (h : Encoded l s t) (p : Nat) (hp : p / 8 < ceil8 l.length) :
    outBit t p = (l[p]?).getD false := by
  obtain ⟨v, hv, hb⟩ := h.payload (p / 8) hp
  unfold outBit State.outByte
  rw [hv, Option.getD_some, hb _ (Nat.mod_lt _ (by omega)), Nat.div_add_mod]

/-- The payload read downward is the packed bits in reverse order of writing. -/
theorem Encoded.stream {l : List Bool} {s t : State} (h : Encoded l s t) : outStream t l.length = l.reverse := by
  unfold outStream
  congr 1
  apply List.ext_getElem
  · simp
  · intro i h1 h2
    simp only [List.getElem_map, List.getElem_range]
    rw [h.bit i (by unfold ceil8; omega), List.getElem?_eq_getElem h2]
    rfl

theorem Decoded.result {l : List Byte} {s t : State} (h : Decoded l s t) : result t = l := by
  unfold Machine.result
  apply List.ext_getElem
  · simp [h.olen]
  · intro i h1 h2
    simp only [List.getElem_map, List.getElem_range]
    unfold State.outByte
    rw [h.bytes, List.getElem?_eq_getElem h2]
    rfl

/-! ### Streams and codes -/

theorem inStream_length (s : State) (n : Nat) : (inStream s n).length = n := by simp [inStream]

theorem getElem_inStream (s : State) (n i : Nat) (h : i < (inStream s n).length) :
    (inStream s n)[i] = streamBit s (n - 1 - i) := by simp [inStream]

theorem inStream_congr {s u : State} {n : Nat} (h : ∀ p, p < n → streamBit u p = streamBit s p) :
    inStream u n = inStream s n := by
  unfold inStream
  congr 1
  exact List.map_congr_left fun a ha => h a (List.mem_range.1 ha)

/-- Each code has at least one bit and at most 255 (R101, R129). -/
theorem Built.codes_length {ft : Vector Count 256} {tr : Tree} (hB : Built ft tr) (bs : List Byte)
    (h : ∀ b ∈ bs, entry ft b ≠ 0#32) :
    bs.length ≤ (bs.flatMap (storedCode tr)).length ∧ (bs.flatMap (storedCode tr)).length ≤ 255 * bs.length := by
  induction bs with
  | nil => simp
  | cons b bs ih =>
    have := ih (fun c hc => h c (by simp [hc]))
    have h2 := hB.storedCode_length (mem_alphabet.2 (h b (by simp)))
    simp only [List.flatMap_cons, List.length_append, List.length_cons]
    omega

/-- In the single-symbol tree the code is the bit 0 (R98). -/
theorem Built.single_code {ft : Vector Count 256} {t : Tree} {b : Byte} (hb : Built ft t) (h : alphabet ft = [b]) :
    storedCode t b = [false] := by
  have hm : b ∈ alphabet ft := by rw [h]; simp
  have hroot : t.root.toNat = 1 := by
    have a := hb.nodeCount
    have c := hb.rootIdx
    rw [if_pos (by rw [h]; rfl)] at a
    omega
  have hlen : t.node.length = 2 := by have := hb.rootIdx; omega
  rcases hb.select_cases (i := 1) (by rw [h]; simp) (by omega) false with ⟨c, hc, -, hd⟩ | ⟨-, -, -, h3⟩
  · obtain rfl : c = 0 := by omega
    have hroot' := hb.down_root
    rw [hroot] at hroot'
    rw [hb.storedCode_eq hm, h]
    simp only [List.idxOf_cons_self]
    rw [hd, hroot']
    rfl
  · cases h3

theorem Built.single_codes {ft : Vector Count 256} {tr : Tree} {b : Byte} (hB : Built ft tr) (ha : alphabet ft = [b])
    (bs : List Byte) (h : ∀ c ∈ bs, c = b) : bs.flatMap (storedCode tr) = List.replicate bs.length false := by
  induction bs with
  | nil => rfl
  | cons c bs ih =>
    rw [List.flatMap_cons, ih (fun d hd => h d (by simp [hd])), h c (by simp), hB.single_code ha]
    rfl

/-! ### What an outcome depends on -/

theorem buffer_congr {s u : State} (h1 : u.ilen = s.ilen) (h2 : ∀ a, a < s.ilen.toNat → u.inByte a = s.inByte a) :
    buffer u = buffer s := by
  unfold buffer
  rw [h1]
  exact List.map_congr_left fun a ha => h2 a (List.mem_range.1 ha)

theorem packOutcome_congr {ft : Vector Count 256} {tr : Tree} {p q : Params} (h : bitLimit p = bitLimit q)
    (h2 : limitError p = limitError q) (l : List Bool) (bs : List Byte) :
    packOutcome ft tr p l bs = packOutcome ft tr q l bs := by
  induction bs generalizing l with
  | nil => rfl
  | cons b bs ih => simp only [packOutcome, h, h2, ih]

theorem walkOutcome_congr {tr : Tree} {p q : Params} (h : p.outMax = q.outMax) (cur : NodeIdx) (l : List Byte)
    (bs : List Bool) : walkOutcome tr p cur l bs = walkOutcome tr q cur l bs := by
  induction bs generalizing l cur with
  | nil => rfl
  | cons b bs ih => simp only [walkOutcome, h, ih]

/-- The growth increment is no operand of ENCODE (R115), nor is a byte beyond the buffer (R55). -/
theorem encodeOutcome_congr {s u : State} (h1 : u.ilen = s.ilen) (h2 : u.ft = s.ft)
    (h3 : u.params.inMax = s.params.inMax) (h4 : u.params.outMax = s.params.outMax) (h5 : u.params.fw = s.params.fw)
    (h6 : ∀ a, a < s.ilen.toNat → u.inByte a = s.inByte a) : encodeOutcome u = encodeOutcome s := by
  have hb := buffer_congr h1 h6
  have hf : u.params.fwBytes = s.params.fwBytes := by unfold Params.fwBytes; rw [h5]
  have hl : bitLimit u.params = bitLimit s.params := by unfold bitLimit maxBitCount; rw [hf, h4]
  have hle : limitError u.params = limitError s.params := by unfold limitError maxBitCount; rw [hf, h4]
  have he : entryChecks u = entryChecks s := by unfold entryChecks; rw [h1, h3]
  unfold encodeOutcome
  simp only [hb, hf, he, h2, h4, packOutcome_congr hl hle]

/-- DECODE depends on the footer value and the stream bits below it (R134, R145). -/
theorem decodeOutcome_congr {s u : State} (h1 : u.ilen = s.ilen) (h2 : u.ft = s.ft)
    (h3 : u.params.inMax = s.params.inMax) (h4 : u.params.outMax = s.params.outMax) (h5 : u.params.fw = s.params.fw)
    (h6 : footerValue u = footerValue s) (h7 : inStream u (footerValue s) = inStream s (footerValue s)) :
    decodeOutcome u = decodeOutcome s := by
  have hf : u.params.fwBytes = s.params.fwBytes := by unfold Params.fwBytes; rw [h5]
  have he : entryChecks u = entryChecks s := by unfold entryChecks; rw [h1, h3]
  have hr : readFooter u = readFooter s := by unfold readFooter; rw [h1, hf, h6]
  unfold decodeOutcome
  rw [he, h2, hr]
  cases entryChecks s with
  | error e => rfl
  | ok _ =>
    cases buildTree s.ft with
    | error e => rfl
    | ok tr =>
      show (readFooter s >>= fun bc => walkOutcome tr u.params tr.root [] (inStream u bc)) =
        (readFooter s >>= fun bc => walkOutcome tr s.params tr.root [] (inStream s bc))
      rcases readFooter_cases s with ⟨-, h⟩ | ⟨-, h⟩
      · rw [h]; rfl
      · rw [h]
        show walkOutcome tr u.params tr.root [] (inStream u (footerValue s)) =
          walkOutcome tr s.params tr.root [] (inStream s (footerValue s))
        rw [h7, walkOutcome_congr h4]

/-- Two ENCODEs with the same bits leave the same `OUT`, lengths and counts. -/
theorem Encoded.unique {l : List Bool} {s t u v : State} (h1 : Encoded l s t) (h2 : Encoded l u v)
    (hw1 : Memory.wf s.out) (hw2 : Memory.wf u.out) (hp : u.params.fwBytes = s.params.fwBytes) :
    v.out = t.out ∧ v.olen = t.olen ∧ v.bitcnt = t.bitcnt := by
  have e1 : v.olen = t.olen := BitVec.eq_of_toNat_eq (by rw [h1.olen, h2.olen, hp])
  have e2 : v.bitcnt = t.bitcnt := BitVec.eq_of_toNat_eq (by rw [h1.bitcnt, h2.bitcnt])
  refine ⟨Memory.ext_of_wf (h2.wf hw2) (h1.wf hw1) ?_, e1, e2⟩
  intro a
  by_cases ha : a < ceil8 l.length
  · obtain ⟨x, hx, hx'⟩ := h1.payload a ha
    obtain ⟨y, hy, hy'⟩ := h2.payload a ha
    rw [hx, hy]
    congr 1
    apply BitVec.eq_of_getLsbD_eq
    intro i hi
    rw [hx' i hi, hy' i hi]
  · by_cases ha2 : a < t.olen.toNat
    · have a1 := h1.footer (a - ceil8 l.length) (by have := h1.olen; omega)
      have a2 := h2.footer (a - ceil8 l.length) (by have := h1.olen; omega)
      rw [show ceil8 l.length + (a - ceil8 l.length) = a by omega] at a1 a2
      rw [a1, a2]
    · rw [h1.above a (by omega), h2.above a (by rw [e1]; omega)]

/-- Two DECODEs with the same symbols and the same footer leave the same `OUT`, lengths and counts. -/
theorem Decoded.unique {l : List Byte} {s t u v : State} (h1 : Decoded l s t) (h2 : Decoded l u v)
    (hw1 : Memory.wf s.out) (hw2 : Memory.wf u.out) (hf : footerValue u = footerValue s) :
    v.out = t.out ∧ v.olen = t.olen ∧ v.bitcnt = t.bitcnt := by
  have e1 : v.olen = t.olen := BitVec.eq_of_toNat_eq (by rw [h1.olen, h2.olen])
  have e2 : v.bitcnt = t.bitcnt := BitVec.eq_of_toNat_eq (by rw [h1.bitcnt, h2.bitcnt, hf])
  exact ⟨Memory.ext_of_wf (h2.wf hw2) (h1.wf hw1) fun a => by rw [h1.bytes, h2.bytes], e1, e2⟩

end Sys2Proof.Machine
end

