-- ==== Sys2Proof/Laws/PerInstr.lean ====
section
/-! SUPPORT. What holds of every command as syntax, one lemma per constructor. -/

namespace Sys2Proof.Laws.Encoding

open Sys2Proof

/-- A command is well formed, its word is 8 bits with the value the opcode table gives it, and exactly one row of the
table answers to that word: the command's own (R60, R61, R73). -/
def Statement (i : Instr) : Prop :=
  i.WellFormed = true ∧ (opcodeTable.filter (fun r => r.answers (encode i))).map OpcodeRow.instr = [i]

theorem count : Statement .count := by unfold Statement; decide

theorem encode : Statement .encode := by unfold Statement; decide

theorem decode : Statement .decode := by unfold Statement; decide

end Sys2Proof.Laws.Encoding
end

