-- ==== Sys2Proof/Tests/Slice0.lean ====
section
/-! SUPPORT. The model's own tests: well-formedness, decoding, one step of each command on the spec's vectors
(spec/95_test_vectors.md), and for each statement that has hypotheses a witness that meets them. -/

namespace Sys2Proof.Tests

open Sys2Proof.Machine

/-! ### Helpers: small states, and outcomes as a test can look at them -/

/-- The parameters of the spec's vectors (95_test_vectors.md: `FW = 4`, `CHUNK = 16`), with small memories. -/
def params4 : Params := ⟨.w4, 16, 64, 64⟩

/-- The table with the listed entries, 0 elsewhere. -/
def tableOf (l : List (Byte × Count)) : Vector Count 256 :=
  l.foldl (fun v x => setEntry v x.1 x.2) (Vector.replicate 256 0#32)

/-- The bytes of a space from address 0 on. -/
def bytesFrom0 (l : List Byte) : Memory := (List.range l.length).zip l

/-- An idle machine with a table and an input buffer. -/
def machine (p : Params) (ft : Vector Count 256) (input : List Byte) : State where
  params := p
  ft := ft
  ilen := BitVec.ofNat 64 input.length
  olen := 0#64
  bitcnt := 0#64
  err := 0#8
  inMem := bytesFrom0 input
  out := []
  tree := Tree.released
  phase := .idle
  bitcur := 0#64
  sidx := 0#64
  opos := 0#64
  cap := 0#64
  cur := 0#9
  inSeed := 0
  outSeed := 0
  host := []

/-- The outcome is a next state that passes a check. -/
def outcomeIs (o : Host.Outcome State Fault Refusal) (p : State → Bool) : Bool :=
  match o with
  | .next t => p t
  | .fault _ => false
  | .refused _ => false

theorem exists_next {o : Host.Outcome State Fault Refusal} {p : State → Bool} (h : outcomeIs o p = true) :
    ∃ t, o = .next t ∧ p t = true := by
  cases o with
  | next t => exact ⟨t, rfl, h⟩
  | fault _ => cases h
  | refused _ => cases h

/-- The next state has an error code. -/
def endsWith (e : BitVec 8) (t : State) : Bool := t.err == e

theorem of_endsWith {e : BitVec 8} {t : State} (h : endsWith e t = true) : t.err = e := beq_iff_eq.1 h

/-- The next state has a result. -/
def delivers (bytes : List Byte) (bits : Nat) (t : State) : Bool :=
  t.err == 0#8 && t.olen.toNat == bytes.length && t.bitcnt.toNat == bits && t.out == bytesFrom0 bytes

/-! ### Well-formedness -/

theorem test_every_command_is_well_formed :
    Instr.count.WellFormed = true ∧ Instr.encode.WellFormed = true ∧ Instr.decode.WellFormed = true := by decide

theorem test_params_legal : params4.Legal ∧ Params.Legal ⟨.w8, 1, 2 ^ 56, 2 ^ 61⟩ ∧ Params.Legal ⟨.w4, 1, 1, 1⟩ := by decide

theorem test_chunk_zero_refused : ¬ Params.Legal ⟨.w4, 0, 64, 64⟩ := by decide

theorem test_in_max_zero_refused : ¬ Params.Legal ⟨.w4, 16, 0, 64⟩ := by decide

theorem test_in_max_too_large_refused : ¬ Params.Legal ⟨.w4, 16, 2 ^ 56 + 1, 64⟩ := by decide

theorem test_out_max_zero_refused : ¬ Params.Legal ⟨.w4, 16, 64, 0⟩ := by decide

theorem test_out_max_too_large_refused : ¬ Params.Legal ⟨.w4, 16, 64, 2 ^ 61 + 1⟩ := by decide

/-! ### Decoding: the words of R61, written out -/

theorem test_decode_count : decode 0b00000001#8 = .ok .count := by decide

theorem test_decode_encode : decode 0b00000010#8 = .ok .encode := by decide

theorem test_decode_decode : decode 0b00000011#8 = .ok .decode := by decide

/-- R64: 0x00, 0x04 and 0xFF are reserved. -/
theorem test_decode_reserved : decode 0x00#8 = .error (.reservedCode 0x00#8) ∧
    decode 0x04#8 = .error (.reservedCode 0x04#8) ∧ decode 0xFF#8 = .error (.reservedCode 0xFF#8) := by decide

theorem test_decode_table_words : decodeTableWord 8 1 = some .count ∧ decodeTableWord 8 2 = some .encode ∧
    decodeTableWord 8 3 = some .decode ∧ decodeTableWord 8 0 = none := by decide

/-! ### One step of each command, on the spec's vectors -/

/-- "abracadabra" (V-C5). -/
def abracadabra : List Byte := [0x61, 0x62, 0x72, 0x61, 0x63, 0x61, 0x64, 0x61, 0x62, 0x72, 0x61]

/-- Its table (V-C5). -/
def abracadabraTable : Vector Count 256 :=
  tableOf [(0x61, 5), (0x62, 2), (0x63, 1), (0x64, 1), (0x72, 2)]

/-- Its packed form with `FW = 4` (R142). -/
def abracadabraPacked : List Byte := [0x2E, 0xD6, 0x2E, 0x17, 0x00, 0x00, 0x00]

/-- "abracadabra" with just enough room for its packed form. -/
def exactFit : State := machine ⟨.w4, 16, 11, 7⟩ abracadabraTable abracadabra

/-- The packed form, with just enough room for its symbols. -/
def packedFit : State := machine ⟨.w4, 16, 7, 11⟩ abracadabraTable abracadabraPacked

/-- V-C9: COUNT of "aaab" over an old table. -/
theorem test_count_aaab : outcomeIs (step ((machine params4 (tableOf [(0x7A, 5)]) [0x61, 0x61, 0x61, 0x62]).withFetchWord 8 1))
    (fun t => endsWith 0 t && entry t.ft 0x61 == 3#32 && entry t.ft 0x62 == 1#32 && entry t.ft 0x7A == 0#32) = true := by
  decide +kernel

/-- V-C10: COUNT of an empty buffer. -/
theorem test_count_empty : outcomeIs (step ((machine params4 (tableOf [(0x7A, 5)]) []).withFetchWord 8 1))
    (fun t => endsWith 1 t && entry t.ft 0x7A == 5#32) = true := by decide +kernel

/-- V-E3: ENCODE of "abracadabra". -/
theorem test_encode_abracadabra : outcomeIs (step (exactFit.withFetchWord 8 2)) (delivers abracadabraPacked 23) = true := by
  decide +kernel

/-- R128: ENCODE of "aaab" with a table that is not its count. -/
theorem test_encode_other_table :
    outcomeIs (step ((machine params4 (tableOf [(0x61, 1), (0x62, 9)]) [0x61, 0x61, 0x61, 0x62]).withFetchWord 8 2))
    (delivers [0x01, 0x04, 0x00, 0x00, 0x00] 4) = true := by decide +kernel

/-- V-D1: DECODE turns the packed form back. -/
theorem test_decode_abracadabra : outcomeIs (step (packedFit.withFetchWord 8 3)) (delivers abracadabra 23) = true := by
  decide +kernel

/-- R142: DECODE with the table of "mississippi" gives "ipsisipmipsi". -/
theorem test_decode_wrong_table :
    outcomeIs (step ((machine params4 (tableOf [(0x69, 4), (0x6D, 1), (0x70, 2), (0x73, 4)]) abracadabraPacked).withFetchWord 8 3))
    (delivers [0x69, 0x70, 0x73, 0x69, 0x73, 0x69, 0x70, 0x6D, 0x69, 0x70, 0x73, 0x69] 23) = true := by decide +kernel

/-! ### What the witnesses share -/

theorem exec_next (i : Instr) (s : State) : ∃ t, exec i s = .next t := by
  rcases exec_cases i s with ⟨e, h⟩ | ⟨t, h, -⟩
  · exact ⟨_, h⟩
  · exact ⟨t, h⟩

/-- A `CMD` write of a command's word is a step of the command. -/
theorem step_command {s : State} {i : Instr} {rest : List HostMove} (h1 : s.phase = .idle)
    (h2 : s.host = cmdWrite (encode i) :: rest) : step s = exec i { s with host := rest } := by
  rw [step_move h1 h2]
  cases i <;> rfl

/-- One symbol alone (V-B2). -/
def oneSymbol : Vector Count 256 := tableOf [(0x7A, 5)]

/-- Every entry 1 (V-B11). -/
def allOnes : Vector Count 256 := Vector.replicate 256 1#32

theorem oneSymbol_alphabet : alphabet oneSymbol = [0x7A] := by decide +kernel

theorem oneSymbol_sum : tableSum oneSymbol ≠ 0 := by
  intro h
  have := alphabet_eq_nil.2 (tableSum_eq_zero.1 h)
  rw [oneSymbol_alphabet] at this
  cases this

theorem abracadabra_alphabet : alphabet abracadabraTable = [0x61, 0x62, 0x63, 0x64, 0x72] := by decide +kernel

theorem allOnes_alphabet : (alphabet allOnes).length = 256 := by
  rw [alphabet, List.filter_eq_self.2 fun b _ => by rw [allOnes, entry_replicate]; rfl]
  simp

theorem no_symbol_sum : tableSum (tableOf []) = 0 := tableSum_eq_zero.2 fun b => entry_replicate 0#32 b

theorem oneSymbol_tree : ∃ t, buildTree oneSymbol = .ok t := buildTree_ok (by rw [oneSymbol_alphabet]; simp)

/-- The tree of "abracadabra". -/
def abracadabraTree : Machine.Tree := mergeAll (scanLeaves abracadabraTable 256)

theorem abracadabra_built : buildTree abracadabraTable = .ok abracadabraTree := by
  rcases buildTree_cases abracadabraTable with ⟨e, -⟩ | ⟨b, e, -⟩ | ⟨-, e, -⟩
  · rw [abracadabra_alphabet] at e
    cases e
  · rw [abracadabra_alphabet] at e
    cases e
  · exact e

/-- Its codes: V-B3. -/
theorem abracadabra_codes : [0x61, 0x62, 0x63, 0x64, 0x72].map (storedCode abracadabraTree) =
    [[false], [true, false], [true, true, false, true], [true, true, false, false], [true, true, true]] := by
  decide +kernel

theorem abracadabra_leaves : ∀ b ∈ abracadabra, entry abracadabraTable b ≠ 0#32 := by
  intro b hb
  rw [← mem_alphabet, abracadabra_alphabet]
  exact List.all_eq_true.1 (by decide : abracadabra.all (fun b => [0x61, 0x62, 0x63, 0x64, 0x72].contains b) = true) b hb
    |> List.contains_iff_mem.1

theorem abracadabra_stream : abracadabra.flatMap (storedCode abracadabraTree) =
    [false, true, false, true, true, true, false, true, true, false, true, false, true, true, false, false, false, true,
      false, true, true, true, false] := by
  have h := abracadabra_codes
  simp only [List.map_cons, List.map_nil, List.cons.injEq, and_true] at h
  obtain ⟨h1, h2, h3, h4, h5⟩ := h
  simp only [abracadabra, List.flatMap_cons, List.flatMap_nil, h1, h2, h3, h4, h5]
  rfl

theorem encode_next : ∃ t, exec .encode exactFit = .next t ∧ delivers abracadabraPacked 23 t = true := by
  obtain ⟨t, ht, hd⟩ := exists_next test_encode_abracadabra
  have e : step (exactFit.withFetchWord 8 2) = exec .encode exactFit := step_command (i := .encode) (rest := []) rfl rfl
  exact ⟨t, e.symm.trans ht, hd⟩

theorem decode_next : ∃ t, exec .decode packedFit = .next t ∧ delivers abracadabra 23 t = true := by
  obtain ⟨t, ht, hd⟩ := exists_next test_decode_abracadabra
  have e : step (packedFit.withFetchWord 8 3) = exec .decode packedFit := step_command (i := .decode) (rest := []) rfl rfl
  exact ⟨t, e.symm.trans ht, hd⟩

theorem delivers_iff {bytes : List Byte} {bits : Nat} {t : State} : delivers bytes bits t = true ↔
    t.err = 0#8 ∧ t.olen.toNat = bytes.length ∧ t.bitcnt.toNat = bits ∧ t.out = bytesFrom0 bytes := by
  simp [delivers, and_assoc]

/-! ### Witnesses: for each statement that has hypotheses, a state and operands that meet them all -/

/-- An idle machine whose host has moves to make. -/
def served (moves : List HostMove) : State := { machine params4 abracadabraTable abracadabra with host := moves }

theorem step_served (m : HostMove) : step (served [m]) = takeMove m (served []) := step_move rfl rfl

theorem witness_DecodeAndEncodeAgree : ∃ op i, decode op = .ok i := ⟨0x03#8, .decode, by decide⟩

theorem witness_StepRunsTheDecodedCommand : ∃ (s : State) (v : Word) (rest : List HostMove) (i : Instr),
    s.phase = .idle ∧ s.host = .writeReg 0 v :: rest ∧ decode (v.setWidth 8) = .ok i :=
  ⟨served [.writeReg 0 2#64, .reset], 2#64, [.reset], .encode, rfl, rfl, by decide⟩

theorem witness_ReservedCodeIsIllegalCommand : ∀ v ∈ [0x00#64, 0x04#64, 0xFF#64],
    ∃ (s : State) (rest : List HostMove), s.phase = .idle ∧ s.host = .writeReg 0 v :: rest ∧
    v.setWidth 8 ≠ 0x01#8 ∧ v.setWidth 8 ≠ 0x02#8 ∧ v.setWidth 8 ≠ 0x03#8 := by
  intro v hv
  refine ⟨served [.writeReg 0 v], [], rfl, rfl, ?_⟩
  simp only [List.mem_cons, List.not_mem_nil, or_false] at hv
  rcases hv with rfl | rfl | rfl <;> decide

theorem witness_FetchedWordRuns : ∃ (nbits w : Nat) (i : Instr), decodeTableWord nbits w = some i :=
  ⟨8, 3, .decode, by decide⟩

theorem witness_IdleBlockWaits : ∃ s : State, s.phase = .idle ∧ s.host = [] := ⟨State.reset, rfl, rfl⟩

theorem witness_WhereTheModelStops :
    (∃ (s : State) (a : Nat) (b : Byte) (rest : List HostMove),
      s.phase = .idle ∧ s.host = .writeIn a b :: rest ∧ s.params.inMax ≤ a) ∧
    (∃ s : State, s.phase ≠ .idle) :=
  ⟨⟨served [.writeIn 64 0x7A], 64, 0x7A, [], rfl, rfl, by decide⟩, { State.reset with phase := .check }, by decide⟩

theorem witness_EveryCommandWriteEndsIdle : ∃ (s : State) (v : Word) (rest : List HostMove),
    s.phase = .idle ∧ s.host = .writeReg 0 v :: rest :=
  ⟨served [.writeReg 0 0x100#64], 0x100#64, [], rfl, rfl⟩

theorem witness_ResetLeaves : ∃ (s : State) (rest : List HostMove), s.phase = .idle ∧ s.host = .reset :: rest :=
  ⟨served [.reset, .reset], [.reset], rfl, rfl⟩

theorem witness_CommandsRightAfterReset : ∃ p : Params, p.Legal ∧
    (∃ n : Word, n ≠ 0#64 ∧ n.toNat = p.inMax) ∧
    (∃ n : Word, n ≠ 0#64 ∧ n.toNat ≤ p.inMax ∧ n.toNat + 1 = 2 ^ 32) :=
  ⟨⟨.w4, 1, 2 ^ 56, 1⟩, by decide, ⟨BitVec.ofNat 64 (2 ^ 56), by decide, by decide⟩,
    BitVec.ofNat 64 (2 ^ 32 - 1), by decide, by decide, by decide⟩

/-- An idle machine that meets the invariant, with a result of two bytes that fills `IN` and `OUT`. -/
def full : State :=
  { machine ⟨.w4, 16, 2, 2⟩ abracadabraTable [0x61, 0x62] with
    out := bytesFrom0 [0x63, 0x64], olen := 2#64, bitcnt := 5#64, host := [cmdWrite (encode .count)] }

theorem full_inv : full.Inv := by
  refine ⟨by decide, rfl, rfl, by decide, by decide, by decide, by decide, by decide, by decide⟩

theorem witness_StepKeepsInvariant : ∃ s t : State, s.Inv ∧ step s = .next t := by
  obtain ⟨t, ht⟩ := exec_next .count { full with host := [] }
  exact ⟨full, t, full_inv, (step_command (i := .count) (rest := []) rfl rfl).trans ht⟩

theorem witness_HostRegisterMap : ∀ n ∈ [1, 2, 5, 6], ∃ (s : State) (v : Word) (rest : List HostMove),
    s.phase = .idle ∧ s.host = .writeReg n v :: rest ∧ n ≠ 0 := by
  intro n hn
  refine ⟨served [.writeReg n 7#64], 7#64, [], rfl, rfl, ?_⟩
  revert n
  decide

theorem witness_CfgIsConstant :
    (∃ (s : State) (v : Word) (rest : List HostMove), s.phase = .idle ∧ s.host = .writeReg 5 v :: rest) ∧
    (∃ s t : State, step s = .next t) := by
  exact ⟨⟨served [.writeReg 5 7#64], 7#64, [], rfl, rfl⟩, served [.reset],
    resetEvent (served []), step_served .reset⟩

theorem witness_HostWritesReadBack :
    (∃ (s : State) (b : Byte) (v : Count) (rest : List HostMove), s.phase = .idle ∧ s.host = .writeFt b v :: rest) ∧
    (∀ a ∈ [0, 63], ∃ (s : State) (v : Byte) (rest : List HostMove),
      s.phase = .idle ∧ s.host = .writeIn a v :: rest ∧ a < s.params.inMax) := by
  refine ⟨⟨served [.writeFt 0xFF 0xFFFFFFFF], 0xFF, 0xFFFFFFFF, [], rfl, rfl⟩, fun a ha => ?_⟩
  refine ⟨served [.writeIn a 0x7A], 0x7A, [], rfl, rfl, ?_⟩
  revert a
  decide

/-- A step other than reset for each of the writers. -/
theorem witness_WhoWritesWhat :
    (∃ s t : State, s.host = [.writeFt 0x61 1#32] ∧ step s = .next t) ∧
    (∃ s t : State, s.host = [.writeReg 2 4#64] ∧ step s = .next t) ∧
    (∃ s t : State, s.host = [.writeIn 0 0x7A] ∧ step s = .next t) ∧
    (∀ i : Instr, ∃ s t : State, s.host = [cmdWrite (encode i)] ∧ step s = .next t) := by
  refine ⟨⟨served [.writeFt 0x61 1#32], { served [] with ft := setEntry abracadabraTable 0x61 1#32 }, rfl,
      step_served (.writeFt 0x61 1#32)⟩,
    ⟨served [.writeReg 2 4#64], { served [] with ilen := 4#64 }, rfl, step_served (.writeReg 2 4#64)⟩,
    ⟨served [.writeIn 0 0x7A], writeIn 0 0x7A (served []), rfl, (step_served (.writeIn 0 0x7A)).trans ?_⟩,
    fun i => ?_⟩
  · rw [takeMove, hostWriteIn, if_pos (show 0 < (served []).params.inMax by decide)]
  · obtain ⟨t, ht⟩ := exec_next i (served [])
    exact ⟨served [cmdWrite (encode i)], t, rfl, (step_command (rest := []) rfl rfl).trans ht⟩

theorem witness_LoopbackCopiesTheResult : ∃ s : State, s.Inv ∧ s.olen.toNat ≤ s.params.inMax :=
  ⟨full, full_inv, by decide⟩

/-! #### COUNT -/

/-- A machine whose buffer is `n` times one byte value, for an `n` too large to write the buffer out. -/
def repeated (p : Params) (ft : Vector Count 256) (n : Nat) (b : Byte) : State :=
  { machine p ft [] with ilen := BitVec.ofNat 64 n, inMem := (List.range n).map (fun a => (a, b)) }

theorem lookup_repeated (b : Byte) (l : List Nat) {a : Nat} (h : a ∈ l) :
    Memory.lookup (l.map (fun a => (a, b))) a = some b := by
  induction l with
  | nil => cases h
  | cons x l ih =>
    rw [List.map_cons, Memory.lookup]
    split
    · rfl
    · rename_i hx
      exact ih ((List.mem_cons.1 h).resolve_left (fun e => hx e.symm))

theorem buffer_repeated (p : Params) (ft : Vector Count 256) {n : Nat} (b : Byte) (hn : n < 2 ^ 64) :
    buffer (repeated p ft n b) = List.replicate n b := by
  have h : (repeated p ft n b).ilen.toNat = n := (BitVec.toNat_ofNat ..).trans (Nat.mod_eq_of_lt hn)
  rw [buffer, h]
  refine List.eq_replicate_iff.2 ⟨by simp, fun c hc => ?_⟩
  obtain ⟨a, ha, rfl⟩ := List.mem_map.1 hc
  rw [State.inByte, repeated, lookup_repeated b _ ha, Option.getD_some]

theorem occursIn_repeated (p : Params) (ft : Vector Count 256) {n : Nat} (b c : Byte) (hn : n < 2 ^ 64) :
    occursIn (repeated p ft n b) c = if b = c then n else 0 := by
  rw [occursIn, buffer_repeated p ft b hn, List.count_replicate]
  simp

/-- Large memories, and enough room in `OUT` for every bit a 4-byte footer can count. -/
def paramsLarge : Params := ⟨.w4, 16, 2 ^ 56, 2 ^ 29⟩

/-- The counters at their boundary, one more than they hold and just what they hold. -/
theorem witness_CountIsTheTableOrAnError :
    (∃ s : State, s.phase = .idle ∧ ∃ b, 2 ^ 32 - 1 < occursIn s b) ∧
    (∃ s : State, s.phase = .idle ∧ s.ilen ≠ 0#64 ∧ s.ilen.toNat ≤ s.params.inMax ∧ ∀ b, occursIn s b ≤ 2 ^ 32 - 1) ∧
    (∃ s : State, s.phase = .idle ∧ s.ilen = 0#64 ∧ ∀ b, occursIn s b ≤ 2 ^ 32 - 1) ∧
    (∃ s : State, s.phase = .idle ∧ s.params.inMax < s.ilen.toNat ∧ ∀ b, occursIn s b ≤ 2 ^ 32 - 1) := by
  refine ⟨⟨repeated paramsLarge abracadabraTable (2 ^ 32) 0x7A, rfl, 0x7A, ?_⟩,
    ⟨repeated paramsLarge abracadabraTable (2 ^ 32 - 1) 0x7A, rfl, by decide, by decide, fun b => ?_⟩,
    ⟨repeated params4 abracadabraTable 0 0x7A, rfl, rfl, fun b => ?_⟩,
    ⟨repeated params4 abracadabraTable 65 0x7A, rfl, by decide, fun b => ?_⟩⟩ <;>
  · rw [occursIn_repeated _ _ _ _ (by decide)]
    first | decide | (split <;> decide)

theorem witness_CountCompletes : ∃ s : State, BufferFits s ∧ ∀ b, occursIn s b ≤ 2 ^ 32 - 1 := by
  refine ⟨repeated paramsLarge abracadabraTable (2 ^ 32 - 1) 0x7A, ⟨by decide, by decide⟩, fun b => ?_⟩
  rw [occursIn_repeated _ _ _ _ (by decide)]
  split <;> decide

/-- COUNT of "abracadabra" succeeds. -/
theorem count_next : ∃ t, exec .count (machine params4 (tableOf []) abracadabra) = .next t ∧ t.err = 0#8 := by
  have h := occursIn_le (machine params4 (tableOf []) abracadabra)
  have hl : (machine params4 (tableOf []) abracadabra).ilen.toNat = 11 := by decide
  rcases exec_count_cases (machine params4 (tableOf []) abracadabra) with ⟨e, -⟩ | ⟨-, e, -⟩ | ⟨-, ⟨b, e⟩, -⟩ | ⟨-, -, e⟩
  · exact absurd e (by decide)
  · exact absurd e (by decide)
  · have := h b
    omega
  · exact ⟨_, e, rfl⟩

theorem witness_CountedTableSumsToLength : ∃ s t : State, exec .count s = .next t ∧ t.err = 0#8 :=
  ⟨_, count_next⟩

theorem witness_CountedBufferHasLeaves : ∃ s t u : State, exec .count s = .next t ∧ t.err = 0#8 ∧ s.params.Legal ∧
    exec .encode t = .next u := by
  obtain ⟨t, ht, he⟩ := count_next
  obtain ⟨u, hu⟩ := exec_next .encode t
  exact ⟨_, t, u, ht, he, by decide, hu⟩

theorem witness_FailedCountChangesErrOnly : ∃ s t : State, s.phase = .idle ∧ exec .count s = .next t ∧ t.err ≠ 0#8 := by
  obtain ⟨t, ht, he⟩ := exists_next (o := exec .count (machine params4 oneSymbol [])) (p := endsWith 1) (by decide +kernel)
  refine ⟨_, t, rfl, ht, ?_⟩
  rw [of_endsWith he]
  decide

theorem witness_CountFrame : ∃ s t : State, s.phase = .idle ∧ exec .count s = .next t := by
  obtain ⟨t, ht⟩ := exec_next .count (machine params4 (tableOf []) abracadabra)
  exact ⟨_, t, rfl, ht⟩

/-! #### BUILD -/

/-- Two candidates of equal frequency, and a list of one. -/
theorem witness_PickIsLastOfTheOrder :
    (∃ x y : Candidate, x.1.freq = y.1.freq ∧ x.2 ≠ y.2) ∧ (∃ l : List Candidate, l.length = 1 ∧ l ≠ []) ∧
    (∃ l : List Candidate, (l.map Prod.snd).Nodup ∧ l.length = 2) :=
  ⟨⟨(leafNode allOnes 0, 0), (leafNode allOnes 1, 1), by decide, by decide⟩, ⟨[(leafNode allOnes 0, 0)], rfl, by simp⟩,
    ⟨[(leafNode allOnes 0, 0), (leafNode allOnes 1, 1)], by decide, rfl⟩⟩

/-- Two candidates of equal frequency in index order. -/
theorem witness_StableSortPicksTheSame : ∃ l : List Candidate, (l.map Prod.snd).Nodup ∧
    l.Pairwise (fun x y => x.1.freq = y.1.freq → x.2 < y.2) ∧ pick l ≠ none :=
  ⟨[(leafNode allOnes 0, 0), (leafNode allOnes 1, 1)], by decide, by decide, by decide⟩

/-- A symbol with no entry, and the last of the most leaves. -/
theorem witness_LeavesInSymbolOrder : (∃ ft b, entry ft b = 0#32) ∧
    (∃ (ft : Vector Count 256) (b : Byte), (alphabet ft)[255]? = some b) :=
  ⟨⟨oneSymbol, 0x79, by decide +kernel⟩, allOnes, _, List.getElem?_eq_getElem (by rw [allOnes_alphabet]; decide)⟩

/-- The first and the last merge of the largest tree. -/
theorem witness_MergeJoinsTheLastTwo : ∀ k ∈ [0, 254], ∃ t : Tree, t = mergeTimes k (scanLeaves allOnes 256) ∧
    t.ncount.toNat = t.node.length ∧ t.node.length = 256 + k ∧ t.node.length < NNODE ∧ 2 ≤ t.pool.length := by
  intro k hk
  have h0 := scanLeaves_pool_length allOnes
  have h1 := (scanLeaves_all allOnes).1
  rw [allOnes_alphabet] at h0
  have h2 : (scanLeaves allOnes 256).node.length = 256 := by rw [h1, List.length_map, allOnes_alphabet]
  have hk' : k ≤ 254 := by
    simp only [List.mem_cons, List.not_mem_nil, or_false] at hk
    omega
  obtain ⟨f, h3, h4⟩ := mergeTimes_forest k (scanLeaves_forest allOnes) (by omega) (by omega)
  refine ⟨_, rfl, f.count, by omega, ?_, by omega⟩
  rw [h4, h2]
  show _ < 511
  omega

/-- Two leaves whose frequencies sum to the most that 40 bits hold. -/
def widePool : Machine.Tree where
  node := [⟨.leaf, 0x61, 0x7FFFFFFFFF#40, NIL, NIL, NIL⟩, ⟨.leaf, 0x62, 0x8000000000#40, NIL, NIL, NIL⟩]
  ncount := 2#10
  root := NIL
  leaf := tabulate (fun b => if b = 0x61 then 0#9 else if b = 0x62 then 1#9 else NIL)

/-- The clause on the sum, at its bound. -/
theorem witness_MergeJoinsTheLastTwo_sum : ∃ (t : Machine.Tree) (a b : Candidate), t.ncount.toNat = t.node.length ∧
    t.node.length < NNODE ∧ 2 ≤ t.pool.length ∧ pick t.pool = some a ∧
    pick (t.pool.filter (fun c => c.2 != a.2)) = some b ∧ a.1.freq.toNat + b.1.freq.toNat + 1 = 2 ^ 40 :=
  ⟨widePool, _, _, by decide, by decide, by decide, rfl, rfl, by decide⟩

theorem witness_EmptyTableIsEmptyAlphabet :
    (∃ (ft : Vector Count 256) (e : ErrorCode), e = .emptyAlphabet ∧ tableSum ft = 0) ∧
    (∃ s : State, BufferFits s ∧ tableSum s.ft = 0) :=
  ⟨⟨tableOf [], .emptyAlphabet, rfl, no_symbol_sum⟩,
    machine params4 (tableOf []) [0x61], ⟨by decide, by decide⟩, no_symbol_sum⟩

/-- As few leaves as two, and as many as there can be. -/
theorem witness_NodeCountIsTwiceLeavesLessOne :
    (∃ ft : Vector Count 256, (alphabet ft).length = 2) ∧ (∃ ft : Vector Count 256, (alphabet ft).length = 256) :=
  ⟨⟨tableOf [(0x61, 3), (0x62, 1)], by decide +kernel⟩, allOnes, allOnes_alphabet⟩

theorem witness_SingleSymbolTree : ∃ (ft : Vector Count 256) (b : Byte), alphabet ft = [b] :=
  ⟨oneSymbol, 0x7A, oneSymbol_alphabet⟩

/-- Trees of one leaf, of five and of 256. -/
theorem witness_TreeInvariantsHold : ∀ n ∈ [1, 5, 256], ∃ (ft : Vector Count 256) (t : Machine.Tree),
    (alphabet ft).length = n ∧ buildTree ft = .ok t := by
  intro n hn
  simp only [List.mem_cons, List.not_mem_nil, or_false] at hn
  rcases hn with rfl | rfl | rfl
  · obtain ⟨t, ht⟩ := oneSymbol_tree
    exact ⟨_, t, congrArg List.length oneSymbol_alphabet, ht⟩
  · exact ⟨_, _, congrArg List.length abracadabra_alphabet, abracadabra_built⟩
  · obtain ⟨t, ht⟩ := buildTree_ok (ft := allOnes) (fun e => absurd (e ▸ allOnes_alphabet) (by decide))
    exact ⟨_, t, allOnes_alphabet, ht⟩

/-- A root of two leaves or more, and an internal node with two children. -/
theorem witness_FrequenciesAreExactSums : ∃ (ft : Vector Count 256) (t : Machine.Tree), buildTree ft = .ok t ∧
    2 ≤ (alphabet ft).length ∧ ∃ (n : Nat) (x : Node), t.node[n]? = some x ∧ x.kind = .internal ∧ x.second ≠ NIL := by
  have h : (abracadabraTree.node[8]?).any (fun x => x.kind == .internal && x.second != NIL) = true := by decide +kernel
  obtain ⟨x, hx, hp⟩ := (Option.any_eq_true _ _).1 h
  simp only [Bool.and_eq_true, beq_iff_eq, bne_iff_ne] at hp
  exact ⟨_, _, abracadabra_built, by rw [abracadabra_alphabet]; decide, 8, x, hx, hp⟩

theorem witness_StoredCodesFormAPrefixCode : ∃ (ft : Vector Count 256) (t : Machine.Tree) (b c : Byte),
    buildTree ft = .ok t ∧ b ∈ alphabet ft ∧ c ∈ alphabet ft ∧ b ≠ c :=
  ⟨_, _, 0x61, 0x62, abracadabra_built, by rw [abracadabra_alphabet]; decide, by rw [abracadabra_alphabet]; decide,
    by decide⟩

theorem witness_CodeLengthBounds :
    (∃ (ft : Vector Count 256) (t : Machine.Tree) (b : Byte), buildTree ft = .ok t ∧ b ∈ alphabet ft ∧
      2 ≤ (alphabet ft).length) ∧
    (∃ (ft : Vector Count 256) (t : Machine.Tree) (b : Byte), buildTree ft = .ok t ∧ b ∈ alphabet ft ∧
      (alphabet ft).length = 1) := by
  obtain ⟨u, hu⟩ := oneSymbol_tree
  exact ⟨⟨_, _, 0x61, abracadabra_built, by rw [abracadabra_alphabet]; decide, by rw [abracadabra_alphabet]; decide⟩,
    _, u, 0x7A, hu, by rw [oneSymbol_alphabet]; decide, by rw [oneSymbol_alphabet]; rfl⟩

theorem witness_BuildDependsOnTableAlone : ∃ s u : State, s ≠ u ∧ s.ft = u.ft :=
  ⟨machine params4 abracadabraTable [0x61], machine params4 abracadabraTable [0x62],
    fun h => absurd (congrArg State.inMem h) (by decide), rfl⟩

/-! #### The packer -/

/-- The cursor at the footer's limit, at the end of `OUT`, in the last byte of `OUT` (a growth that is clipped), at the start
(a growth by `CHUNK`), within the capacity. -/
theorem witness_WriteBitSetsOneBit :
    (∃ s : State, s.params.Legal ∧ s.bitcur.toNat = maxBitCount s.params) ∧
    (∃ s : State, s.params.Legal ∧ s.bitcur.toNat ≠ maxBitCount s.params ∧ s.cap.toNat ≤ s.bitcur.toNat / 8 ∧
      s.bitcur.toNat / 8 = s.params.outMax) ∧
    (∃ s : State, s.params.Legal ∧ s.bitcur.toNat ≠ maxBitCount s.params ∧ s.cap.toNat ≤ s.bitcur.toNat / 8 ∧
      s.bitcur.toNat / 8 + 1 = s.params.outMax) ∧
    (∃ s : State, s.params.Legal ∧ s.bitcur.toNat ≠ maxBitCount s.params ∧ s.bitcur.toNat / 8 < s.params.outMax ∧
      s.cap.toNat ≤ s.bitcur.toNat / 8 ∧ s.cap.toNat + s.params.chunk < s.params.outMax) ∧
    (∃ s : State, s.params.Legal ∧ s.bitcur.toNat ≠ maxBitCount s.params ∧ s.bitcur.toNat / 8 + 1 = s.cap.toNat) :=
  ⟨⟨{ machine params4 oneSymbol [] with bitcur := 0xFFFFFFFF#64 }, by decide, by decide⟩,
    ⟨{ machine params4 oneSymbol [] with bitcur := 512#64, cap := 64#64 }, by decide, by decide, by decide, by decide⟩,
    ⟨{ machine params4 oneSymbol [] with bitcur := 504#64, cap := 63#64 }, by decide, by decide, by decide, by decide⟩,
    ⟨machine params4 oneSymbol [], by decide, by decide, by decide, by decide, by decide⟩,
    { machine params4 oneSymbol [] with bitcur := 127#64, cap := 16#64 }, by decide, by decide, by decide⟩

theorem witness_CapacityIsNotObservable : ∃ (s : State) (chunk : Nat), s.params.Legal ∧ Memory.wf s.out ∧ 1 ≤ chunk :=
  ⟨full, 1, by decide, by decide, le_rfl⟩

/-! #### Errors and frames -/

theorem witness_EntryChecksComeFirst : ∀ i ∈ [Instr.encode, Instr.decode], i ≠ .count ∧
    (∃ s : State, s.ilen = 0#64 ∧ tableSum s.ft = 0) ∧
    (∃ s : State, s.ilen.toNat = s.params.inMax + 1 ∧ s.params.inMax < s.ilen.toNat ∧ s.ilen ≠ 0#64) := by
  intro i hi
  refine ⟨?_, ⟨machine params4 (tableOf []) [], rfl, no_symbol_sum⟩,
    { machine params4 oneSymbol [] with ilen := 65#64 }, by decide, by decide, by decide⟩
  revert i
  decide

/-- Each command fails on an empty buffer. -/
theorem witness_FailedCommandLeaves : ∀ i ∈ [Instr.count, Instr.encode, Instr.decode], ∃ s t : State,
    exec i s = .next t ∧ t.err ≠ 0#8 := by
  intro i hi
  have h : outcomeIs (exec i (machine params4 oneSymbol [])) (fun t => t.err != 0#8) = true := by
    revert i
    decide +kernel
  obtain ⟨t, ht, he⟩ := exists_next h
  exact ⟨_, t, ht, by simpa using he⟩

theorem witness_ErrorsOfEachCommand : ∃ s : State, s.params.Legal ∧
    (∃ t, exec .count s = .next t) ∧ (∃ t, exec .encode s = .next t) ∧ (∃ t, exec .decode s = .next t) :=
  ⟨machine params4 abracadabraTable abracadabra, by decide, exec_next _ _, exec_next _ _, exec_next _ _⟩

theorem witness_EncodeAndDecodeFrame : ∀ i ∈ [Instr.encode, Instr.decode], i ≠ .count ∧
    ∃ s t : State, exec i s = .next t := by
  intro i hi
  refine ⟨?_, full, exec_next i full⟩
  revert i
  decide

/-- Other bytes above the buffer and another old result. -/
theorem witness_CommandsReadOnlyTheBuffer : ∃ (s : State) (inMem out : Memory) (inSeed : Nat),
    s.params.Legal ∧ Memory.wf s.out ∧ Memory.wf out ∧ inMem ≠ s.inMem ∧ out ≠ s.out ∧
    ∀ a, a < s.ilen.toNat → State.inByte { s with inMem := inMem, inSeed := inSeed, out := out } a = s.inByte a := by
  refine ⟨full, bytesFrom0 [0x61, 0x62, 0x63], bytesFrom0 [0x65, 0x66], 9, by decide, by decide, by decide, by decide,
    by decide, ?_⟩
  intro a ha
  have : a = 0 ∨ a = 1 := by
    have : a < 2 := ha
    omega
  rcases this with rfl | rfl <;> rfl


/-! #### ENCODE -/

theorem exactFit_buffer : buffer exactFit = abracadabra := by decide +kernel

theorem witness_EncodeWritesTheCodes : ∃ (s : State) (tr : Machine.Tree), s.params.Legal ∧ BufferFits s ∧
    buildTree s.ft = .ok tr ∧ (∀ b ∈ buffer s, entry s.ft b ≠ 0#32) ∧
    (bufferCode tr s).length ≤ maxBitCount s.params ∧
    ceil8 (bufferCode tr s).length + s.params.fwBytes = s.params.outMax := by
  have h : (bufferCode abracadabraTree exactFit).length = 23 := by
    rw [bufferCode, exactFit_buffer, abracadabra_stream]
    rfl
  refine ⟨exactFit, _, by decide, ⟨by decide, by decide⟩, abracadabra_built, ?_, ?_, ?_⟩
  · rw [exactFit_buffer]
    exact abracadabra_leaves
  · rw [h]
    decide
  · rw [h]
    decide

theorem witness_EncodeSucceedsExactlyWhen : ∃ s t : State, s.params.Legal ∧ exec .encode s = .next t ∧ t.err = 0#8 := by
  obtain ⟨t, ht, hd⟩ := encode_next
  exact ⟨exactFit, t, by decide, ht, (delivers_iff.1 hd).1⟩

/-- As many bits as a 4-byte footer can count, with just enough room. -/
theorem witness_EncodeOfOneSymbol : ∃ (s : State) (b : Byte), s.params.Legal ∧ BufferFits s ∧ alphabet s.ft = [b] ∧
    (∀ c ∈ buffer s, c = b) ∧ s.ilen.toNat = maxBitCount s.params ∧
    ceil8 s.ilen.toNat + s.params.fwBytes = s.params.outMax := by
  refine ⟨repeated ⟨.w4, 16, 2 ^ 56, 2 ^ 29 + 4⟩ oneSymbol (2 ^ 32 - 1) 0x7A, 0x7A, by decide, ⟨by decide, by decide⟩,
    oneSymbol_alphabet, fun c hc => ?_, by decide, by decide⟩
  rw [buffer_repeated _ _ _ (by decide)] at hc
  exact List.eq_of_mem_replicate hc

/-- A symbol without a leaf: raised, and with symbols before and after it. -/
theorem witness_SymbolWithoutLeafFails :
    (∃ s t : State, s.params.Legal ∧ exec .encode s = .next t ∧ t.err = ErrorCode.symbolNotInTree.code) ∧
    (∀ after ∈ [[], [(0x7A : Byte)]], ∃ (s : State) (tr : Tree) (before : List Byte) (b : Byte),
      s.params.Legal ∧ BufferFits s ∧ buildTree s.ft = .ok tr ∧ buffer s = before ++ b :: after ∧
      entry s.ft b = 0#32 ∧ (∀ c ∈ after, entry s.ft c ≠ 0#32) ∧
      (after.flatMap (storedCode tr)).length ≤ maxBitCount s.params ∧
      ceil8 (after.flatMap (storedCode tr)).length ≤ s.params.outMax) := by
  obtain ⟨t, ht, he⟩ := exists_next (o := exec .encode (machine params4 oneSymbol [0x62, 0x61, 0x7A])) (p := endsWith 5)
    (by decide +kernel)
  refine ⟨⟨_, t, by decide, ht, of_endsWith he⟩, fun after hafter => ?_⟩
  obtain ⟨tr, htr⟩ := oneSymbol_tree
  have code := (buildTree_built htr).single_code oneSymbol_alphabet
  simp only [List.mem_cons, List.not_mem_nil, or_false] at hafter
  rcases hafter with rfl | rfl
  · refine ⟨machine params4 oneSymbol [0x62, 0x61], tr, [0x62], 0x61, by decide, ⟨by decide, by decide⟩, htr,
      by decide +kernel, by decide +kernel, by simp, by simp, by simp [ceil8]⟩
  · refine ⟨machine params4 oneSymbol [0x62, 0x61, 0x7A], tr, [0x62], 0x61, by decide, ⟨by decide, by decide⟩, htr,
      by decide +kernel, by decide +kernel, ?_, ?_, ?_⟩
    · intro c hc
      rw [List.mem_singleton.1 hc]
      decide +kernel
    · rw [List.flatMap_singleton, code]
      decide
    · rw [List.flatMap_singleton, code]
      decide

/-- One bit more than a 4-byte footer can count, with room in `OUT` for every bit it can count. -/
theorem witness_FooterOverflowInEncode :
    (∃ (s : State) (tr : Tree), s.params.Legal ∧ BufferFits s ∧ buildTree s.ft = .ok tr ∧
      (∀ b ∈ buffer s, entry s.ft b ≠ 0#32) ∧ (bufferCode tr s).length = maxBitCount s.params + 1 ∧
      maxBitCount s.params ≤ 8 * s.params.outMax) ∧
    (∃ s t : State, s.params.Legal ∧ s.params.fw = .w8 ∧ exec .encode s = .next t) := by
  obtain ⟨tr, htr⟩ := oneSymbol_tree
  have hb := buffer_repeated paramsLarge oneSymbol 0x7A (n := 2 ^ 32) (by decide)
  obtain ⟨t, ht⟩ := exec_next .encode (machine ⟨.w8, 16, 64, 64⟩ oneSymbol [0x7A])
  refine ⟨⟨repeated paramsLarge oneSymbol (2 ^ 32) 0x7A, tr, by decide, ⟨by decide, by decide⟩, htr, fun b h => ?_, ?_,
    by decide⟩, _, t, by decide, rfl, ht⟩
  · rw [hb] at h
    rw [List.eq_of_mem_replicate h]
    show entry oneSymbol 0x7A ≠ 0#32
    decide +kernel
  · rw [bufferCode, hb, List.flatMap_replicate, (buildTree_built htr).single_code oneSymbol_alphabet, List.length_flatten,
      List.map_replicate, List.sum_replicate]
    decide

/-- (a) One bit more than `OUT` holds; (b) no room for the last byte of the footer; (c) one symbol more than `OUT` holds. -/
theorem witness_OutputFullWhenOutIsFull :
    (∃ (s : State) (tr : Tree), s.params.Legal ∧ BufferFits s ∧ buildTree s.ft = .ok tr ∧
      (∀ b ∈ buffer s, entry s.ft b ≠ 0#32) ∧ (bufferCode tr s).length = 8 * s.params.outMax + 1 ∧
      8 * s.params.outMax < maxBitCount s.params) ∧
    (∃ (s : State) (tr : Tree), s.params.Legal ∧ BufferFits s ∧ buildTree s.ft = .ok tr ∧
      (∀ b ∈ buffer s, entry s.ft b ≠ 0#32) ∧ (bufferCode tr s).length ≤ maxBitCount s.params ∧
      ceil8 (bufferCode tr s).length + s.params.fwBytes = s.params.outMax + 1) ∧
    (∃ (s : State) (tr : Tree) (bs : List Byte) (rest : List Bool),
      s.params.Legal ∧ BufferFits s ∧ buildTree s.ft = .ok tr ∧ FooterFits s ∧ (∀ b ∈ bs, entry s.ft b ≠ 0#32) ∧
      bs.length = s.params.outMax + 1 ∧ inStream s (footerValue s) = bs.flatMap (storedCode tr) ++ rest) := by
  obtain ⟨tr, htr⟩ := oneSymbol_tree
  have code := (buildTree_built htr).single_code oneSymbol_alphabet
  have leaf : ∀ (l : List Byte), (∀ b ∈ l, b = 0x7A) → ∀ b ∈ l, entry oneSymbol b ≠ 0#32 := by
    intro l h b hb
    rw [h b hb]
    decide +kernel
  have length (p : Params) (n : Nat) (hn : n < 2 ^ 64) : (bufferCode tr (repeated p oneSymbol n 0x7A)).length = n := by
    rw [bufferCode, buffer_repeated p _ _ hn, List.flatMap_replicate, code]
    simp
  refine ⟨⟨repeated ⟨.w4, 16, 64, 1⟩ oneSymbol 9 0x7A, tr, by decide, ⟨by decide, by decide⟩, htr, leaf _ ?_, ?_, by decide⟩,
    ⟨repeated ⟨.w4, 16, 64, 4⟩ oneSymbol 1 0x7A, tr, by decide, ⟨by decide, by decide⟩, htr, leaf _ ?_, ?_, ?_⟩,
    machine ⟨.w4, 16, 64, 1⟩ oneSymbol [0x00, 0x02, 0x00, 0x00, 0x00], tr, [0x7A, 0x7A], [], by decide,
      ⟨by decide, by decide⟩, htr, ⟨by decide, by decide +kernel⟩, leaf _ (by simp), rfl, ?_⟩
  · rw [buffer_repeated _ _ _ (by decide)]
    exact fun b hb => List.eq_of_mem_replicate hb
  · rw [length _ _ (by decide)]
    decide
  · rw [buffer_repeated _ _ _ (by decide)]
    exact fun b hb => List.eq_of_mem_replicate hb
  · rw [length _ _ (by decide)]
    decide
  · rw [length _ _ (by decide)]
    decide
  · simp only [List.flatMap_cons, List.flatMap_nil, code]
    decide +kernel

/-! #### DECODE -/

/-- A tree of three symbols, its root's first child a leaf and its second internal. -/
def smallTree : Tree where
  node := [⟨.leaf, 0x61, 1#40, 3#9, NIL, NIL⟩, ⟨.leaf, 0x62, 1#40, 3#9, NIL, NIL⟩, ⟨.leaf, 0x63, 2#40, 4#9, NIL, NIL⟩,
    ⟨.internal, 0x00, 2#40, 4#9, 0#9, 1#9⟩, ⟨.internal, 0x00, 4#40, NIL, 2#9, 3#9⟩]
  ncount := 5#10
  root := 4#9
  leaf := tabulate (fun b => if b = 0x61 then 0#9 else if b = 0x62 then 1#9 else if b = 0x63 then 2#9 else NIL)

/-- The tree of one symbol. -/
def singleTree : Tree where
  node := [⟨.leaf, 0x7A, 5#40, 1#9, NIL, NIL⟩, ⟨.internal, 0x00, 5#40, NIL, 0#9, NIL⟩]
  ncount := 2#10
  root := 1#9
  leaf := tabulate (fun b => if b = 0x7A then 0#9 else NIL)

/-- An absent child (a stored 1 under the synthetic root), an internal child, a leaf. -/
theorem witness_WalkMovesByTheComplement :
    (∃ (i : Nat) (s : State) (x : Node), s.tree.node[s.cur.toNat]? = some x ∧ streamBit s i = true ∧ x.second = NIL) ∧
    (∃ (i : Nat) (s : State) (x : Node), s.tree.node[s.cur.toNat]? = some x ∧ streamBit s i = true ∧ x.second ≠ NIL ∧
      leafSymbol s.tree x.second = none) ∧
    (∃ (i : Nat) (s : State) (x : Node) (b : Byte), s.tree.node[s.cur.toNat]? = some x ∧ streamBit s i = false ∧
      x.first ≠ NIL ∧ leafSymbol s.tree x.first = some b) :=
  ⟨⟨0, { machine params4 oneSymbol [0x01] with tree := singleTree, cur := 1#9 }, _, rfl, by decide +kernel, rfl⟩,
    ⟨0, { machine params4 oneSymbol [0x01] with tree := smallTree, cur := 4#9 }, _, rfl, by decide +kernel, by decide, rfl⟩,
    1, { machine params4 oneSymbol [0x01] with tree := smallTree, cur := 4#9 }, _, 0x63, rfl, by decide +kernel, by decide,
    rfl⟩

theorem witness_EmitWritesTheSymbol :
    (∃ s : State, s.params.outMax = s.opos.toNat) ∧ (∃ s : State, s.opos.toNat + 1 = s.params.outMax) :=
  ⟨⟨{ machine params4 oneSymbol [] with opos := 64#64 }, by decide⟩,
    { machine params4 oneSymbol [] with opos := 63#64 }, by decide⟩

theorem witness_FooterIsLittleEndian : ∃ s : State, s.params.fwBytes = s.ilen.toNat :=
  ⟨machine params4 oneSymbol [0x00, 0x00, 0x00, 0x00], by decide⟩

/-- No whole footer; one bit more than the payload holds; just as many. -/
theorem witness_TruncatedStreamExactly :
    (∃ s : State, s.params.Legal ∧ BufferFits s ∧ tableSum s.ft ≠ 0 ∧ s.ilen.toNat + 1 = s.params.fwBytes ∧ ¬ FooterFits s) ∧
    (∃ s : State, s.params.Legal ∧ BufferFits s ∧ tableSum s.ft ≠ 0 ∧
      footerValue s = 8 * (s.ilen.toNat - s.params.fwBytes) + 1 ∧ ¬ FooterFits s) ∧
    (∃ s t : State, s.params.Legal ∧ BufferFits s ∧ tableSum s.ft ≠ 0 ∧
      footerValue s = 8 * (s.ilen.toNat - s.params.fwBytes) ∧ FooterFits s ∧ exec .decode s = .next t) := by
  obtain ⟨t, ht⟩ := exec_next .decode (machine params4 oneSymbol [0x00, 0x08, 0x00, 0x00, 0x00])
  exact ⟨⟨machine params4 oneSymbol [0x00, 0x00, 0x00], by decide, ⟨by decide, by decide⟩, oneSymbol_sum, by decide,
      fun h => absurd h.1 (by decide)⟩,
    ⟨machine params4 oneSymbol [0x00, 0x09, 0x00, 0x00, 0x00], by decide, ⟨by decide, by decide⟩, oneSymbol_sum,
      by decide +kernel, fun h => absurd h.2 (by decide +kernel)⟩,
    machine params4 oneSymbol [0x00, 0x08, 0x00, 0x00, 0x00], t, by decide, ⟨by decide, by decide⟩, oneSymbol_sum,
      by decide +kernel, ⟨by decide, by decide +kernel⟩, ht⟩

theorem packedFit_footer : footerValue packedFit = 23 := by decide +kernel

theorem witness_DecodeReadsTheCodes : ∃ (s : State) (tr : Machine.Tree) (bs : List Byte), s.params.Legal ∧ BufferFits s ∧
    buildTree s.ft = .ok tr ∧ FooterFits s ∧ (∀ b ∈ bs, entry s.ft b ≠ 0#32) ∧ bs.length = s.params.outMax ∧
    inStream s (footerValue s) = bs.flatMap (storedCode tr) := by
  refine ⟨packedFit, _, abracadabra, by decide, ⟨by decide, by decide⟩, abracadabra_built,
    ⟨by decide, by decide +kernel⟩, abracadabra_leaves, rfl, ?_⟩
  rw [packedFit_footer, abracadabra_stream]
  decide +kernel

theorem witness_DecodeSuccessIsACodeSequence : ∃ s t : State, s.params.Legal ∧ exec .decode s = .next t ∧ t.err = 0#8 ∧
    1 ≤ footerValue s := by
  obtain ⟨t, ht, hd⟩ := decode_next
  exact ⟨packedFit, t, by decide, ht, (delivers_iff.1 hd).1, by rw [packedFit_footer]; decide⟩

/-- The stored 1 at the first position read, and at the last one with `OUT` full before it. -/
theorem witness_AbsentChildExactly :
    (∃ s t : State, s.params.Legal ∧ exec .decode s = .next t ∧ t.err = ErrorCode.absentChild.code) ∧
    (∃ (s : State) (p : Nat), s.params.Legal ∧ BufferFits s ∧ FooterFits s ∧ (alphabet s.ft).length = 1 ∧
      p + 1 = footerValue s ∧ streamBit s p = true ∧ (∀ q, p < q → q < footerValue s → streamBit s q = false) ∧
      footerValue s - 1 - p ≤ s.params.outMax) ∧
    (∃ (s : State) (p : Nat), s.params.Legal ∧ BufferFits s ∧ FooterFits s ∧ (alphabet s.ft).length = 1 ∧
      p < footerValue s ∧ streamBit s p = true ∧ (∀ q, p < q → q < footerValue s → streamBit s q = false) ∧
      footerValue s - 1 - p = s.params.outMax) := by
  obtain ⟨t, ht, he⟩ := exists_next (o := exec .decode (machine params4 oneSymbol [0x01, 0x01, 0x00, 0x00, 0x00]))
    (p := endsWith 6) (by decide +kernel)
  have f1 : footerValue (machine params4 oneSymbol [0x01, 0x01, 0x00, 0x00, 0x00]) = 1 := by decide +kernel
  have f2 : footerValue (machine ⟨.w4, 16, 64, 1⟩ oneSymbol [0x01, 0x02, 0x00, 0x00, 0x00]) = 2 := by decide +kernel
  refine ⟨⟨_, t, by decide, ht, of_endsWith he⟩,
    ⟨machine params4 oneSymbol [0x01, 0x01, 0x00, 0x00, 0x00], 0, by decide, ⟨by decide, by decide⟩,
      ⟨by decide, by decide +kernel⟩, congrArg List.length oneSymbol_alphabet, by rw [f1],
      by decide +kernel, fun q h1 h2 => ?_, by rw [f1]; decide⟩,
    machine ⟨.w4, 16, 64, 1⟩ oneSymbol [0x01, 0x02, 0x00, 0x00, 0x00], 0, by decide, ⟨by decide, by decide⟩,
      ⟨by decide, by decide +kernel⟩, congrArg List.length oneSymbol_alphabet, by rw [f2]; decide,
      by decide +kernel, fun q h1 h2 => ?_, by rw [f2]; decide⟩
  · rw [f1] at h2
    omega
  · rw [f2] at h2
    obtain rfl : q = 1 := by omega
    decide +kernel

/-- The stream ends inside the code 111 of 'r', at once and after as many symbols as `OUT` holds. -/
theorem witness_DanglingPathExactly :
    (∃ s t : State, s.params.Legal ∧ exec .decode s = .next t ∧ t.err = ErrorCode.danglingPath.code) ∧
    (∀ bs ∈ [[], [(0x61 : Byte)]], ∃ (s : State) (tr : Tree) (r : List Bool) (b : Byte),
      s.params.Legal ∧ BufferFits s ∧ buildTree s.ft = .ok tr ∧ FooterFits s ∧ (∀ c ∈ bs, entry s.ft c ≠ 0#32) ∧
      bs.length ≤ s.params.outMax ∧ b ∈ alphabet s.ft ∧ r ≠ [] ∧ r <+: storedCode tr b ∧ r ≠ storedCode tr b ∧
      inStream s (footerValue s) = bs.flatMap (storedCode tr) ++ r) := by
  obtain ⟨t, ht, he⟩ := exists_next (o := exec .decode (machine params4 abracadabraTable [0x01, 0x01, 0x00, 0x00, 0x00]))
    (p := endsWith 7) (by decide +kernel)
  have codes := abracadabra_codes
  simp only [List.map_cons, List.map_nil, List.cons.injEq, and_true] at codes
  obtain ⟨codeA, -, -, -, code⟩ := codes
  have mem : (0x72 : Byte) ∈ alphabet abracadabraTable := by
    rw [abracadabra_alphabet]
    decide
  refine ⟨⟨_, t, by decide, ht, of_endsWith he⟩, fun bs hbs => ?_⟩
  simp only [List.mem_cons, List.not_mem_nil, or_false] at hbs
  rcases hbs with rfl | rfl
  · refine ⟨machine ⟨.w4, 16, 64, 1⟩ abracadabraTable [0x01, 0x01, 0x00, 0x00, 0x00], _, [true], 0x72, by decide,
      ⟨by decide, by decide⟩, abracadabra_built, ⟨by decide, by decide +kernel⟩, by simp, by decide, mem, by simp,
      ⟨[true, true], by rw [code]; rfl⟩, by rw [code]; decide, ?_⟩
    rw [List.flatMap_nil]
    decide +kernel
  · refine ⟨machine ⟨.w4, 16, 64, 1⟩ abracadabraTable [0x01, 0x02, 0x00, 0x00, 0x00], _, [true], 0x72, by decide,
      ⟨by decide, by decide⟩, abracadabra_built, ⟨by decide, by decide +kernel⟩, ?_, by decide, mem, by simp,
      ⟨[true, true], by rw [code]; rfl⟩, by rw [code]; decide, ?_⟩
    · intro c hc
      rw [List.mem_singleton.1 hc]
      decide +kernel
    · rw [List.flatMap_singleton, codeA]
      decide +kernel

/-- The shortest buffer with a footer, and a success of ENCODE. -/
theorem witness_ZeroBitCountIsAccepted :
    (∃ s : State, s.params.Legal ∧ BufferFits s ∧ tableSum s.ft ≠ 0 ∧ FooterFits s ∧ footerValue s = 0) ∧
    (∃ s t : State, s.params.Legal ∧ exec .encode s = .next t ∧ t.err = 0#8) :=
  ⟨⟨machine params4 oneSymbol [0x00, 0x00, 0x00, 0x00], by decide, ⟨by decide, by decide⟩, oneSymbol_sum,
    ⟨by decide, by decide +kernel⟩, by decide +kernel⟩, witness_EncodeSucceedsExactlyWhen⟩

/-- A payload with other padding bits. -/
theorem witness_DecodeIgnoresPadding : ∃ (s : State) (inMem : Memory) (inSeed : Nat), s.params.Legal ∧ Memory.wf s.out ∧
    inMem ≠ s.inMem ∧ footerValue { s with inMem := inMem, inSeed := inSeed } = footerValue s ∧
    ∀ p, p < footerValue s → streamBit { s with inMem := inMem, inSeed := inSeed } p = streamBit s p := by
  have f : footerValue (machine params4 oneSymbol [0x00, 0x01, 0x00, 0x00, 0x00]) = 1 := by decide +kernel
  refine ⟨machine params4 oneSymbol [0x00, 0x01, 0x00, 0x00, 0x00], bytesFrom0 [0xFE, 0x01, 0x00, 0x00, 0x00], 3,
    by decide, by decide, by decide, by decide +kernel, fun p hp => ?_⟩
  rw [f] at hp
  obtain rfl : p = 0 := by omega
  decide +kernel

/-! #### The round trip -/

/-- "abracadabra" with as much room as any table of it needs. -/
def roundFit : State := machine ⟨.w4, 16, 355, 355⟩ abracadabraTable abracadabra

/-- "abracadabra" on one instance with room for its symbols, and on two with just enough room each. -/
theorem witness_RoundTrip :
    (∃ s : State, s.Inv ∧ BufferFits s ∧ (∀ b, occursIn s b ≤ 2 ^ 32 - 1) ∧ s.ilen.toNat ≤ s.params.outMax ∧
      ∀ tr, buildTree (countTable s) = .ok tr →
        (bufferCode tr s).length ≤ maxBitCount s.params ∧
        ceil8 (bufferCode tr s).length + s.params.fwBytes ≤ s.params.outMax ∧
        ceil8 (bufferCode tr s).length + s.params.fwBytes ≤ s.params.inMax) ∧
    (∃ s t u : State, s.params.Legal ∧ u.params.Legal ∧ exec .encode s = .next t ∧ t.err = 0#8 ∧
      u.params.fw = s.params.fw ∧ u.ft = s.ft ∧ u.ilen = t.olen ∧ t.olen.toNat = u.params.inMax ∧
      (∀ a, a < t.olen.toNat → u.inByte a = t.outByte a) ∧ s.ilen.toNat = u.params.outMax) := by
  obtain ⟨t, ht, hd⟩ := encode_next
  obtain ⟨he, hl, -, ho⟩ := delivers_iff.1 hd
  refine ⟨⟨roundFit, ?_, ⟨by decide, by decide⟩, fun b => ?_, by decide,
    fun tr htr => ?_⟩, exactFit, t, { packedFit with ilen := t.olen }, by decide,
    (by decide : packedFit.params.Legal), ht, he, rfl, rfl, rfl, hl.trans rfl, fun a ha => ?_,
    (by decide : exactFit.ilen.toNat = packedFit.params.outMax)⟩
  · refine ⟨by decide, rfl, rfl, by decide, by decide, rfl, by decide, by decide, by decide⟩
  · have h := occursIn_le roundFit b
    exact h.trans (by decide)
  · have small : ∀ b, occursIn roundFit b ≤ 2 ^ 32 - 1 := fun b => (occursIn_le roundFit b).trans (by decide)
    have h := ((buildTree_built htr).codes_length (buffer roundFit) fun b hb e => by
      have h1 := entry_countTable_toNat (small b)
      rw [e] at h1
      have h2 : 0 < occursIn roundFit b := List.count_pos_iff.2 hb
      exact absurd h1 h2.ne).2
    have hn : (buffer roundFit).length = 11 := by rw [buffer, List.length_map, List.length_range]; decide
    rw [hn] at h
    have hm : maxBitCount roundFit.params = 2 ^ 32 - 1 := rfl
    have hp : roundFit.params = ⟨.w4, 16, 355, 355⟩ := rfl
    rw [hm, hp]
    simp only [bufferCode, ceil8, Params.fwBytes]
    omega
  · rw [hl] at ha
    rw [State.outByte, ho]
    have h7 : a < 7 := ha
    show (Memory.lookup (bytesFrom0 abracadabraPacked) a).getD _ = _
    interval_cases a <;> rfl

end Sys2Proof.Tests
end

section
/-! PROOF. The invariant of the idle block is kept by every command, by every move of the host and so by every step. -/

namespace Sys2Proof.Machine

variable {s t : State}

/-! ### Which addresses of `OUT` hold a value (R19) -/

/-- Listing exactly `OUT[0..OLEN-1]` is a canonical form. -/
theorem State.Inv.outWf (h : s.Inv) : Memory.wf s.out := by
  have rising : (s.out.map Prod.fst).Pairwise (· < ·) := h.outExact ▸ List.pairwise_lt_range
  exact List.pairwise_map.1 rising

/-- After a successful ENCODE, `OUT` holds the payload and the footer and nothing else (R124). -/
theorem Encoded.holds_iff {l : List Bool} (h : Encoded l s t) (a : Nat) :
    (Memory.lookup t.out a).isSome ↔ a < t.olen.toNat := by
  have holen := h.olen
  rcases lt_or_ge a (ceil8 l.length) with hpay | hpay
  · obtain ⟨v, hv, -⟩ := h.payload a hpay
    simp only [hv, Option.isSome_some, true_iff]
    omega
  · rcases lt_or_ge a t.olen.toNat with hfoot | habove
    · have hv := h.footer (a - ceil8 l.length) (by omega)
      rw [Nat.add_sub_cancel' hpay] at hv
      simp [hv, hfoot]
    · simp [h.above a habove, habove]

/-- After a successful DECODE, `OUT` holds the delivered symbols and nothing else (R130, R140). -/
theorem Decoded.holds_iff {l : List Byte} (h : Decoded l s t) (a : Nat) :
    (Memory.lookup t.out a).isSome ↔ a < t.olen.toNat := by
  simp [h.bytes, h.olen]

/-! ### The commands -/

/-- A result handed over by `deliver` restores the invariant, once `OUT` holds exactly the result and both lengths fit. -/
theorem State.Inv.of_delivered (h : s.Inv) (frame : t = { deliver t.olen t.bitcnt s with out := t.out })
    (wf : Memory.wf t.out) (holds : ∀ a, (Memory.lookup t.out a).isSome ↔ a < t.olen.toNat)
    (fits : t.olen.toNat ≤ s.params.outMax) (bits : t.bitcnt.toNat ≤ maxBitCount s.params) : t.Inv := by
  have listed := Memory.addresses_eq_range wf holds
  rw [frame]
  exact { legal := h.legal, idle := rfl, noTree := rfl, inWf := h.inWf, inBound := h.inBound, outExact := listed,
          outBound := fits, errCode := Nat.zero_le _, bitBound := bits }

theorem Encoded.inv {l : List Bool} (h : Encoded l s t) (hs : s.Inv) : t.Inv :=
  hs.of_delivered h.frame (h.wf hs.outWf) h.holds_iff h.fits (h.bitcnt ▸ h.count)

theorem Decoded.inv {l : List Byte} (h : Decoded l s t) (hs : s.Inv) : t.Inv :=
  hs.of_delivered h.frame (h.wf hs.outWf) h.holds_iff h.fits (h.bitcnt ▸ footerValue_le s)

/-- `raise` keeps the invariant: a failed COUNT leaves the old result, the others leave none (R160). -/
theorem raiseError_inv (c : Instr) (e : ErrorCode) (h : s.Inv) : (raiseError c e s).Inv := by
  have noResult (hc : c ≠ .count) : (raiseError c e s).Inv := by
    have hf := raiseError_failedAs hc e s
    exact { legal := hf.params ▸ h.legal
            idle := hf.phase
            noTree := hf.tree
            inWf := hf.inMem ▸ h.inWf
            inBound := by rw [hf.inMem, hf.params]; exact h.inBound
            outExact := by rw [hf.out, hf.olen]; rfl
            outBound := by rw [hf.olen]; exact Nat.zero_le _
            errCode := hf.err ▸ code_le e
            bitBound := by rw [hf.bitcnt]; exact Nat.zero_le _ }
  cases c with
  | count => exact { h with idle := rfl, errCode := code_le e }
  | encode => exact noResult (by decide)
  | decode => exact noResult (by decide)

/-- A command keeps the invariant, whether it succeeds or fails (R175). -/
theorem exec_inv {i : Instr} (hs : s.Inv) (h : exec i s = .next t) : t.Inv := by
  cases i with
  | count =>
    rcases exec_cases .count s with ⟨e, he⟩ | ⟨u, hu, -, ⟨-, -, -, rfl⟩ | ⟨hne, -⟩⟩
    · obtain rfl : t = _ := by injection h.symm.trans he
      exact raiseError_inv .count e hs
    · obtain rfl : t = _ := by injection h.symm.trans hu
      exact { hs with idle := rfl, errCode := Nat.zero_le _ }
    · exact absurd rfl hne
  | encode =>
    rcases encode_next_cases hs.legal h with ⟨l, -, hl⟩ | ⟨e, -, rfl⟩
    · exact hl.inv hs
    · exact raiseError_inv .encode e hs
  | decode =>
    rcases decode_next_cases hs.legal h with ⟨l, -, hl⟩ | ⟨e, -, rfl⟩
    · exact hl.inv hs
    · exact raiseError_inv .decode e hs

/-! ### The other moves of the host -/

theorem illegalCommand_inv (h : s.Inv) : (illegalCommand s).Inv :=
  { h with errCode := code_le .illegalCommand }

/-- A write of a byte of `IN` that exists keeps `IN` canonical and within its size (R18, R40). -/
theorem writeIn_inv (h : s.Inv) {a : Nat} (ha : a < s.params.inMax) (v : Byte) : (writeIn a v s).Inv :=
  { h with
    inWf := Memory.store_wf a v h.inWf
    inBound := fun c hc => by
      rcases Memory.mem_store hc with rfl | hold
      · exact ha
      · exact h.inBound c hold }

/-- The state of the reset event needs nothing of the state before it but legal parameters (R5, R180). -/
theorem resetEvent_inv (h : s.params.Legal) : (resetEvent s).Inv where
  legal := h
  idle := rfl
  noTree := rfl
  inWf := List.Pairwise.nil
  inBound := fun _ hc => absurd hc List.not_mem_nil
  outExact := rfl
  outBound := Nat.zero_le _
  errCode := Nat.zero_le _
  bitBound := Nat.zero_le _

theorem takeMove_inv {m : HostMove} (hs : s.Inv) (h : takeMove m s = .next t) : t.Inv := by
  rcases takeMove_cases h with ⟨v, i, -, -, hrun⟩ | ⟨v, -, rfl⟩ | ⟨v, -, rfl⟩ | ⟨n, v, -, -, -, rfl⟩ | ⟨b, v, -, rfl⟩ |
    ⟨a, v, -, ha, rfl⟩ | ⟨-, rfl⟩
  · exact exec_inv hs hrun
  · exact illegalCommand_inv hs
  · exact { hs with }
  · exact hs
  · exact { hs with }
  · exact writeIn_inv hs ha v
  · exact resetEvent_inv hs.legal

/-- Settles O12, by the move that the step takes: a command leaves a result or an error, any other move leaves `OUT` and
its lengths as they were or resets them. -/
theorem stepKeepsInvariant : Obligations.StepKeepsInvariant := by
  intro s t hs h
  obtain ⟨-, ⟨-, rfl⟩ | ⟨m, rest, -, hmove⟩⟩ := step_cases h
  · exact hs
  · exact takeMove_inv (s := { s with host := rest }) { hs with } hmove

end Sys2Proof.Machine
end

section
/-! PROOF. The trees that BUILD makes: each node under one parent, no path longer than 255 steps, exact frequencies. -/

namespace Sys2Proof.Machine

namespace Built

variable {ft : Vector Count 256} {t : Tree}

/-! ### Parent and child (R25 (a) to (d)) -/

/-- Only an internal node has a child (R25 (d)). -/
theorem internal_of_child (h : Built ft t) {q n : Nat} {y : Node} (hy : t.node[q]? = some y) (hn : n < t.node.length)
    (hc : y.first = BitVec.ofNat 9 n ∨ y.second = BitVec.ofNat 9 n) : (alphabet ft).length ≤ q := by
  by_contra hq
  obtain ⟨-, -, hfirst, hsecond, -⟩ := h.leaf_kind (not_le.1 hq) hy
  have hne : BitVec.ofNat 9 n ≠ NIL := h.node_ne_nil hn
  rcases hc with hc | hc
  · exact hne (hc.symm.trans hfirst)
  · exact hne (hc.symm.trans hsecond)

/-- A node points back to whichever node has it as a child, so it is a child of no other (R25 (a)). -/
theorem parent_of_child (h : Built ft t) {q n : Nat} {x y : Node} (hx : t.node[n]? = some x) (hy : t.node[q]? = some y)
    (hc : y.first = BitVec.ofNat 9 n ∨ y.second = BitVec.ofNat 9 n) : x.parent = BitVec.ofNat 9 q := by
  have hlen := h.len_le
  have hn := getElem?_lt hx
  have hq := getElem?_lt hy
  obtain ⟨-, a, xa, ha, hfirst, hxa, hpa, hsecond⟩ := h.internal q y (h.internal_of_child hy hn hc) hy
  -- a child index below the arena names one slot, whose node is `x`
  have same : ∀ (c : Nat) (z : Node), c < q → t.node[c]? = some z → z.parent = BitVec.ofNat 9 q →
      BitVec.ofNat 9 c = BitVec.ofNat 9 n → x.parent = BitVec.ofNat 9 q := by
    intro c z hcq hz hpz e
    obtain rfl : c = n := idx_inj (by omega) (by omega) e
    obtain rfl : z = x := Option.some.inj (hz.symm.trans hx)
    exact hpz
  rcases hc with hc | hc
  · exact same a xa ha hxa hpa (hfirst.symm.trans hc)
  · rcases hsecond with ⟨hnil, -⟩ | ⟨b, xb, hb, -, hsec, hxb, hpb, -⟩
    · exact absurd (hc.symm.trans hnil) (h.node_ne_nil hn)
    · exact same b xb hb hxb hpb (hsec.symm.trans hc)

/-- The two children of a node are not the same node (R25 (a)). -/
theorem children_ne (h : Built ft t) {q n : Nat} {y : Node} (hy : t.node[q]? = some y) (hn : n < t.node.length) :
    ¬ (y.first = BitVec.ofNat 9 n ∧ y.second = BitVec.ofNat 9 n) := by
  rintro ⟨h1, h2⟩
  have hlen := h.len_le
  have hq := getElem?_lt hy
  obtain ⟨-, a, _, ha, hfirst, -, -, hsecond⟩ := h.internal q y (h.internal_of_child hy hn (.inl h1)) hy
  rcases hsecond with ⟨hnil, -⟩ | ⟨b, -, hb, hba, hsec, -⟩
  · exact h.node_ne_nil hn (h2.symm.trans hnil)
  · exact hba (idx_inj (by omega) (by omega) (hsec.symm.trans (h2.trans (h1.symm.trans hfirst))))

/-- Every node but the root is one child of the node it points to (R25 (a)). -/
theorem child_of_parent (h : Built ft t) {n : Nat} {x : Node} (hx : t.node[n]? = some x) (hn : n ≠ t.root.toNat) :
    ∃ p, t.node[x.parent.toNat]? = some p ∧ (p.first = BitVec.ofNat 9 n ∨ p.second = BitVec.ofNat 9 n) := by
  have hlen := h.len_le
  obtain ⟨p, y, hp, -, -, hy, hc⟩ := h.parent n x hx fun e => hn ((h.oneRoot n x hx).1 e)
  have hpl := getElem?_lt hy
  exact ⟨y, by rw [hp, idx_toNat (by omega), hy], hc⟩

/-- The root is the one node without a parent, and internal (R25 (b)). -/
theorem root_node (h : Built ft t) : ∃ r, t.node[t.root.toNat]? = some r ∧ r.parent = NIL ∧ r.kind = .internal := by
  obtain ⟨r, hr⟩ := h.node_of_lt h.root_lt
  exact ⟨r, hr, (h.oneRoot _ r hr).2 rfl, (h.internal _ r h.root_ge hr).1⟩

theorem internal_ge (h : Built ft t) {n : Nat} {x : Node} (hx : t.node[n]? = some x) (hk : x.kind = .internal) :
    (alphabet ft).length ≤ n := by
  by_contra hn
  rw [(h.kind_leaf_iff hx).2 (not_le.1 hn)] at hk
  cases hk

/-- An internal node has a first child, and a second unless it is the synthetic root (R25 (c)). -/
theorem internal_children (h : Built ft t) {n : Nat} {x : Node} (hx : t.node[n]? = some x) (hk : x.kind = .internal) :
    x.first ≠ NIL ∧ (x.second = NIL → (alphabet ft).length = 1 ∧ n = t.root.toNat) := by
  have hlen := h.len_le
  have hn := getElem?_lt hx
  have hL := h.internal_ge hx hk
  obtain ⟨-, a, _, ha, hfirst, -, -, hsecond⟩ := h.internal n x hL hx
  refine ⟨hfirst ▸ idx_ne_nil (by omega), fun hnil => ?_⟩
  rcases hsecond with ⟨-, hone, -⟩ | ⟨b, -, hb, -, hsec, -⟩
  · have hroot := h.rootIdx
    have hcount := h.nodeCount
    rw [if_pos hone] at hcount
    exact ⟨hone, by omega⟩
  · exact absurd (hsec.symm.trans hnil) (idx_ne_nil (by omega))

/-- `LEAF` gives the leaf of each symbol, and nothing else that is a slot in use (R23, R25 (d)). -/
theorem leaf_entry_iff (h : Built ft t) (b : Byte) {n : Nat} (hn : n < t.node.length) :
    entry t.leaf b = BitVec.ofNat 9 n ↔ ∃ x, t.node[n]? = some x ∧ x.kind = .leaf ∧ x.sym = b := by
  have hlen := h.len_le
  have hL := h.alphabet_lt
  obtain ⟨x, hx⟩ := h.node_of_lt hn
  constructor
  · intro e
    have hb : b ∈ alphabet ft := by
      by_contra hb
      exact h.node_ne_nil hn (e.symm.trans (h.leaf_entry_nil.2 hb))
    obtain ⟨hentry, hidx⟩ := h.leaf_entry hb
    obtain rfl : (alphabet ft).idxOf b = n := idx_inj (by omega) (by omega) (hentry.symm.trans e)
    obtain ⟨hk, hsym, -⟩ := h.leaf_kind hidx hx
    rw [List.getElem?_idxOf hb] at hsym
    exact ⟨x, hx, hk, (Option.some.inj hsym).symm⟩
  · rintro ⟨y, hy, hk, rfl⟩
    obtain ⟨-, hsym, -⟩ := h.leaf_kind ((h.kind_leaf_iff hy).1 hk) hy
    obtain ⟨_, hget⟩ := List.getElem?_eq_some_iff.1 hsym
    rw [(h.leaf_entry (List.mem_of_getElem? hsym)).1, ← hget, (alphabet_nodup ft).idxOf_getElem]

/-- No path is longer than 255 bits: a tree of 256 leaves has 255 internal nodes (R25 (e)). -/
theorem down_length_le (h : Built ft t) {i : Nat} (hi : i < t.node.length) : (down t i).length ≤ 255 := by
  obtain ⟨habove, hleaf⟩ := h.down_length hi
  have hL := alphabet_length_le ft
  have hcount := h.nodeCount
  rcases lt_or_ge i (alphabet ft).length with hlt | hge
  · have := hleaf hlt
    split at hcount <;> omega
  · split at hcount <;> omega

/-! ### Frequencies (R33, R95, R99) -/

/-- An internal node with two children has the sum of their frequencies (R95). -/
theorem freq_eq_sum (h : Built ft t) {n : Nat} {x : Node} (hx : t.node[n]? = some x) (hk : x.kind = .internal)
    (hs : x.second ≠ NIL) : ∃ a b : Node, t.node[x.first.toNat]? = some a ∧ t.node[x.second.toNat]? = some b ∧
      x.freq.toNat = a.freq.toNat + b.freq.toNat := by
  have hlen := h.len_le
  have hn := getElem?_lt hx
  obtain ⟨-, a, xa, ha, hfirst, hxa, -, hsecond⟩ := h.internal n x (h.internal_ge hx hk) hx
  rcases hsecond with ⟨hnil, -⟩ | ⟨b, xb, hb, -, hsec, hxb, -, hfreq⟩
  · exact absurd hnil hs
  · exact ⟨xa, xb, by rw [hfirst, idx_toNat (by omega), hxa], by rw [hsec, idx_toNat (by omega), hxb], hfreq⟩

/-- The pool of a finished tree is its root alone (R24, R96). -/
theorem pool_perm_root (h : Built ft t) {r : Node} (hr : t.node[t.root.toNat]? = some r) :
    t.pool.Perm [(r, t.root.toNat)] := by
  have hmem : (r, t.root.toNat) ∈ t.pool := mem_pool.2 ⟨hr, (h.oneRoot _ r hr).2 rfl⟩
  have hrest : t.pool.filter (fun c => c.2 != t.root.toNat) = [] := by
    refine List.filter_eq_nil_iff.2 fun c hc => ?_
    obtain ⟨hnode, hnil⟩ := mem_pool.1 hc
    simpa using (h.oneRoot _ _ hnode).1 hnil
  exact hrest ▸ pool_perm_cons (pool_rising t) hmem

/-- The root has the sum of the table, for the merges keep the sum of the pool (R99). -/
theorem root_freq (h : Built ft t) {r : Node} (hr : t.node[t.root.toNat]? = some r) : r.freq.toNat = tableSum ft := by
  have hsum := ((h.pool_perm_root hr).map (fun c => c.1.freq.toNat)).sum_eq
  rw [h.sum] at hsum
  simpa using hsum.symm

end Built

/-- Settles O31: the invariants are those of a built tree, which the merges keep (R25). -/
theorem treeInvariantsHold : Obligations.TreeInvariantsHold := by
  intro ft t ht
  have h := buildTree_built ht
  have hlen := h.len_le
  refine ⟨h.count, h.size, fun n x hx hn => ⟨?_, fun q y hy hc => ?_⟩, h.root_node, fun n x => h.internal_children,
    fun n x hx hk => ?_, fun b n => h.leaf_entry_iff b, fun n hn => ⟨_, h.down_length_le hn, h.climb_down hn⟩⟩
  · obtain ⟨p, hp, hc⟩ := h.child_of_parent hx hn
    exact ⟨p, hp, hc, h.children_ne hp (getElem?_lt hx)⟩
  · have hq := getElem?_lt hy
    rw [h.parent_of_child hx hy hc, idx_toNat (by omega)]
  · obtain ⟨-, -, hfirst, hsecond, -⟩ := h.leaf_kind ((h.kind_leaf_iff hx).1 hk) hx
    exact ⟨hfirst, hsecond⟩

/-- Settles O32: each merge adds without wrapping, and the root is the last slot and the last node of the pool (R99). -/
theorem frequenciesAreExactSums : Obligations.FrequenciesAreExactSums := by
  intro ft t ht
  have h := buildTree_built ht
  refine ⟨fun n x => h.freq_eq_sum, fun hL => ?_, ?_⟩
  · have hroot := h.rootIdx
    have hcount := h.nodeCount
    rw [if_neg (by omega)] at hcount
    omega
  · obtain ⟨r, hr, -, -⟩ := h.root_node
    exact ⟨r, hr, h.root_freq hr⟩

end Sys2Proof.Machine
end

section
/-! PROOF. The host interface: the register map, the moves of the host, who writes each piece of the state, and the frame
of ENCODE and DECODE. -/

namespace Sys2Proof.Machine

variable {s t : State}

/-! ### Register writes and reads (R15 to R17) -/

/-- A `CMD` write of a command's code runs the command (R15, R63). -/
theorem takeMove_command {v : Word} {i : Instr} (s : State) (h : decode (v.setWidth 8) = .ok i) :
    takeMove (.writeReg 0 v) s = exec i s := by
  show startCommand (v.setWidth 8) s = _
  rw [startCommand, h]

/-- A write of a register other than `CMD` and `ILEN` is ignored (R17). -/
theorem takeMove_ignored {n : Nat} (v : Word) (s : State) (h0 : n ≠ 0) (h2 : n ≠ 2) :
    takeMove (.writeReg n v) s = .next s := by
  match n with
  | 1 | _ + 3 => rfl

/-- Settles O3: the idle block takes the move, and the `CMD` write dispatches on the decoded code. -/
theorem stepRunsTheDecodedCommand : Obligations.StepRunsTheDecodedCommand :=
  fun _ _ _ _ hidle hhost hop => (step_move hidle hhost).trans (takeMove_command _ hop)

/-- `CMD` holds the code of the word that `cmdWrite` carries (R15, R60). -/
theorem decode_tableWord {nbits w : Nat} {i : Instr} (h : decodeTableWord nbits w = some i) :
    decode (((tableWord nbits w).setWidth 64).setWidth 8) = .ok i := by
  rw [BitVec.setWidth_setWidth_of_le _ (by decide), BitVec.setWidth_eq]
  unfold decodeTableWord at h
  cases hd : decode (tableWord nbits w) with
  | ok j => rw [hd] at h; exact congrArg Except.ok (Option.some.inj h)
  | error e => rw [hd] at h; cases h

/-- Settles O5: `withFetchWord` places a `CMD` write of the word in front of the moves. -/
theorem fetchedWordRuns : Obligations.FetchedWordRuns :=
  fun s nbits w i h =>
    stepRunsTheDecodedCommand (s.withFetchWord nbits w) _ s.host i rfl rfl (decode_tableWord h)

/-- Settles O13: by the register numbers. -/
theorem hostRegisterMap : Obligations.HostRegisterMap := by
  refine ⟨fun s n => ?_, fun s => ⟨?_, ?_⟩, fun s n v rest hidle hhost h0 => ?_⟩
  · match n with
    | 0 | 1 | 2 | 3 | 4 | 5 | _ + 6 => rfl
  · ext i hi
    simpa [State.status, hi] using fun _ => hi.trans (by decide)
  · ext i hi
    simp [State.status]
  · rw [step_move hidle hhost]
    by_cases h2 : n = 2
    · subst h2
      rfl
    · rw [takeMove_ignored v _ h0 h2, if_neg h2]

/-- Settles O15: by what a table and a byte space read as after one write. -/
theorem hostWritesReadBack : Obligations.HostWritesReadBack := by
  refine ⟨fun s b v rest hidle hhost => ?_, fun s a v rest hidle hhost ha => ?_⟩
  · refine ⟨{ s with host := rest, ft := setEntry s.ft b v }, step_move hidle hhost, rfl, fun c => ?_⟩
    exact entry_setEntry s.ft b v c
  · refine ⟨writeIn a v { s with host := rest }, (step_move hidle hhost).trans (if_pos ha), rfl, fun c => ?_⟩
    simp only [hostReadIn, writeIn_params, inByte_writeIn]
    by_cases hc : c = a
    · rw [if_pos hc, if_pos hc, if_pos (hc ▸ ha)]
    · rw [if_neg hc, if_neg hc]
      rfl

/-! ### The parameters (R5, R16) -/

/-- No step changes a parameter, reset included (R5, R16). -/
theorem step_params (h : step s = .next t) : t.params = s.params := by
  obtain ⟨-, ⟨-, rfl⟩ | ⟨m, rest, -, hmove⟩⟩ := step_cases h
  · rfl
  · rcases takeMove_cases hmove with ⟨v, i, -, -, hrun⟩ | ⟨v, -, rfl⟩ | ⟨v, -, rfl⟩ | ⟨n, v, -, -, -, rfl⟩ |
      ⟨b, v, -, rfl⟩ | ⟨a, v, -, -, rfl⟩ | ⟨-, rfl⟩
    · exact (exec_keeps hrun).1
    all_goals rfl

/-- `CFG` is a function of the parameters (R16). -/
theorem cfg_congr (h : t.params = s.params) : t.cfg = s.cfg := by rw [State.cfg, State.cfg, h]

/-- The fields of `CFG`: `FW` is 4 or 8, which bits 3:0 hold (R5, R16). -/
theorem cfg_fields (s : State) : (s.cfg.extractLsb' 0 4).toNat = s.params.fwBytes ∧ s.cfg.extractLsb' 4 60 = 0#60 := by
  unfold State.cfg Params.fwBytes
  cases s.params.fw with
  | w4 => decide
  | w8 => decide

/-- Settles O14: `CFG` is a function of the parameters, and every move keeps them. -/
theorem cfgIsConstant : Obligations.CfgIsConstant := by
  refine ⟨cfg_fields, fun s v rest hidle hhost => ?_, fun s t h => ⟨step_params h, cfg_congr (step_params h)⟩⟩
  exact (step_move hidle hhost).trans (takeMove_ignored v _ (by decide) (by decide))

/-! ### Who writes what (R10 to R14, R18, R19) -/

theorem inByte_congr (h1 : t.inMem = s.inMem) (h2 : t.inSeed = s.inSeed) (a : Nat) : t.inByte a = s.inByte a := by
  rw [State.inByte, State.inByte, h1, h2]

/-- COUNT leaves the last result as it was, on success and on failure (R80, R160). -/
theorem exec_count_keeps_result (h : exec .count s = .next t) :
    t.olen = s.olen ∧ t.bitcnt = s.bitcnt ∧ ∀ a, t.outByte a = s.outByte a := by
  rcases exec_cases .count s with ⟨e, he⟩ | ⟨u, hu, -, ⟨-, -, -, rfl⟩ | ⟨hne, -⟩⟩
  · obtain rfl : t = _ := by injection h.symm.trans he
    exact ⟨rfl, rfl, fun _ => rfl⟩
  · obtain rfl : t = _ := by injection h.symm.trans hu
    exact ⟨rfl, rfl, fun _ => rfl⟩
  · exact absurd rfl hne

/-- Settles O16, by the move that the step takes: each changes what it names, and a command what its frame allows. -/
theorem whoWritesWhat : Obligations.WhoWritesWhat := by
  intro s t h
  obtain ⟨-, ⟨-, rfl⟩ | ⟨m, rest, hhost, hmove⟩⟩ := step_cases h
  · exact .inr ⟨.inl rfl, .inl rfl, .inl fun _ => rfl, .inl ⟨rfl, rfl, fun _ => rfl⟩, .inl rfl⟩
  · rcases takeMove_cases hmove with ⟨v, i, rfl, hop, hrun⟩ | ⟨v, rfl, rfl⟩ | ⟨v, rfl, rfl⟩ | ⟨n, v, -, -, -, rfl⟩ |
      ⟨b, v, rfl, rfl⟩ | ⟨a, v, rfl, -, rfl⟩ | ⟨rfl, -⟩
    · obtain ⟨-, hilen, hin, hseed, -, hft, -⟩ := exec_keeps hrun
      refine .inr ⟨?_, .inl hilen, .inl (inByte_congr hin hseed), ?_, .inr ⟨v, rest, hhost⟩⟩
      · by_cases hi : i = .count
        · exact .inr (.inr ⟨v, rest, hhost, hi ▸ hop⟩)
        · exact .inl (hft hi)
      · cases i with
        | count =>
          have hkeep := exec_count_keeps_result hrun
          exact .inl hkeep
        | encode => exact .inr ⟨v, rest, hhost, .inl hop⟩
        | decode => exact .inr ⟨v, rest, hhost, .inr hop⟩
    · exact .inr ⟨.inl rfl, .inl rfl, .inl fun _ => rfl, .inl ⟨rfl, rfl, fun _ => rfl⟩, .inr ⟨v, rest, hhost⟩⟩
    · exact .inr ⟨.inl rfl, .inr ⟨v, rest, hhost⟩, .inl fun _ => rfl, .inl ⟨rfl, rfl, fun _ => rfl⟩, .inl rfl⟩
    · exact .inr ⟨.inl rfl, .inl rfl, .inl fun _ => rfl, .inl ⟨rfl, rfl, fun _ => rfl⟩, .inl rfl⟩
    · exact .inr ⟨.inr (.inl ⟨b, v, rest, hhost⟩), .inl rfl, .inl fun _ => rfl, .inl ⟨rfl, rfl, fun _ => rfl⟩, .inl rfl⟩
    · exact .inr ⟨.inl rfl, .inl rfl, .inr ⟨a, v, rest, hhost⟩, .inl ⟨rfl, rfl, fun _ => rfl⟩, .inl rfl⟩
    · exact .inl ⟨rest, hhost⟩

/-! ### The frame of ENCODE and DECODE (R62, R160) -/

/-- Settles O41: a success is `deliver` with another `OUT`, and a failure is what `raise` leaves. -/
theorem encodeAndDecodeFrame : Obligations.EncodeAndDecodeFrame := by
  intro i s t hi h
  rcases exec_cases i s with ⟨e, he⟩ | ⟨u, hu, -, ⟨hcount, -⟩ | ⟨-, hframe, habove⟩⟩
  · obtain rfl : t = _ := by injection h.symm.trans he
    have hf := raiseError_failedAs hi e s
    refine ⟨⟨hf.ft, hf.ilen, hf.inMem, hf.inSeed, hf.params, hf.host⟩, inByte_congr hf.inMem hf.inSeed, hf.phase, hf.tree,
      fun a _ => by rw [hf.out]; rfl, ?_⟩
    cases i with
    | count => exact absurd rfl hi
    | encode => rfl
    | decode => rfl
  · exact absurd hcount hi
  · obtain rfl : t = u := by injection h.symm.trans hu
    refine ⟨?_, ?_, ?_, ?_, habove, ?_⟩ <;> rw [hframe]
    · exact ⟨rfl, rfl, rfl, rfl, rfl, rfl⟩
    · exact fun _ => rfl
    · rfl
    · rfl
    · rfl

end Sys2Proof.Machine
end

section
/-! PROOF. The memories: where the model stops at a move of the host, and that a command depends on no byte outside its
input buffer. -/

namespace Sys2Proof.Machine

/-! ### Where the model stops (R40, R52) -/

/-- Settles O7: the write of a missing address is the move's own fault, and a phase other than `IDLE` takes no move. -/
theorem whereTheModelStops : Obligations.WhereTheModelStops :=
  ⟨fun _ _ _ _ hidle hhost hmissing => (step_move hidle hhost).trans (if_neg (Nat.not_lt.2 hmissing)),
    fun _ hbusy => if_neg hbusy⟩

/-! ### COUNT as a function of its operands (R80) -/

/-- What COUNT does, as a function of its operands: the table of the buffer, or the first error (R80, R165). -/
def countOutcome (s : State) : Except ErrorCode (Vector Count 256) := do
  entryChecks s
  if countOverflows s then .error .countOverflow else .ok (countTable s)

/-- COUNT writes the table of its outcome, or raises the outcome's error. -/
theorem exec_count_eq (s : State) :
    exec .count s = match countOutcome s with
      | .ok table => .next { s with ft := table, err := 0#8, phase := .idle }
      | .error e => .next (raiseError .count e s) := by
  unfold countOutcome
  rcases exec_count_cases s with ⟨hempty, hrun⟩ | ⟨hlen, hlong, hrun⟩ | ⟨hfits, hover, hrun⟩ |
    ⟨hfits, hcounts, hrun⟩
  · rw [hrun, entryChecks, if_pos hempty]
    rfl
  · rw [hrun, entryChecks, if_neg hlen, if_pos hlong]
    rfl
  · rw [hrun, entryChecks_ok hfits, if_pos ((countOverflows_iff s).2 hover)]
    rfl
  · have hnone : ¬ countOverflows s = true := fun h =>
      have ⟨b, hb⟩ := (countOverflows_iff s).1 h
      absurd (hcounts b) (Nat.not_le.2 hb)
    rw [hrun, entryChecks_ok hfits, if_neg hnone]
    rfl

/-! ### DECODE past its checks (R133) -/

/-- A DECODE that delivers symbols has passed the footer checks (R133). -/
theorem footerFits_of_decodeOutcome_ok {s : State} {l : List Byte} (h : decodeOutcome s = .ok l) : FooterFits s := by
  rcases decodeOutcome_cases s with ⟨-, e⟩ | ⟨-, -, e⟩ | ⟨-, -, e⟩ | ⟨-, -, e⟩ | ⟨-, hfits, -⟩
  case inr.inr.inr.inr => exact hfits
  all_goals cases h.symm.trans e

/-! ### The other state of the comparison (R55) -/

/-- The state with other contents of `IN` and `OUT`. -/
def State.withSpaces (inMem : Memory) (inSeed : Nat) (out : Memory) (s : State) : State :=
  { s with inMem := inMem, inSeed := inSeed, out := out }

section

variable {s t v : State} {inMem out : Memory} {inSeed : Nat}

/-- A failed ENCODE or DECODE drops every byte of `OUT`, so it leaves the same whatever `OUT` held (R160). -/
theorem raiseError_withSpaces {c : Instr} (hc : c ≠ .count) (e : ErrorCode) :
    raiseError c e (s.withSpaces inMem inSeed out) =
      (raiseError c e s).withSpaces inMem inSeed (raiseError c e s).out := by
  have hdrop : Memory.below 0 out = Memory.below 0 s.out := by rw [Memory.below_zero, Memory.below_zero]
  cases c with
  | count => exact absurd rfl hc
  | encode => exact congrArg ((raiseError .encode e s).withSpaces inMem inSeed) hdrop
  | decode => exact congrArg ((raiseError .decode e s).withSpaces inMem inSeed) hdrop

/-- Two results handed over by `deliver` that agree in `OUT`, `OLEN` and `BITCNT` differ in nothing but `IN` (R120, R130). -/
theorem deliver_withSpaces (ht : t = { deliver t.olen t.bitcnt s with out := t.out })
    (hv : v = { deliver v.olen v.bitcnt (s.withSpaces inMem inSeed out) with out := v.out })
    (hresult : v.out = t.out ∧ v.olen = t.olen ∧ v.bitcnt = t.bitcnt) : v = t.withSpaces inMem inSeed t.out := by
  obtain ⟨hout, holen, hbitcnt⟩ := hresult
  rw [hv, hout, holen, hbitcnt, ht]
  rfl

/-! ### The outcomes depend on the buffer alone (R41, R55) -/

variable (hbuf : ∀ a, a < s.ilen.toNat → (s.withSpaces inMem inSeed out).inByte a = s.inByte a)
include hbuf

theorem occursIn_withSpaces (b : Byte) : occursIn (s.withSpaces inMem inSeed out) b = occursIn s b :=
  congrArg (List.count b) (buffer_congr rfl hbuf)

theorem countOutcome_withSpaces : countOutcome (s.withSpaces inMem inSeed out) = countOutcome s := by
  have hoccurs := occursIn_withSpaces hbuf
  have htable : countTable (s.withSpaces inMem inSeed out) = countTable s :=
    table_ext fun b => by rw [entry_countTable, entry_countTable, hoccurs]
  have hover : countOverflows (s.withSpaces inMem inSeed out) = countOverflows s :=
    Bool.eq_iff_iff.2 (by simp only [countOverflows_iff, hoccurs])
  rw [countOutcome, countOutcome, htable, hover]
  rfl

theorem encodeOutcome_withSpaces : encodeOutcome (s.withSpaces inMem inSeed out) = encodeOutcome s :=
  encodeOutcome_congr rfl rfl rfl rfl rfl hbuf

/-- The footer lies in the buffer, if the buffer is long enough to hold one (R132). -/
theorem footerValue_withSpaces (hlong : s.params.fwBytes ≤ s.ilen.toNat) :
    footerValue (s.withSpaces inMem inSeed out) = footerValue s :=
  littleEndian_congr fun j (hj : j < s.params.fwBytes) =>
    hbuf (s.ilen.toNat - s.params.fwBytes + j) (by omega)

theorem footerFits_withSpaces : FooterFits (s.withSpaces inMem inSeed out) ↔ FooterFits s :=
  and_congr_right fun hlong => by rw [footerValue_withSpaces hbuf hlong]; rfl

/-- The stream bits that the footer declares lie in the buffer (R133). -/
theorem inStream_withSpaces (hfits : FooterFits s) :
    inStream (s.withSpaces inMem inSeed out) (footerValue s) = inStream s (footerValue s) := by
  obtain ⟨-, hdeclared⟩ := hfits
  refine inStream_congr fun p hp => ?_
  rw [streamBit, streamBit, hbuf (p / 8) (by omega)]

/-- A buffer that fails the footer checks fails them whatever follows it: where it is shorter than a footer, the value
that `footerValue` reads beyond it is not used (R133, R165). -/
theorem readFooter_withSpaces : readFooter (s.withSpaces inMem inSeed out) = readFooter s := by
  have hiff := footerFits_withSpaces hbuf
  rcases readFooter_cases s with ⟨hnot, hs⟩ | ⟨hfits, hs⟩
  · rcases readFooter_cases (s.withSpaces inMem inSeed out) with ⟨-, hu⟩ | ⟨hfits, -⟩
    · rw [hu, hs]
    · exact absurd (hiff.1 hfits) hnot
  · rw [readFooter_ok (hiff.2 hfits), hs, footerValue_withSpaces hbuf hfits.1]

theorem decodeOutcome_withSpaces : decodeOutcome (s.withSpaces inMem inSeed out) = decodeOutcome s := by
  by_cases hfits : FooterFits s
  · exact decodeOutcome_congr rfl rfl rfl rfl rfl (footerValue_withSpaces hbuf hfits.1) (inStream_withSpaces hbuf hfits)
  · have hfail : readFooter s = .error .truncatedStream :=
      (readFooter_cases s).elim And.right fun h => absurd h.1 hfits
    rw [decodeOutcome, decodeOutcome, readFooter_withSpaces hbuf, hfail]
    rfl

/-! ### The commands depend on the buffer alone (R41, R55) -/

theorem exec_count_withSpaces :
    ∃ t, exec .count s = .next t ∧
      exec .count (s.withSpaces inMem inSeed out) = .next (t.withSpaces inMem inSeed out) := by
  rw [exec_count_eq, exec_count_eq, countOutcome_withSpaces hbuf]
  cases countOutcome s with
  | ok table => exact ⟨_, rfl, rfl⟩
  | error e => exact ⟨_, rfl, rfl⟩

theorem exec_encode_withSpaces (hp : s.params.Legal) (hs : Memory.wf s.out) (hout : Memory.wf out) :
    ∃ t, exec .encode s = .next t ∧
      exec .encode (s.withSpaces inMem inSeed out) = .next (t.withSpaces inMem inSeed t.out) := by
  have hsame := encodeOutcome_withSpaces hbuf
  cases ho : encodeOutcome s with
  | ok l =>
    obtain ⟨t, ht, hl⟩ := exec_encode_ok hp ho
    obtain ⟨v, hv, hm⟩ := exec_encode_ok (s := s.withSpaces inMem inSeed out) hp (hsame.trans ho)
    exact ⟨t, ht, hv.trans (congrArg _ (deliver_withSpaces hl.frame hm.frame (hl.unique hm hs hout rfl)))⟩
  | error e =>
    have hu := exec_encode_error (s := s.withSpaces inMem inSeed out) hp (hsame.trans ho)
    exact ⟨_, exec_encode_error hp ho, hu.trans (congrArg _ (raiseError_withSpaces (by decide) e))⟩

theorem exec_decode_withSpaces (hp : s.params.Legal) (hs : Memory.wf s.out) (hout : Memory.wf out) :
    ∃ t, exec .decode s = .next t ∧
      exec .decode (s.withSpaces inMem inSeed out) = .next (t.withSpaces inMem inSeed t.out) := by
  have hsame := decodeOutcome_withSpaces hbuf
  cases ho : decodeOutcome s with
  | ok l =>
    obtain ⟨t, ht, hl⟩ := exec_decode_ok hp ho
    obtain ⟨v, hv, hm⟩ := exec_decode_ok (s := s.withSpaces inMem inSeed out) hp (hsame.trans ho)
    have hfooter := footerValue_withSpaces hbuf (footerFits_of_decodeOutcome_ok ho).1
    exact ⟨t, ht, hv.trans (congrArg _ (deliver_withSpaces hl.frame hm.frame (hl.unique hm hs hout hfooter)))⟩
  | error e =>
    have hu := exec_decode_error (s := s.withSpaces inMem inSeed out) hp (hsame.trans ho)
    exact ⟨_, exec_decode_error hp ho, hu.trans (congrArg _ (raiseError_withSpaces (by decide) e))⟩

end

/-- Settles O42, by command: its outcome is a function of the table, the parameters and the buffer, and the state it
leaves is fixed by the outcome but for `IN`, and after COUNT for `OUT`, which stay as they were. -/
theorem commandsReadOnlyTheBuffer : Obligations.CommandsReadOnlyTheBuffer := by
  intro i s inMem out inSeed hp hs hout u hbuf
  cases i with
  | count => exact exec_count_withSpaces hbuf
  | encode => exact exec_encode_withSpaces hbuf hp hs hout
  | decode => exact exec_decode_withSpaces hbuf hp hs hout

end Sys2Proof.Machine
end

section
/-! PROOF. The command word and the host's buffer moves: what the decoder answers, what a reserved code does, and that
`LOOPBACK` carries the result to the input. -/

namespace Sys2Proof.Machine

/-! ### The command word (R60, R61, R64, R73) -/

/-- A row whose mask is 0xFF compares all eight bits (R61). -/
theorem answers_of_full_mask {r : OpcodeRow} (h : r.mask = 0xFF#8) (op : BitVec 8) : r.answers op = (op == r.code) := by
  rw [OpcodeRow.answers, h, show 0xFF#8 = BitVec.allOnes 8 from rfl, BitVec.and_allOnes]

/-- Settles O1: every row compares all eight bits, so the first row that answers is the one whose code the word is. -/
theorem decoderAnswersEveryCode : Obligations.DecoderAnswersEveryCode := by
  intro op
  by_cases hcount : op = 0x01#8
  · subst hcount; rfl
  by_cases hencode : op = 0x02#8
  · subst hencode; rfl
  by_cases hdecode : op = 0x03#8
  · subst hdecode; rfl
  have hnone : opcodeTable.find? (fun r => r.answers op) = none := by
    simp [opcodeTable, answers_of_full_mask, hcount, hencode, hdecode]
  rw [if_neg hcount, if_neg hencode, if_neg hdecode, decode, hnone]

/-- Settles O2: a word that decodes to a command has one of the three codes, each the code of its command. -/
theorem decodeAndEncodeAgree : Obligations.DecodeAndEncodeAgree := by
  refine ⟨fun i => ?_, fun op i h => ?_⟩
  · cases i with
    | count | encode | decode => rfl
  · rw [decoderAnswersEveryCode op] at h
    split_ifs at h with hcount hencode hdecode <;> cases h
    · exact hcount.symm
    · exact hencode.symm
    · exact hdecode.symm

/-- A `CMD` write of a word that is no command's takes IllegalCommandError (R64, R151). -/
theorem takeMove_reserved {v : Word} {r : Reject} (s : State) (h : decode (v.setWidth 8) = .error r) :
    takeMove (.writeReg 0 v) s = .next (illegalCommand s) := by
  show startCommand (v.setWidth 8) s = _
  rw [startCommand, h]

/-- Settles O4: the decoder rejects the code, and IllegalCommandError writes `STATUS.ERR` alone. -/
theorem reservedCodeIsIllegalCommand : Obligations.ReservedCodeIsIllegalCommand := by
  intro s v rest hidle hhost hcount hencode hdecode
  have hreserved : decode (v.setWidth 8) = .error (.reservedCode (v.setWidth 8)) := by
    rw [decoderAnswersEveryCode, if_neg hcount, if_neg hencode, if_neg hdecode]
  exact (step_move hidle hhost).trans (takeMove_reserved _ hreserved)

/-! ### The footer (R66) -/

/-- Settles O51: the footer value is the little-endian value of the last `FW` bytes. -/
theorem footerIsLittleEndian : Obligations.FooterIsLittleEndian :=
  fun s _ => ⟨footerValue_le s, fun _ hk => littleEndian_byte s (s.ilen.toNat - s.params.fwBytes) hk⟩

/-! ### Loading `IN` (R71, R72) -/

/-- `IN <- b0 b1 ... bn-1` puts the bytes into `IN[0..n-1]` and `n` into `ILEN`, and changes nothing else (R71). -/
theorem run_loadIn (bytes : List Byte) {s : State} {rest : List HostMove} (hidle : s.phase = .idle)
    (hhost : s.host = loadIn bytes ++ rest) (hfits : bytes.length ≤ s.params.inMax) :
    ∃ t, Host.Core.run Sys2Proof.core (loadIn bytes).length s = .next t ∧
      t = { s with host := rest, ilen := BitVec.ofNat 64 bytes.length, inMem := t.inMem } ∧
      ∀ a, t.inByte a = if a < bytes.length then bytes.getD a 0#8 else s.inByte a := by
  have hmoves : s.host = writeBytes 0 bytes ++ (.writeReg 2 (BitVec.ofNat 64 bytes.length) :: rest) := by
    rw [hhost, loadIn, List.append_assoc, List.singleton_append]
  obtain ⟨u, hrun, hframe, hbytes⟩ := run_writeBytes bytes 1 hidle hmoves (by omega)
  have hlength : step u = .next { u with host := rest, ilen := BitVec.ofNat 64 bytes.length } := by
    have huidle : u.phase = .idle := by rw [hframe]; exact hidle
    have huhost : u.host = .writeReg 2 (BitVec.ofNat 64 bytes.length) :: rest := by rw [hframe]
    exact step_move huidle huhost
  refine ⟨{ u with host := rest, ilen := BitVec.ofNat 64 bytes.length }, ?_, ?_, fun a => ?_⟩
  · rw [loadIn, List.length_append, writeBytes_length]
    exact hrun.trans (run_next hlength)
  · rw [hframe]
  · refine (hbytes a).trans ?_
    simp only [Nat.zero_le, true_and, Nat.zero_add, Nat.sub_zero]

theorem result_length (s : State) : (result s).length = s.olen.toNat := by simp [result]

theorem result_getD (s : State) {a : Nat} (h : a < s.olen.toNat) (d : Byte) : (result s).getD a d = s.outByte a := by
  simp [result, h]

/-- Settles O17: `LOOPBACK` is `IN <- b0 b1 ... bn-1` with the bytes of the result (R71, R72). -/
theorem loopbackCopiesTheResult : Obligations.LoopbackCopiesTheResult := by
  intro s rest hs hfits
  have hlength : (result s).length ≤ s.params.inMax := result_length s ▸ hfits
  obtain ⟨t, hrun, hframe, hbytes⟩ :=
    run_loadIn (result s) (s := { s with host := loopback s ++ rest }) (rest := rest) hs.idle rfl hlength
  rw [result_length] at hframe hbytes
  refine ⟨t, hrun, ?_, fun a ha => ?_, fun a ha => ?_⟩
  · rw [BitVec.ofNat_toNat, BitVec.setWidth_eq] at hframe
    exact hframe
  · rw [hbytes, if_pos ha, result_getD s ha]
  · rw [hbytes, if_neg (Nat.not_lt.2 ha)]
    rfl

end Sys2Proof.Machine
end

section
/-! PROOF. COUNT: its case distinction for the idle block, the counts of a successful run and their sum, and that an
ENCODE of the counted buffer finds a leaf for every symbol. -/

namespace Sys2Proof.Machine

variable {s t : State}

/-! ### The idle block (R80 to R84) -/

/-- What COUNT raises in the idle block changes `STATUS.ERR` alone (R84). -/
theorem raiseError_count_of_idle (hidle : s.phase = .idle) (e : ErrorCode) :
    raiseError .count e s = { s with err := e.code } :=
  congrArg (fun p => { s with err := e.code, phase := p }) hidle.symm

/-- COUNT of the idle block is one of its errors, in their order, or the table (R80 to R83). -/
theorem exec_count_cases_of_idle (hidle : s.phase = .idle) :
    (s.ilen = 0#64 ∧ exec .count s = .next { s with err := ErrorCode.emptyInput.code }) ∨
    (s.ilen ≠ 0#64 ∧ s.params.inMax < s.ilen.toNat ∧
      exec .count s = .next { s with err := ErrorCode.lengthRange.code }) ∨
    (BufferFits s ∧ (∃ b, 2 ^ 32 - 1 < occursIn s b) ∧
      exec .count s = .next { s with err := ErrorCode.countOverflow.code }) ∨
    (BufferFits s ∧ (∀ b, occursIn s b ≤ 2 ^ 32 - 1) ∧
      exec .count s = .next { s with ft := countTable s, err := 0#8 }) := by
  have hcases := exec_count_cases s
  have table : { s with ft := countTable s, err := 0#8, phase := .idle } = { s with ft := countTable s, err := 0#8 } :=
    congrArg (fun p => { s with ft := countTable s, err := 0#8, phase := p }) hidle.symm
  simpa only [raiseError_count_of_idle hidle, table] using hcases

/-- Settles O18: the table is that of the buffer, and the cases of COUNT are those of the statement. -/
theorem countIsTheTableOrAnError : Obligations.CountIsTheTableOrAnError := by
  intro s hidle
  refine ⟨countTable s, entry_countTable s, fun ⟨b, hover⟩ => ?_, fun hcounts => ?_⟩ <;>
    rcases exec_count_cases_of_idle hidle with ⟨hempty, hrun⟩ | ⟨hlen, hlong, hrun⟩ | ⟨⟨hlen, hfits⟩, hmany, hrun⟩ |
      ⟨⟨hlen, hfits⟩, hfew, hrun⟩
  · rw [hrun, if_pos hempty]
  · rw [hrun, if_neg hlen, if_pos hlong]
  · rw [hrun, if_neg hlen, if_neg (Nat.not_lt.2 hfits)]
  · exact absurd (hfew b) (Nat.not_le.2 hover)
  · rw [hrun, if_pos hempty]
  · rw [hrun, if_neg hlen, if_pos hlong]
  · obtain ⟨b, hb⟩ := hmany
    exact absurd (hcounts b) (Nat.not_le.2 hb)
  · rw [hrun, if_neg hlen, if_neg (Nat.not_lt.2 hfits)]

/-- Settles O22: each error case changes `STATUS.ERR` alone, and the table case is no failure. -/
theorem failedCountChangesErrOnly : Obligations.FailedCountChangesErrOnly := by
  intro s t hidle h hfailed
  rcases exec_count_cases_of_idle hidle with ⟨-, hrun⟩ | ⟨-, -, hrun⟩ | ⟨-, -, hrun⟩ | ⟨-, -, hrun⟩ <;>
    obtain rfl : t = _ := by injection h.symm.trans hrun
  · rfl
  · rfl
  · rfl
  · exact absurd rfl hfailed

/-- Settles O23, by the cases of COUNT; no command writes `IN`, and COUNT keeps the last result. -/
theorem countFrame : Obligations.CountFrame := by
  intro s t hidle h
  have frame : t = { s with ft := t.ft, err := t.err } := by
    rcases exec_count_cases_of_idle hidle with ⟨-, hrun⟩ | ⟨-, -, hrun⟩ | ⟨-, -, hrun⟩ | ⟨-, -, hrun⟩ <;>
    · obtain rfl : t = _ := by injection h.symm.trans hrun
      rfl
  obtain ⟨-, -, hin, hseed, -⟩ := exec_keeps h
  obtain ⟨-, -, hout⟩ := exec_count_keeps_result h
  exact ⟨frame, inByte_congr hin hseed, hout⟩

/-! ### The counts of a successful COUNT (R80, R85) -/

/-- Settles O19: the checks pass and no count overflows, which leaves the table case of COUNT. -/
theorem countCompletes : Obligations.CountCompletes := by
  intro s ⟨hlen, hfits⟩ hcounts
  rcases exec_count_cases s with ⟨hempty, -⟩ | ⟨-, hlong, -⟩ | ⟨-, ⟨b, hover⟩, -⟩ | ⟨-, -, hrun⟩
  · exact absurd hempty hlen
  · exact absurd hfits (Nat.not_le.2 hlong)
  · exact absurd (hcounts b) (Nat.not_le.2 hover)
  · exact ⟨_, hrun, rfl, fun b => entry_countTable_toNat (hcounts b)⟩

/-- A COUNT that ends with `STATUS.ERR` 0 has passed its checks and written the exact counts. -/
theorem exec_count_success (h : exec .count s = .next t) (herr : t.err = 0#8) :
    BufferFits s ∧ (∀ b, (entry t.ft b).toNat = occursIn s b) ∧
      t = { s with ft := countTable s, err := 0#8, phase := .idle } := by
  rcases exec_cases .count s with ⟨e, hrun⟩ | ⟨v, hrun, -, ⟨-, hfits, hcounts, rfl⟩ | ⟨hne, -⟩⟩
  · obtain rfl : t = _ := by injection h.symm.trans hrun
    exact absurd herr (raiseError_err .count e s ▸ code_ne_zero e)
  · obtain rfl : t = _ := by injection h.symm.trans hrun
    exact ⟨hfits, fun b => entry_countTable_toNat (hcounts b), rfl⟩
  · exact absurd rfl hne

/-- Settles O20: the entries are the counts of all byte values, which sum to the length of the buffer. -/
theorem countedTableSumsToLength : Obligations.CountedTableSumsToLength := by
  intro s t h herr
  obtain ⟨-, hcounts, -⟩ := exec_count_success h herr
  calc tableSum t.ft
      = ((List.range 256).map (fun i => (buffer s).count (BitVec.ofNat 8 i))).sum :=
        congrArg List.sum (List.map_congr_left fun i _ => hcounts (BitVec.ofNat 8 i))
    _ = (buffer s).length := sum_count_bytes (buffer s) 256 rfl
    _ = s.ilen.toNat := buffer_length s

/-! ### ENCODE of a counted buffer (R86) -/

theorem buffer_ne_nil (hlen : s.ilen ≠ 0#64) : buffer s ≠ [] := fun hnil =>
  hlen (BitVec.eq_of_toNat_eq (by simpa [hnil] using (buffer_length s).symm))

/-- An ENCODE whose symbols all have an entry, of which there is one, raises neither SymbolNotInTreeError nor
EmptyAlphabetError (R92, R123). -/
theorem encode_err_of_entries (hp : s.params.Legal) (hleaves : ∀ b ∈ buffer s, entry s.ft b ≠ 0#32)
    (hsome : ∃ b, entry s.ft b ≠ 0#32) (h : exec .encode s = .next t) :
    t.err ≠ ErrorCode.symbolNotInTree.code ∧ t.err ≠ ErrorCode.emptyAlphabet.code := by
  rcases encode_next_cases hp h with ⟨l, -, henc⟩ | ⟨e, he, rfl⟩
  · rw [henc.err]
    exact ⟨(code_ne_zero _).symm, (code_ne_zero _).symm⟩
  · have hkind : e ≠ .symbolNotInTree ∧ e ≠ .emptyAlphabet := by
      rcases encodeOutcome_error he with rfl | rfl | ⟨-, hnone⟩ | ⟨-, b, hb, hzero⟩ | rfl | rfl
      · decide
      · decide
      · obtain ⟨b, hb⟩ := hsome
        exact absurd (alphabet_eq_nil.1 hnone b) hb
      · exact absurd hzero (hleaves b hb)
      · decide
      · decide
    rw [raiseError_err]
    exact hkind.imp (mt code_inj) (mt code_inj)

/-- Settles O21: a byte of the buffer occurs in it, so its exact count is not 0; COUNT leaves the buffer as it was. -/
theorem countedBufferHasLeaves : Obligations.CountedBufferHasLeaves := by
  intro s t h herr
  obtain ⟨⟨hlen, -⟩, hcounts, hframe⟩ := exec_count_success h herr
  have hleaves : ∀ b ∈ buffer s, entry t.ft b ≠ 0#32 := by
    intro b hb hzero
    have hpos : 0 < occursIn s b := List.count_pos_iff.2 hb
    rw [← hcounts b, hzero] at hpos
    exact absurd hpos (by decide)
  obtain ⟨b, hb⟩ := List.exists_mem_of_ne_nil _ (buffer_ne_nil hlen)
  have hsome : ∃ b, entry t.ft b ≠ 0#32 := ⟨b, hleaves b hb⟩
  have hbuffer : buffer t = buffer s := by rw [hframe]; rfl
  have hparams : t.params = s.params := by rw [hframe]
  exact ⟨hleaves, hsome, fun u hp henc => encode_err_of_entries (hparams ▸ hp) (hbuffer ▸ hleaves) hsome henc⟩

end Sys2Proof.Machine
end

section
/-! PROOF. BUILD: the order of the pool and its two last nodes, one merge, the leaves and the counts, the case of one
symbol, and the stored codes of the tree. -/

namespace Sys2Proof.Machine

/-! ### The stored codes (R100, R101) -/

/-- Settles O33: a code that begins with another is that other, for the inner nodes of its path are no leaves. -/
theorem storedCodesFormAPrefixCode : Obligations.StoredCodesFormAPrefixCode := by
  intro ft t ht b hb
  have h := buildTree_built ht
  refine ⟨h.storedCode_ne_nil hb, fun c hc hbc hprefix => ?_⟩
  obtain ⟨u, hu⟩ := hprefix
  exact hbc (h.storedCode_inj_of_append hb hc hu.symm).1

/-! ### The order of the pool (R94) -/

theorem comesBefore_iff {x y : Candidate} :
    comesBefore x y = true ↔ y.1.freq < x.1.freq ∨ (x.1.freq = y.1.freq ∧ x.2 < y.2) := by
  simp [comesBefore]

/-- Of two candidates with different indices exactly one comes before the other. -/
theorem comesBefore_eq_not {x y : Candidate} (hne : x.2 ≠ y.2) : comesBefore x y = !comesBefore y x := by
  rw [Bool.eq_iff_iff, Bool.not_eq_true', ← Bool.not_eq_true, comesBefore_iff, comesBefore_iff, BitVec.lt_def,
    BitVec.lt_def, ← BitVec.toNat_inj, ← BitVec.toNat_inj]
  omega

/-- The pick comes before no candidate. -/
theorem not_pick_comesBefore {l : List Candidate} {a x : Candidate} (ha : pick l = some a) (hx : x ∈ l) :
    comesBefore a x = false := by
  obtain ⟨hleast, hgreatest⟩ := (pick_spec ha).2 x hx
  rw [← Bool.not_eq_true, comesBefore_iff]
  rintro (hlt | ⟨heq, hidx⟩)
  · exact absurd hleast (BitVec.not_le.2 hlt)
  · exact absurd (hgreatest heq.symm) (Nat.not_le.2 hidx)

theorem exists_pick {l : List Candidate} (hl : l ≠ []) : ∃ a, pick l = some a :=
  Option.ne_none_iff_exists'.1 (mt pick_eq_none.1 hl)

/-- Taking one of the candidates with distinct indices out of a list leaves the rest. -/
theorem perm_cons_filter {l : List Candidate} (hl : (l.map Prod.snd).Nodup) {a : Candidate} (ha : a ∈ l) :
    l.Perm (a :: l.filter (fun c => c.2 != a.2)) := by
  have hfilter : l.filter (fun c => c.2 != a.2) = l.erase a := by
    rw [(hl.of_map _).erase_eq_filter]
    refine List.filter_congr fun c hc => ?_
    rw [Bool.eq_iff_iff, bne_iff_ne, bne_iff_ne, not_iff_not]
    exact ⟨fun e => List.inj_on_of_nodup_map hl hc ha e, congrArg _⟩
  exact hfilter ▸ List.perm_cons_erase ha

/-- Settles O24: the pick comes before no candidate, so of distinct indices every other comes before it. -/
theorem pickIsLastOfTheOrder : Obligations.PickIsLastOfTheOrder := by
  refine ⟨fun x y => comesBefore_iff, fun x y => comesBefore_eq_not, fun l hl => ?_, fun l hl hlen => ?_⟩
  · obtain ⟨a, ha⟩ := exists_pick hl
    exact ⟨a, ha, pick_spec ha⟩
  · obtain ⟨a, ha⟩ := exists_pick (List.ne_nil_of_length_pos (by omega : 0 < l.length))
    have ham := (pick_spec ha).1
    have hrest : l.filter (fun c => c.2 != a.2) ≠ [] := fun hnil => by
      have := (perm_cons_filter hl ham).length_eq
      rw [hnil, List.length_singleton] at this
      omega
    obtain ⟨b, hb⟩ := exists_pick hrest
    obtain ⟨hbl, hba⟩ := List.mem_filter.1 (pick_spec hb).1
    rw [bne_iff_ne] at hba
    refine ⟨a, b, ha, hb, hbl, ?_, fun x hx hxa hxb => ?_⟩
    · rw [comesBefore_eq_not hba, not_pick_comesBefore ha hbl]; rfl
    · have hxm : x ∈ l.filter (fun c => c.2 != a.2) :=
        List.mem_filter.2 ⟨hx, bne_iff_ne.2 fun e => hxa (List.inj_on_of_nodup_map hl hx ham e)⟩
      rw [comesBefore_eq_not fun e => hxb (List.inj_on_of_nodup_map hl hx hbl e), not_pick_comesBefore hb hxm]
      rfl

/-! ### A stable sort of the pool (R97) -/

/-- The pool as a stable sort on descending frequency leaves it (R97). -/
def sortDescending (l : List Candidate) : List Candidate := l.mergeSort (fun x y => decide (y.1.freq ≤ x.1.freq))

theorem descending_trans (x y z : Candidate) (hxy : decide (y.1.freq ≤ x.1.freq) = true)
    (hyz : decide (z.1.freq ≤ y.1.freq) = true) : decide (z.1.freq ≤ x.1.freq) = true :=
  decide_eq_true (BitVec.le_trans (of_decide_eq_true hyz) (of_decide_eq_true hxy))

theorem descending_total (x y : Candidate) :
    (decide (y.1.freq ≤ x.1.freq) || decide (x.1.freq ≤ y.1.freq)) = true := by
  simpa using BitVec.le_total y.1.freq x.1.freq

theorem sortDescending_perm (l : List Candidate) : (sortDescending l).Perm l := List.mergeSort_perm l _

theorem sortDescending_pairwise (l : List Candidate) :
    (sortDescending l).Pairwise (fun x y => y.1.freq ≤ x.1.freq) :=
  (List.pairwise_mergeSort descending_trans descending_total l).imp of_decide_eq_true

/-- The sort is stable: it keeps the candidates of each frequency in their order. -/
theorem filter_freq_sortDescending (l : List Candidate) (f : Freq) :
    (sortDescending l).filter (fun c => c.1.freq == f) = l.filter (fun c => c.1.freq == f) := by
  have hsame : (l.filter (fun c => c.1.freq == f)).Pairwise (fun x y => decide (y.1.freq ≤ x.1.freq) = true) := by
    refine List.pairwise_of_forall_mem_list fun x hx y hy => ?_
    rw [List.mem_filter, beq_iff_eq] at hx hy
    simp [hx.2, hy.2]
  have hsub := (List.sublist_mergeSort descending_trans descending_total hsame List.filter_sublist).filter
    (fun c => c.1.freq == f)
  rw [List.filter_filter] at hsub
  simp only [Bool.and_self] at hsub
  exact (hsub.eq_of_length ((sortDescending_perm l).filter _).length_eq.symm).symm

/-- Where equal frequencies stand in index order, the sorted pool is in the total order (R94). -/
theorem sortDescending_comesBefore {l : List Candidate} (hl : l.Pairwise (fun x y => x.1.freq = y.1.freq → x.2 < y.2)) :
    (sortDescending l).Pairwise (fun x y => comesBefore x y = true) := by
  refine List.pairwise_iff_forall_sublist.2 fun {x y} hxy => comesBefore_iff.2 ?_
  have hle := List.pairwise_iff_forall_sublist.1 (sortDescending_pairwise l) hxy
  by_cases heq : x.1.freq = y.1.freq
  · have hsub : [x, y].Sublist l := by
      have := hxy.filter (fun c => c.1.freq == y.1.freq)
      rw [filter_freq_sortDescending] at this
      simp only [heq, beq_self_eq_true, List.filter_cons_of_pos, List.filter_nil] at this
      exact this.trans List.filter_sublist
    exact .inr ⟨heq, List.pairwise_iff_forall_sublist.1 hl hsub heq⟩
  · exact .inl (BitVec.lt_of_le_ne hle (Ne.symm heq))

/-- The pick of a pool is the last candidate of any list of its candidates in the total order. -/
theorem getLast?_eq_pick {l sorted : List Candidate} (hs : sorted.Pairwise (fun x y => comesBefore x y = true))
    (hp : sorted.Perm l) : sorted.getLast? = pick l := by
  rcases List.eq_nil_or_concat' sorted with rfl | ⟨init, a, rfl⟩
  · rw [← hp.nil_eq]; rfl
  · have hal : a ∈ l := hp.subset (by simp)
    obtain ⟨c, hc⟩ := exists_pick (List.ne_nil_of_mem hal)
    rw [List.getLast?_concat, hc]
    have hcm := hp.symm.subset (pick_spec hc).1
    rcases List.mem_append.1 hcm with hci | hca
    · have := (List.pairwise_append.1 hs).2.2 c hci a (by simp)
      rw [not_pick_comesBefore hc hal] at this
      cases this
    · rw [List.mem_singleton.1 hca]

/-- Settles O25: the sorted pool is in the total order, and so is what is left of it without its last node. -/
theorem stableSortPicksTheSame : Obligations.StableSortPicksTheSame := by
  intro l hl hord
  have hs := sortDescending_comesBefore hord
  have hlast := getLast?_eq_pick hs (sortDescending_perm l)
  refine ⟨hlast, fun a ha => ?_⟩
  rw [ha, List.getLast?_eq_some_iff] at hlast
  obtain ⟨init, hinit⟩ := hlast
  show (sortDescending l).dropLast.getLast? = _
  refine getLast?_eq_pick (hs.sublist (List.dropLast_sublist _)) ?_
  rw [hinit, List.dropLast_concat]
  have hp := (sortDescending_perm l).trans (perm_cons_filter hl (pick_spec ha).1)
  rw [hinit] at hp
  exact ((List.perm_append_singleton a init).symm.trans hp).cons_inv

/-! ### Leaves, merges and counts (R91, R95, R96) -/

/-- Settles O26: the scan makes the leaf of every symbol of the alphabet, in its order. -/
theorem leavesInSymbolOrder : Obligations.LeavesInSymbolOrder := by
  intro ft t
  obtain ⟨hnode, hcount, hleaf⟩ := scanLeaves_all ft
  refine ⟨hnode, hcount, fun b hb => ?_, fun i b hib => ?_⟩
  · rw [hleaf, if_neg fun hm => mem_alphabet.1 hm hb]
  · obtain ⟨hi, rfl⟩ := List.getElem?_eq_some_iff.1 hib
    have hle := alphabet_length_le ft
    rw [hleaf, if_pos (List.getElem_mem hi), (alphabet_nodup ft).idxOf_getElem, idx_toNat (by omega)]

/-- Settles O27: a merge is a join of the two picks, which are nodes of the pool. -/
theorem mergeJoinsTheLastTwo : Obligations.MergeJoinsTheLastTwo := by
  intro t hcount hlen hpool
  obtain ⟨a, b, ha, hb, ham, hbm, hab, hmerge⟩ := mergeOnce_spec hpool
  obtain ⟨ha1, ha2⟩ := mem_pool.1 ham
  obtain ⟨hb1, hb2⟩ := mem_pool.1 hbm
  have hla := getElem?_lt ha1
  have hlb := getElem?_lt hb1
  rw [hmerge]
  refine ⟨a, b, ha, hb, ha1, ha2, hb1, hb2, hab, join_length a b t, ?_, rfl, rfl, ⟨mergedNode a b, ?_, rfl, rfl, rfl,
    idx_toNat (hla.trans hlen), idx_toNat (hlb.trans hlen), fun hsum => ?_⟩, fun n hn => ?_⟩
  · rw [join_count hcount hlen, join_length]
  · rw [join_node, if_neg (Nat.lt_irrefl _), if_pos rfl]
  · exact BitVec.toNat_add_of_lt hsum
  · rw [join_node, if_pos hn, (next_eq hcount hlen).1]

/-- Settles O29: each merge takes one node from the pool and adds one to the arena, and `L - 1` leave the root alone. -/
theorem nodeCountIsTwiceLeavesLessOne : Obligations.NodeCountIsTwiceLeavesLessOne := by
  intro ft hL
  have hle := alphabet_length_le ft
  refine ⟨fun k hk => ?_, ?_⟩
  · have hpool := scanLeaves_pool_length ft
    have hf := scanLeaves_forest ft
    have hcount : (scanLeaves ft 256).ncount.toNat = (alphabet ft).length := (scanLeaves_all ft).2.1
    have hlen := hf.count
    obtain ⟨hf', hpool', hlen'⟩ := mergeTimes_forest k hf (by omega) (by omega)
    have := hf'.count
    exact ⟨by omega, by omega⟩
  · obtain ⟨t, ht⟩ := buildTree_ok (List.ne_nil_of_length_pos (by omega : 0 < (alphabet ft).length))
    have h := buildTree_built ht
    have hnodes := h.nodeCount
    rw [if_neg (by omega)] at hnodes
    exact ⟨t, ht, h.count.trans hnodes, h.count.symm, h.size, fun n x => h.kind_leaf_iff⟩

/-! ### The empty table (R92) -/

theorem alphabet_eq_nil_iff_sum {ft : Vector Count 256} : alphabet ft = [] ↔ tableSum ft = 0 := by
  rw [alphabet_eq_nil, tableSum_eq_zero]

/-- BUILD's only error, and when it raises it. -/
theorem buildTree_error_iff {ft : Vector Count 256} {e : ErrorCode} :
    buildTree ft = .error e ↔ e = .emptyAlphabet ∧ alphabet ft = [] := by
  constructor
  · intro he
    by_cases hnil : alphabet ft = []
    · rw [buildTree_empty hnil] at he
      cases he
      exact ⟨rfl, hnil⟩
    · obtain ⟨t, ht⟩ := buildTree_ok hnil
      rw [ht] at he
      cases he
  · rintro ⟨rfl, hnil⟩
    exact buildTree_empty hnil

/-- BUILD on the state raises what BUILD of its table raises. -/
theorem build_error {s : State} {e : ErrorCode} (hb : buildTree s.ft = .error e) : build s = .error e := by
  rw [build_eq, hb]; rfl

/-- An error of BUILD is the error of the command that called it, whatever the parameters (R92). -/
theorem exec_of_build_error {i : Instr} (hi : i ≠ .count) {s : State} (hfits : BufferFits s) {e : ErrorCode}
    (hb : buildTree s.ft = .error e) : exec i s = .next (raiseError i e s) := by
  have hchecks : entryChecks (setPhase .check s) = .ok () := entryChecks_ok hfits
  have hbuild : build (setPhase .buildLeaves (setPhase .check s)) = .error e := build_error hb
  cases i with
  | count => exact absurd rfl hi
  | encode =>
    show finish .encode (runEncode s) s = _
    simp only [runEncode, hchecks, hbuild]
    rfl
  | decode =>
    show finish .decode (runDecode s) s = _
    simp only [runDecode, hchecks, hbuild]
    rfl

/-- Settles O28: a table sums to zero exactly when no symbol has a leaf, and BUILD is the first act past the checks. -/
theorem emptyTableIsEmptyAlphabet : Obligations.EmptyTableIsEmptyAlphabet := by
  refine ⟨fun ft e => by rw [buildTree_error_iff, alphabet_eq_nil_iff_sum], fun s hfits hsum => ?_⟩
  have hb := buildTree_empty (alphabet_eq_nil_iff_sum.2 hsum)
  have fails : ∀ i, i ≠ .count → ∃ t, exec i s = .next t ∧ FailedAs .emptyAlphabet s t := fun i hi =>
    ⟨_, exec_of_build_error hi hfits hb, raiseError_failedAs hi _ s⟩
  exact ⟨fails .encode (by decide), fails .decode (by decide)⟩

/-! ### One symbol alone (R98) -/

/-- The leaf of a single symbol is the first child of the root, so its code is the bit 0. -/
theorem Built.storedCode_single {ft : Vector Count 256} {t : Tree} (h : Built ft t) {b : Byte} (hb : alphabet ft = [b]) :
    storedCode t b = [false] := by
  have hnodes := h.nodeCount
  have hroot := h.rootIdx
  rw [if_pos (by simp [hb])] at hnodes
  rcases h.select_cases h.root_ge h.root_lt false with ⟨c, hc, -, hdown⟩ | ⟨-, -, -, hbit⟩
  · obtain rfl : c = 0 := by omega
    rw [h.storedCode_eq (by simp [hb]), hb, List.idxOf_cons_self, hdown, h.down_root]
    rfl
  · cases hbit

/-- Settles O30: the wrapped leaf is the first and only child of the root. -/
theorem singleSymbolTree : Obligations.SingleSymbolTree := by
  intro ft b hb
  rcases buildTree_cases ft with ⟨hnil, -⟩ | ⟨c, -, hbuild, h⟩ | ⟨htwo, -⟩
  · simp [hb] at hnil
  · rw [wrapSingle_eq hb] at hbuild h
    have hmem : b ∈ alphabet ft := by simp [hb]
    have hidx : (alphabet ft).idxOf b = 0 := by simp [hb]
    refine ⟨_, hbuild, rfl, rfl, ?_, ⟨syntheticRoot (leafNode ft b), rfl, rfl, rfl, rfl, rfl, rfl, rfl⟩, ?_⟩
    · rw [(h.leaf_entry hmem).1, hidx]
    · exact h.storedCode_single hb
  · simp [hb] at htwo

/-! ### Code lengths (R101) -/

/-- The table of the rule's example: the counts 1, 1, 2, 4, 8, 16, 32, 64. -/
def doublingTable : Vector Count 256 :=
  tabulate (fun b => if b = 0#8 then 1#32 else if b.toNat < 8 then BitVec.ofNat 32 (2 ^ (b.toNat - 1)) else 0#32)

theorem doublingTable_alphabet : (alphabet doublingTable).length = 8 := by decide +kernel

theorem doublingTree_codes : (storedCode (mergeAll (scanLeaves doublingTable 256)) 0#8).length = 7 ∧
    (storedCode (mergeAll (scanLeaves doublingTable 256)) 1#8).length = 7 := by decide +kernel

theorem doublingTable_built : buildTree doublingTable = .ok (mergeAll (scanLeaves doublingTable 256)) := by
  rcases buildTree_cases doublingTable with ⟨hnil, -⟩ | ⟨b, hone, -⟩ | ⟨-, hbuild, -⟩
  · exact absurd (hnil ▸ doublingTable_alphabet) (by decide)
  · exact absurd (hone ▸ doublingTable_alphabet) (by simp)
  · exact hbuild

/-- Settles O34: a path has no more bits than there are internal nodes, and the example's tree is computed. -/
theorem codeLengthBounds : Obligations.CodeLengthBounds := by
  refine ⟨fun ft t ht b hb => ?_, _, doublingTable_built, doublingTree_codes⟩
  have h := buildTree_built ht
  obtain ⟨hpos, hlen, hmax⟩ := h.storedCode_length hb
  have hnodes := h.nodeCount
  refine ⟨hmax, fun htwo => ?_, fun hone => ?_⟩
  · rw [if_neg (by omega)] at hnodes
    omega
  · rw [if_pos hone] at hnodes
    omega

/-! ### Determinism (R102) -/

theorem build_map_tree (s : State) : (build s).map State.tree = buildTree s.ft := by
  rw [build_eq]
  cases buildTree s.ft <;> rfl

/-- Settles O35: the tree of BUILD is that of the table. -/
theorem buildDependsOnTableAlone : Obligations.BuildDependsOnTableAlone := by
  intro s u hft
  rw [build_map_tree, build_map_tree, hft]

end Sys2Proof.Machine
end

section
/-! PROOF. The packer: the bit that WRITEBIT sets, the footer's limit in ENCODE, and that the growth increment of the
capacity has no effect on any command. -/

namespace Sys2Proof.Machine

variable {s : State}

/-! ### WRITEBIT (R111 to R113) -/

/-- Past the footer's limit check, WRITEBIT puts the bit into the state that holds the cursor's byte. -/
theorem writeBit_of_ne_limit (b : Bool) (hlimit : s.bitcur.toNat ≠ maxBitCount s.params) :
    writeBit b s = ensureCap s >>= fun u => .ok (putBit b u) := if_neg hlimit

/-- The bit at the cursor is the one put, and every other bit of `OUT` is kept, of the cursor's byte too (R111). -/
theorem outBit_putBit (b : Bool) (s : State) (q : Nat) :
    outBit (putBit b s) q = if q = s.bitcur.toNat then b else outBit s q := by
  have hbyte : (putBit b s).outByte (q / 8) =
      if q / 8 = s.bitcur.toNat / 8 then setBit (s.outByte (s.bitcur.toNat / 8)) (s.bitcur.toNat % 8) b
      else s.outByte (q / 8) := outByte_writeOut _ _ s (q / 8)
  rw [outBit, hbyte]
  by_cases hsame : q / 8 = s.bitcur.toNat / 8
  · have hpos : q % 8 = s.bitcur.toNat % 8 ↔ q = s.bitcur.toNat := by omega
    rw [if_pos hsame, getLsbD_setBit _ _ (Nat.mod_lt _ (by omega)) (Nat.mod_lt _ (by omega)), ← hsame]
    simp only [hpos, outBit]
  · rw [if_neg hsame, if_neg (fun h => hsame (by rw [h]))]
    rfl

/-- Where the cursor's byte is in the capacity or can be brought in, the capacity is the old or the grown one, the bits
that enter it are 0 and no other bit of `OUT` changes (R111, R113). -/
theorem ensureCap_ok (hp : s.params.Legal)
    (hroom : s.bitcur.toNat / 8 < s.cap.toNat ∨ s.bitcur.toNat / 8 < s.params.outMax) :
    ∃ u, ensureCap s = .ok u ∧ u = { s with cap := u.cap, out := u.out } ∧
      u.cap.toNat = (if s.bitcur.toNat / 8 < s.cap.toNat then s.cap.toNat
        else min (s.cap.toNat + s.params.chunk) s.params.outMax) ∧
      ∀ q, outBit u q = if s.cap.toNat ≤ q / 8 ∧ q / 8 < u.cap.toNat then false else outBit s q := by
  rcases ensureCap_cases hp with ⟨hin, hok⟩ | ⟨hcap, hfull, -⟩ | ⟨hcap, -, u, hok, hframe, hgrown, hbytes, -⟩
  · exact ⟨s, hok, rfl, by rw [if_pos hin], fun q => by rw [if_neg (by omega)]⟩
  · omega
  · have hseed : u.outSeed = s.outSeed := by rw [hframe]
    refine ⟨u, hok, hframe, by rw [if_neg (by omega), hgrown, grownCap], fun q => ?_⟩
    rw [outBit, State.outByte, hbytes, hgrown, hseed]
    split
    · exact BitVec.getLsbD_zero
    · rfl

/-- Settles O36: the limits are the two checks in their order; past them the bit is put where `ensureCap_ok` says which
bits it finds. -/
theorem writeBitSetsOneBit : Obligations.WriteBitSetsOneBit := by
  intro b s hp
  refine ⟨fun hlimit => if_pos hlimit, fun hlimit hcap hfull => ?_, fun hlimit hroom => ?_⟩
  · have hensure : ensureCap s = .error .outputFull := (if_pos hcap).trans (if_pos hfull)
    rw [writeBit_of_ne_limit b hlimit, hensure]
    rfl
  · obtain ⟨u, hensure, hframe, hcap, hbits⟩ := ensureCap_ok hp hroom
    have hcur : u.bitcur = s.bitcur := by rw [hframe]
    have hput : ∀ q, outBit (putBit b u) q = if q = s.bitcur.toNat then b else
        if s.cap.toNat ≤ q / 8 ∧ q / 8 < u.cap.toNat then false else outBit s q := fun q => by
      rw [outBit_putBit, hcur, hbits]
    refine ⟨putBit b u, by rw [writeBit_of_ne_limit b hlimit, hensure]; rfl, by rw [hframe]; rfl, hcap, ?_,
      fun q hq hold => ?_, fun q hq hlow hhigh => ?_, fun q hq (hhigh : u.cap.toNat ≤ q / 8) => ?_⟩
    · rw [hput, if_pos rfl]
    · rw [hput, if_neg hq, if_neg (by omega)]
    · rw [hput, if_neg hq, if_pos ⟨hlow, hhigh⟩]
    · rw [hput, if_neg hq, if_neg (by omega)]

/-! ### The footer's limit in ENCODE (R112, R158) -/

/-- With the 8-byte footer the symbol loop of a buffer within `IN` ends before the footer's limit, and no other part of
ENCODE raises FooterOverflowError (R158). -/
theorem encodeOutcome_ne_footerOverflow (hp : s.params.Legal) (hw : s.params.fw = .w8) :
    encodeOutcome s ≠ .error .footerOverflow := by
  intro h
  rcases entryChecks_cases s with ⟨-, hempty⟩ | ⟨-, -, hlong⟩ | ⟨hfits, -⟩
  · rw [encodeOutcome, hempty] at h; cases h
  · rw [encodeOutcome, hlong] at h; cases h
  · by_cases hnone : alphabet s.ft = []
    · rw [encodeOutcome_of_build_error hfits (buildTree_empty hnone)] at h; cases h
    · obtain ⟨tr, hb⟩ := buildTree_ok hnone
      obtain ⟨-, ⟨-, hin⟩, -⟩ := hp
      have hbits : ([] : List Bool).length + 255 * (buffer s).reverse.length < 2 ^ 64 - 1 := by
        have := hfits.2
        rw [List.length_nil, List.length_reverse, buffer_length]
        omega
      have hloop := packOutcome_ne_footerOverflow (buildTree_built hb) hw (buffer s).reverse hbits
      rw [encodeOutcome_of_built hfits hb] at h
      cases hpack : packOutcome s.ft tr s.params [] (buffer s).reverse with
      | error e =>
        rw [hpack] at h hloop
        exact hloop h
      | ok l =>
        rw [hpack] at h
        change (if s.params.outMax < ceil8 l.length + s.params.fwBytes then _ else _) = _ at h
        split at h <;> cases h

/-- Settles O47: the loop reaches the footer's limit before the end of `OUT`; with the 8-byte footer it never does. -/
theorem footerOverflowInEncode : Obligations.FooterOverflowInEncode := by
  refine ⟨fun s tr hp hfits hb hleaves hmany hroom => ?_, fun s t hp hw h => ?_⟩
  · have hreached : bitLimit s.params < (bufferCode tr s).length := by rw [bitLimit, min_eq_left hroom]; exact hmany
    have hraised : encodeOutcome s = .error .footerOverflow := by
      rw [encodeOutcome_of_leaves hfits hb hleaves, if_pos hreached, limitError, if_pos hroom]
    exact ⟨_, exec_encode_error hp hraised, raiseError_failedAs (by decide) .footerOverflow s⟩
  · rcases encode_next_cases hp h with ⟨l, -, henc⟩ | ⟨e, he, rfl⟩
    · rw [henc.err]
      exact (code_ne_zero _).symm
    · rw [raiseError_err]
      intro hcode
      obtain rfl := code_inj hcode
      exact encodeOutcome_ne_footerOverflow hp hw he

/-! ### The growth increment (R115) -/

/-- The state with another growth increment among its parameters. -/
def State.withChunk (chunk : Nat) (s : State) : State := { s with params := { s.params with chunk := chunk } }

section

variable {t v : State} {chunk : Nat}

theorem legal_withChunk (hp : s.params.Legal) (hchunk : 1 ≤ chunk) : (s.withChunk chunk).params.Legal := ⟨hchunk, hp.2⟩

/-- What `raise` leaves has the growth increment of the state before the command (R160). -/
theorem raiseError_withChunk (c : Instr) (e : ErrorCode) :
    raiseError c e (s.withChunk chunk) = (raiseError c e s).withChunk chunk := by
  cases c with
  | count | encode | decode => rfl

/-- Two results handed over by `deliver` that agree in `OUT`, `OLEN` and `BITCNT` differ in nothing but the growth
increment (R120, R130). -/
theorem deliver_withChunk (ht : t = { deliver t.olen t.bitcnt s with out := t.out })
    (hv : v = { deliver v.olen v.bitcnt (s.withChunk chunk) with out := v.out })
    (hresult : v.out = t.out ∧ v.olen = t.olen ∧ v.bitcnt = t.bitcnt) : v = t.withChunk chunk := by
  obtain ⟨hout, holen, hbitcnt⟩ := hresult
  rw [hv, hout, holen, hbitcnt, ht]
  rfl

/-! ### The outcomes do not depend on it -/

theorem occursIn_withChunk (b : Byte) : occursIn (s.withChunk chunk) b = occursIn s b := rfl

theorem countOutcome_withChunk : countOutcome (s.withChunk chunk) = countOutcome s := by
  have htable : countTable (s.withChunk chunk) = countTable s :=
    table_ext fun b => by rw [entry_countTable, entry_countTable, occursIn_withChunk]
  have hover : countOverflows (s.withChunk chunk) = countOverflows s :=
    Bool.eq_iff_iff.2 (by simp only [countOverflows_iff, occursIn_withChunk])
  rw [countOutcome, countOutcome, htable, hover]
  rfl

theorem encodeOutcome_withChunk : encodeOutcome (s.withChunk chunk) = encodeOutcome s :=
  encodeOutcome_congr rfl rfl rfl rfl rfl fun _ _ => rfl

theorem footerValue_withChunk : footerValue (s.withChunk chunk) = footerValue s := littleEndian_congr fun _ _ => rfl

theorem decodeOutcome_withChunk : decodeOutcome (s.withChunk chunk) = decodeOutcome s :=
  decodeOutcome_congr rfl rfl rfl rfl rfl footerValue_withChunk rfl

/-! ### The commands do not depend on it -/

theorem exec_count_withChunk :
    ∃ t, exec .count s = .next t ∧ exec .count (s.withChunk chunk) = .next (t.withChunk chunk) := by
  rw [exec_count_eq, exec_count_eq, countOutcome_withChunk]
  cases countOutcome s with
  | ok table => exact ⟨_, rfl, rfl⟩
  | error e => exact ⟨_, rfl, congrArg _ (raiseError_withChunk .count e)⟩

theorem exec_encode_withChunk (hp : s.params.Legal) (hs : Memory.wf s.out) (hchunk : 1 ≤ chunk) :
    ∃ t, exec .encode s = .next t ∧ exec .encode (s.withChunk chunk) = .next (t.withChunk chunk) := by
  have hp' := legal_withChunk hp hchunk
  have hsame := encodeOutcome_withChunk (s := s) (chunk := chunk)
  cases ho : encodeOutcome s with
  | ok l =>
    obtain ⟨t, ht, hl⟩ := exec_encode_ok hp ho
    obtain ⟨v, hv, hm⟩ := exec_encode_ok hp' (hsame.trans ho)
    exact ⟨t, ht, hv.trans (congrArg _ (deliver_withChunk hl.frame hm.frame (hl.unique hm hs hs rfl)))⟩
  | error e =>
    have hu := exec_encode_error hp' (hsame.trans ho)
    exact ⟨_, exec_encode_error hp ho, hu.trans (congrArg _ (raiseError_withChunk .encode e))⟩

theorem exec_decode_withChunk (hp : s.params.Legal) (hs : Memory.wf s.out) (hchunk : 1 ≤ chunk) :
    ∃ t, exec .decode s = .next t ∧ exec .decode (s.withChunk chunk) = .next (t.withChunk chunk) := by
  have hp' := legal_withChunk hp hchunk
  have hsame := decodeOutcome_withChunk (s := s) (chunk := chunk)
  cases ho : decodeOutcome s with
  | ok l =>
    obtain ⟨t, ht, hl⟩ := exec_decode_ok hp ho
    obtain ⟨v, hv, hm⟩ := exec_decode_ok hp' (hsame.trans ho)
    exact ⟨t, ht, hv.trans (congrArg _ (deliver_withChunk hl.frame hm.frame (hl.unique hm hs hs footerValue_withChunk)))⟩
  | error e =>
    have hu := exec_decode_error hp' (hsame.trans ho)
    exact ⟨_, exec_decode_error hp ho, hu.trans (congrArg _ (raiseError_withChunk .decode e))⟩

end

/-- What a command leaves has the parameters it began with, so the other run's parameters are those with the other
growth increment. -/
theorem withChunk_of_exec {i : Instr} {t : State} (h : exec i s = .next t) (chunk : Nat) :
    t.withChunk chunk = { t with params := { s.params with chunk := chunk } } := by
  obtain ⟨hparams, -⟩ := exec_keeps h
  rw [State.withChunk, hparams]

/-- Settles O37, by command: its outcome is a function of the table, the buffer and the other parameters, and the state
it leaves is fixed by the outcome. -/
theorem capacityIsNotObservable : Obligations.CapacityIsNotObservable := by
  intro i s chunk hp hs hchunk
  have hrun : ∃ t, exec i s = .next t ∧ exec i (s.withChunk chunk) = .next (t.withChunk chunk) := by
    cases i with
    | count => exact exec_count_withChunk
    | encode => exact exec_encode_withChunk hp hs hchunk
    | decode => exact exec_decode_withChunk hp hs hchunk
  obtain ⟨t, ht, hother⟩ := hrun
  exact ⟨t, ht, hother.trans (congrArg _ (withChunk_of_exec ht chunk))⟩

end Sys2Proof.Machine
end

section
/-! PROOF. ENCODE: what it writes and when it succeeds, the buffer of one symbol, the symbol without a leaf, and the entry
checks that it shares with DECODE. -/

namespace Sys2Proof.Machine

variable {s t : State}

/-! ### The bytes of a packed result (R124) -/

/-- The bits of the last payload byte above the packed bits are 0. -/
theorem Encoded.padding {l : List Bool} (h : Encoded l s t) {p : Nat} (hp : l.length ≤ p) (hlast : p < 8 * ceil8 l.length) :
    outBit t p = false := by
  rw [h.bit p (by omega), List.getElem?_eq_none hp, Option.getD_none]

/-- The footer is the bit count, least significant byte first. -/
theorem Encoded.footer_byte {l : List Bool} (h : Encoded l s t) {k : Nat} (hk : k < s.params.fwBytes) :
    t.outByte (ceil8 l.length + k) = BitVec.ofNat 8 (l.length / 2 ^ (8 * k)) := by
  rw [State.outByte, h.footer k hk, Option.getD_some]

/-- Zero bits are packed into zero bytes. -/
theorem Encoded.payload_zero {n : Nat} (h : Encoded (List.replicate n false) s t) {a : Nat} (ha : a < ceil8 n) :
    t.outByte a = 0#8 := by
  obtain ⟨v, hv, hbits⟩ := h.payload a (by rwa [List.length_replicate])
  rw [State.outByte, hv, Option.getD_some]
  refine BitVec.eq_of_getLsbD_eq fun j hj => ?_
  rw [hbits j hj, List.getElem?_replicate, BitVec.getLsbD_zero]
  split <;> rfl

/-! ### The limit of the symbol loop (R112, R113) -/

/-- Bits that the footer counts and whose bytes fit `OUT` are within the packer's limit. -/
theorem le_bitLimit {p : Params} {n : Nat} (hcount : n ≤ maxBitCount p) (hroom : ceil8 n ≤ p.outMax) : n ≤ bitLimit p := by
  rw [ceil8] at hroom
  rw [bitLimit, le_min_iff]
  exact ⟨hcount, by omega⟩

/-! ### Success (R120, R125, R129) -/

/-- ENCODE delivers the stored codes where nothing stands against it. -/
theorem encodeOutcome_of_room {tr : Tree} (hfits : BufferFits s) (hb : buildTree s.ft = .ok tr)
    (hleaves : ∀ b ∈ buffer s, entry s.ft b ≠ 0#32) (hcount : (bufferCode tr s).length ≤ maxBitCount s.params)
    (hroom : ceil8 (bufferCode tr s).length + s.params.fwBytes ≤ s.params.outMax) :
    encodeOutcome s = .ok (bufferCode tr s).reverse := by
  have hlimit := le_bitLimit hcount (Nat.le_of_add_right_le hroom)
  rw [encodeOutcome_of_leaves hfits hb hleaves, if_neg (not_lt.2 hlimit), if_neg (not_lt.2 hroom)]

/-- Settles O43: the outcome is the stored codes, which the packer writes from the last bit on. -/
theorem encodeWritesTheCodes : Obligations.EncodeWritesTheCodes := by
  intro s tr hp hfits hb hleaves n hcount hroom
  obtain ⟨t, hrun, henc⟩ := exec_encode_ok hp (encodeOutcome_of_room hfits hb hleaves hcount hroom)
  have hn : (bufferCode tr s).reverse.length = n := List.length_reverse
  have hstream : outStream t n = bufferCode tr s := by rw [← hn, henc.stream, List.reverse_reverse]
  have hpadding : ∀ p, n ≤ p → p < 8 * ceil8 n → outBit t p = false := by
    intro p hle hlast
    rw [← hn] at hle hlast
    exact henc.padding hle hlast
  have hfooter : ∀ k, k < s.params.fwBytes → t.outByte (ceil8 n + k) = BitVec.ofNat 8 (n / 2 ^ (8 * k)) := by
    rw [← hn]
    exact fun k hk => henc.footer_byte hk
  obtain ⟨hmin, hmax⟩ := (buildTree_built hb).codes_length (buffer s) hleaves
  rw [buffer_length] at hmin hmax
  exact ⟨t, hrun, henc.err, henc.same, hn ▸ henc.bitcnt, hn ▸ henc.olen, hstream, hpadding, hfooter, hmin, hmax⟩

/-- Settles O44: an error leaves its own code, which is not 0, and a success says all of this of its operands. -/
theorem encodeSucceedsExactlyWhen : Obligations.EncodeSucceedsExactlyWhen := by
  intro s t hp h
  rcases encode_next_cases hp h with ⟨l, hl, henc⟩ | ⟨e, he, rfl⟩
  · obtain ⟨hfits, tr, hb, hleaves, hlimit, hroom, -⟩ := encodeOutcome_ok hl
    exact iff_of_true henc.err ⟨hfits, tr, hb, hleaves, hlimit.trans (min_le_left _ _), hroom⟩
  · refine iff_of_false (by rw [raiseError_err]; exact code_ne_zero e) ?_
    rintro ⟨hfits, tr, hb, hleaves, hcount, hroom⟩
    rw [encodeOutcome_of_room hfits hb hleaves hcount hroom] at he
    cases he

/-! ### A buffer of one symbol (R127) -/

/-- The table of a single symbol gives each byte of its buffer the one bit 0. -/
theorem encodeOutcome_of_single {b : Byte} (hfits : BufferFits s) (ha : alphabet s.ft = [b]) (hsame : ∀ c ∈ buffer s, c = b)
    (hcount : s.ilen.toNat ≤ maxBitCount s.params) (hroom : ceil8 s.ilen.toNat + s.params.fwBytes ≤ s.params.outMax) :
    encodeOutcome s = .ok (List.replicate s.ilen.toNat false) := by
  obtain ⟨tr, hb⟩ := buildTree_ok (ft := s.ft) (by rw [ha]; exact List.cons_ne_nil b [])
  have hcode : bufferCode tr s = List.replicate s.ilen.toNat false := by
    rw [bufferCode, (buildTree_built hb).single_codes ha (buffer s) hsame, buffer_length]
  have hlen : (bufferCode tr s).length = s.ilen.toNat := by rw [hcode, List.length_replicate]
  have hleaves : ∀ c ∈ buffer s, entry s.ft c ≠ 0#32 := by
    intro c hc
    rw [← mem_alphabet, ha, hsame c hc]
    exact List.mem_singleton_self b
  rw [encodeOutcome_of_room hfits hb hleaves (hlen ▸ hcount) (hlen ▸ hroom), hcode, List.reverse_replicate]

/-- Settles O45: the packed bits are `ILEN` zeros. -/
theorem encodeOfOneSymbol : Obligations.EncodeOfOneSymbol := by
  intro s b hp hfits ha hsame hcount hroom
  obtain ⟨t, hrun, henc⟩ := exec_encode_ok hp (encodeOutcome_of_single hfits ha hsame hcount hroom)
  have hbits := henc.bitcnt
  have holen := henc.olen
  have hfooter := fun k => henc.footer_byte (k := k)
  rw [List.length_replicate] at hbits holen hfooter
  exact ⟨t, hrun, henc.err, BitVec.eq_of_toNat_eq hbits, fun a hlt => henc.payload_zero hlt, hfooter, holen⟩

/-! ### A symbol without a leaf (R123) -/

/-- The symbol loop runs from the last symbol down, so it packs the symbols after the missing one and then meets it. -/
theorem encodeOutcome_of_missing {tr : Tree} {before after : List Byte} {b : Byte} (hfits : BufferFits s)
    (hb : buildTree s.ft = .ok tr) (hbuffer : buffer s = before ++ b :: after) (hmissing : entry s.ft b = 0#32)
    (hafter : ∀ c ∈ after, entry s.ft c ≠ 0#32)
    (hlimit : (after.flatMap (storedCode tr)).length ≤ bitLimit s.params) :
    encodeOutcome s = .error .symbolNotInTree := by
  have horder : (buffer s).reverse = after.reverse ++ b :: before.reverse := by simp [hbuffer]
  have hloop : packOutcome s.ft tr s.params [] (buffer s).reverse = .error .symbolNotInTree := by
    rw [horder]
    refine packOutcome_missing tr s.params (fun c hc => hafter c (List.mem_reverse.1 hc)) hmissing ?_
    rwa [length_flatMap_reverse, List.length_nil, Nat.zero_add]
  rw [encodeOutcome_of_built hfits hb, hloop]
  rfl

/-- An ENCODE that leaves an error's code had that error for its outcome (R160). -/
theorem encodeOutcome_of_code {e : ErrorCode} (hp : s.params.Legal) (h : exec .encode s = .next t) (hcode : t.err = e.code) :
    encodeOutcome s = .error e := by
  rcases encode_next_cases hp h with ⟨l, -, henc⟩ | ⟨e', he, rfl⟩
  · exact absurd (hcode.symm.trans henc.err) (code_ne_zero e)
  · rw [raiseError_err] at hcode
    rw [he, code_inj hcode]

/-- Settles O46: the error says that some symbol has no leaf, and the loop raises it at the last such symbol. -/
theorem symbolWithoutLeafFails : Obligations.SymbolWithoutLeafFails := by
  refine ⟨fun s t hp h hcode => ?_, fun s tr before after b hp hfits hb hbuffer hmissing hafter hcount hroom => ?_⟩
  · rcases encodeOutcome_error (encodeOutcome_of_code hp h hcode) with
      hother | hother | ⟨hother, -⟩ | ⟨-, hsymbol⟩ | hother | hother
    case inr.inr.inr.inl => exact hsymbol
    all_goals cases hother
  · have hraised := encodeOutcome_of_missing hfits hb hbuffer hmissing hafter (le_bitLimit hcount hroom)
    exact ⟨_, exec_encode_error hp hraised, raiseError_failedAs (by decide) .symbolNotInTree s⟩

/-! ### The entry checks (R121, R131) -/

/-- An error of the entry checks is the command's error, whatever the table and the parameters. -/
theorem exec_of_entryChecks_error {i : Instr} {e : ErrorCode} (h : entryChecks s = .error e) :
    exec i s = .next (raiseError i e s) := by
  have hchecks : entryChecks (setPhase .check s) = .error e := h
  cases i with
  | count =>
    show finish .count (runCount s) s = _
    rw [runCount, hchecks]
    rfl
  | encode =>
    show finish .encode (runEncode s) s = _
    rw [runEncode, hchecks]
    rfl
  | decode =>
    show finish .decode (runDecode s) s = _
    rw [runDecode, hchecks]
    rfl

/-- Settles O38: each bad length is the error of the entry checks, which every command makes first. -/
theorem entryChecksComeFirst : Obligations.EntryChecksComeFirst := by
  intro i s hi
  have fails : ∀ {e : ErrorCode}, entryChecks s = .error e → ∃ t, exec i s = .next t ∧ FailedAs e s t :=
    fun h => ⟨_, exec_of_entryChecks_error h, raiseError_failedAs hi _ s⟩
  exact ⟨fun hempty => fails (if_pos hempty), fun hlong hsome => fails ((if_neg hsome).trans (if_pos hlong))⟩

end Sys2Proof.Machine
end

section
/-! PROOF. DECODE: one step of WALK and one emission, the symbols that a stream of stored codes delivers, each error of
DECODE with the streams that raise it, and the bits that DECODE does not read. -/

namespace Sys2Proof.Machine

variable {s t : State} {tr : Tree} {bs : List Byte} {rest : List Bool}

/-! ### One step of WALK and one emission (R134, R136) -/

/-- The complement of the stored bit selects: stored 0 the first child, stored 1 the second (R134). -/
theorem selectChild_of_node {n : NodeIdx} {x : Node} (h : tr.node[n.toNat]? = some x) (b : Bool) :
    selectChild tr n (!b) = if b = false then x.first else x.second := by
  rw [selectChild, h]
  cases b with
  | false | true => rfl

@[simp] theorem streamBit_with_bitcur (s : State) (w : Word) (i : Nat) :
    streamBit { s with bitcur := w } i = streamBit s i := rfl

/-- Settles O49, by the three answers of a step: no child, an internal node, a leaf. -/
theorem walkMovesByTheComplement : Obligations.WalkMovesByTheComplement := by
  intro i s x hx child
  have hsel : selectChild s.tree s.cur (!streamBit s i) = child := selectChild_of_node hx (streamBit s i)
  refine ⟨fun hnil => ?_, fun hchild hinternal => ?_, fun b hchild hleaf => ?_⟩
  · simp only [walkBit, streamBit_with_bitcur, hsel, if_pos hnil]
  · simp only [walkBit, streamBit_with_bitcur, hsel, if_neg hchild, hinternal]
  · simp only [walkBit, streamBit_with_bitcur, hsel, if_neg hchild, hleaf]

/-- Settles O50: with room the emission is one write of `OUT` with the two cursors set. -/
theorem emitWritesTheSymbol : Obligations.EmitWritesTheSymbol :=
  fun b s => ⟨fun hfull => if_pos hfull, fun hroom =>
    ⟨_, if_neg (not_le.2 hroom), rfl, outByte_writeOut s.opos.toNat b s⟩⟩

/-! ### The stream read downward -/

theorem inStream_succ (s : State) (n : Nat) : inStream s (n + 1) = streamBit s n :: inStream s n := by
  simp [inStream, List.range_succ]

theorem mem_inStream {n : Nat} {b : Bool} : b ∈ inStream s n ↔ ∃ p, p < n ∧ streamBit s p = b := by
  simp [inStream]

/-- Zeros above a position are read before the bits below it. -/
theorem inStream_of_zeros {n d : Nat} (h : ∀ q, n ≤ q → q < n + d → streamBit s q = false) :
    inStream s (n + d) = List.replicate d false ++ inStream s n := by
  induction d with
  | zero => rfl
  | succ d ih =>
    rw [← Nat.add_assoc, inStream_succ, h (n + d) (by omega) (by omega), ih fun q hle hlt => h q hle (by omega)]
    rfl

/-! ### Streams of stored codes, and what DECODE answers on them -/

/-- A packed buffer past DECODE's checks whose stream, read downward, is the stored codes of some symbols and then the
rest (R130, R134). -/
structure StreamOf (tr : Tree) (bs : List Byte) (rest : List Bool) (s : State) : Prop where
  fits : BufferFits s
  footer : FooterFits s
  built : buildTree s.ft = .ok tr
  leaves : ∀ b ∈ bs, entry s.ft b ≠ 0#32
  stream : inStream s (footerValue s) = bs.flatMap (storedCode tr) ++ rest

/-- The footer counts the bits of the stream. -/
theorem StreamOf.footerValue_eq (h : StreamOf tr bs rest s) :
    footerValue s = (bs.flatMap (storedCode tr)).length + rest.length := by
  rw [← List.length_append, ← h.stream, inStream_length]

/-- DECODE emits the symbols, if `OUT` has room for them, and goes on with the rest of the stream (R136). -/
theorem StreamOf.outcome (h : StreamOf tr bs rest s) (hroom : bs.length ≤ s.params.outMax) :
    decodeOutcome s = walkOutcome tr s.params tr.root bs rest := by
  have hmem : ∀ b ∈ bs, b ∈ alphabet s.ft := fun b hb => mem_alphabet.2 (h.leaves b hb)
  have hwalk := (buildTree_built h.built).walk_codes s.params hmem [] rest (Nat.zero_le _)
  rw [List.length_nil, Nat.zero_add, if_pos hroom, List.nil_append] at hwalk
  rw [decodeOutcome_of_built h.fits h.built h.footer, h.stream, hwalk]

theorem StreamOf.ok (h : StreamOf tr bs [] s) (hroom : bs.length ≤ s.params.outMax) : decodeOutcome s = .ok bs := by
  rw [h.outcome hroom, walkOutcome, if_pos rfl]

theorem StreamOf.dangling (h : StreamOf tr bs rest s) (hroom : bs.length ≤ s.params.outMax) {b : Byte}
    (hb : b ∈ alphabet s.ft) {u : List Bool} (hrest : rest ≠ []) (hu : u ≠ []) (hcode : storedCode tr b = rest ++ u) :
    decodeOutcome s = .error .danglingPath := by
  rw [h.outcome hroom, (buildTree_built h.built).walk_partial s.params hb bs hrest hu hcode]

theorem StreamOf.absent {v : List Bool} (h : StreamOf tr bs (true :: v) s) (hroom : bs.length ≤ s.params.outMax)
    (hone : (alphabet s.ft).length = 1) : decodeOutcome s = .error .absentChild := by
  rw [h.outcome hroom, (buildTree_built h.built).walk_absent hone]

/-- The outcomes of DECODE, and what each says of its operands (R165). -/
inductive DecodeCase (s : State) : Except ErrorCode (List Byte) → Prop where
  | emptyInput (empty : s.ilen = 0#64) : DecodeCase s (.error .emptyInput)
  | lengthRange (long : s.params.inMax < s.ilen.toNat) : DecodeCase s (.error .lengthRange)
  | emptyAlphabet (noSymbol : alphabet s.ft = []) : DecodeCase s (.error .emptyAlphabet)
  | truncated (short : ¬ FooterFits s) : DecodeCase s (.error .truncatedStream)
  | outputFull (tr : Tree) (bs : List Byte) (rest : List Bool) (stream : StreamOf tr bs rest s)
      (full : s.params.outMax < bs.length) : DecodeCase s (.error .outputFull)
  | ok (tr : Tree) (bs : List Byte) (stream : StreamOf tr bs [] s) : DecodeCase s (.ok bs)
  | dangling (tr : Tree) (bs : List Byte) (rest u : List Bool) (b : Byte) (stream : StreamOf tr bs rest s)
      (mem : b ∈ alphabet s.ft) (nonempty : rest ≠ []) (unfinished : u ≠ []) (code : storedCode tr b = rest ++ u) :
      DecodeCase s (.error .danglingPath)
  | absent (tr : Tree) (bs : List Byte) (v : List Bool) (stream : StreamOf tr bs (true :: v) s)
      (one : (alphabet s.ft).length = 1) : DecodeCase s (.error .absentChild)

/-- Every outcome of DECODE is one of these: its checks in their order, then the walk over the stream. -/
theorem decodeOutcome_case (s : State) : DecodeCase s (decodeOutcome s) := by
  rcases decodeOutcome_cases s with ⟨hempty, he⟩ | ⟨-, hlong, he⟩ | ⟨-, hnone, he⟩ | ⟨-, hshort, he⟩ |
    ⟨hfits, hfooter, tr, hb, hB, he⟩ <;> rw [he]
  · exact .emptyInput hempty
  · exact .lengthRange hlong
  · exact .emptyAlphabet hnone
  · exact .truncated hshort
  · obtain ⟨bs, rest, hmem, hbits, hwalk⟩ := hB.walk_cases s.params (inStream s (footerValue s))
    have hs : StreamOf tr bs rest s := ⟨hfits, hfooter, hb, fun b hb => mem_alphabet.1 (hmem b hb), hbits⟩
    rcases hwalk with ⟨hfull, hw⟩ | ⟨-, rfl, hw⟩ | ⟨-, hsome, ⟨b, hb, u, hmore, hcode⟩, hw⟩ | ⟨-, hone, ⟨v, rfl⟩, hw⟩ <;>
      rw [hw]
    · exact .outputFull tr bs rest hs hfull
    · exact .ok tr bs hs
    · exact .dangling tr bs rest u b hs hb hsome hmore hcode
    · exact .absent tr bs v hs hone

/-- A DECODE that leaves an error's code had that error for its outcome (R160). -/
theorem decodeCase_of_code {e : ErrorCode} (hp : s.params.Legal) (h : exec .decode s = .next t) (hcode : t.err = e.code) :
    DecodeCase s (.error e) := by
  rcases decode_next_cases hp h with ⟨l, -, hdec⟩ | ⟨e', he, rfl⟩
  · exact absurd (hcode.symm.trans hdec.err) (code_ne_zero e)
  · rw [raiseError_err] at hcode
    rw [← code_inj hcode, ← he]
    exact decodeOutcome_case s

/-- A DECODE that leaves `STATUS.ERR` 0 has read its result from a stream of codes (R130). -/
theorem decoded_of_success (hp : s.params.Legal) (h : exec .decode s = .next t) (herr : t.err = 0#8) :
    ∃ tr bs, StreamOf tr bs [] s ∧ Decoded bs s t := by
  rcases decode_next_cases hp h with ⟨l, hl, hdec⟩ | ⟨e, -, rfl⟩
  · have hcase := decodeOutcome_case s
    rw [hl] at hcase
    cases hcase with
    | ok tr _ hs => exact ⟨tr, l, hs, hdec⟩
  · exact absurd (raiseError_err .decode e s ▸ herr) (code_ne_zero e)

/-- An error outcome of DECODE is what `raise` leaves (R160). -/
theorem exec_decode_fails {e : ErrorCode} (hp : s.params.Legal) (h : decodeOutcome s = .error e) :
    ∃ t, exec .decode s = .next t ∧ FailedAs e s t :=
  ⟨_, exec_decode_error hp h, raiseError_failedAs (by decide) e s⟩

/-! ### Success (R130, R139, R140) -/

/-- Settles O53: the walk over the codes emits their symbols and ends at the root. -/
theorem decodeReadsTheCodes : Obligations.DecodeReadsTheCodes := by
  intro s tr bs hp hfits hb hfooter hleaves hroom hstream
  have hs : StreamOf tr bs [] s := ⟨hfits, hfooter, hb, hleaves, hstream.trans (List.append_nil _).symm⟩
  obtain ⟨t, hrun, hdec⟩ := exec_decode_ok hp (hs.ok hroom)
  exact ⟨t, hrun, hdec.err, hdec.same, hdec.olen, hdec.result, hdec.bitcnt⟩

/-- Settles O54: the outcome is a list of symbols only for a stream of their codes, each of at least one bit. -/
theorem decodeSuccessIsACodeSequence : Obligations.DecodeSuccessIsACodeSequence := by
  intro s t hp h herr
  obtain ⟨tr, bs, hs, hdec⟩ := decoded_of_success hp h herr
  have hbits : footerValue s = (bs.flatMap (storedCode tr)).length := hs.footerValue_eq
  have hlength := (buildTree_built hs.built).codes_length bs hs.leaves
  rw [hdec.result, hdec.olen]
  exact ⟨hs.fits, hs.footer, hdec.bitcnt, by omega, tr, hs.built, hs.leaves, hs.stream.trans (List.append_nil _)⟩

/-- An ENCODE that leaves `STATUS.ERR` 0 has packed the bits of its outcome. -/
theorem encoded_of_success (hp : s.params.Legal) (h : exec .encode s = .next t) (herr : t.err = 0#8) :
    ∃ l, encodeOutcome s = .ok l ∧ Encoded l s t := by
  rcases encode_next_cases hp h with hok | ⟨e, -, rfl⟩
  · exact hok
  · exact absurd (raiseError_err .encode e s ▸ herr) (code_ne_zero e)

theorem buildTree_of_sum (hsum : tableSum s.ft ≠ 0) : ∃ tr, buildTree s.ft = .ok tr :=
  buildTree_ok (mt alphabet_eq_nil_iff_sum.1 hsum)

/-- Settles O57: the empty stream is the codes of no symbols; ENCODE packs at least one bit for each of its symbols. -/
theorem zeroBitCountIsAccepted : Obligations.ZeroBitCountIsAccepted := by
  refine ⟨fun s hp hfits hsum hfooter hzero => ?_, fun s t hp h herr hbitcnt => ?_⟩
  · obtain ⟨tr, hb⟩ := buildTree_of_sum hsum
    have hs : StreamOf tr [] [] s := ⟨hfits, hfooter, hb, by simp, by rw [hzero]; rfl⟩
    obtain ⟨t, hrun, hdec⟩ := exec_decode_ok hp (hs.ok (Nat.zero_le _))
    exact ⟨t, hrun, hdec.err, BitVec.eq_of_toNat_eq hdec.olen, BitVec.eq_of_toNat_eq (hdec.bitcnt.trans hzero)⟩
  · obtain ⟨l, hl, henc⟩ := encoded_of_success hp h herr
    obtain ⟨⟨hlen, -⟩, tr, hb, hleaves, -, -, rfl⟩ := encodeOutcome_ok hl
    have hbits : (bufferCode tr s).length = 0 := by simpa [hbitcnt] using henc.bitcnt.symm
    have hmin : s.ilen.toNat ≤ (bufferCode tr s).length :=
      buffer_length s ▸ ((buildTree_built hb).codes_length (buffer s) hleaves).1
    exact hlen (BitVec.eq_of_toNat_eq (Nat.eq_zero_of_le_zero (hbits ▸ hmin)))

/-! ### Errors (R133, R137, R138) -/

/-- Settles O52: with a tree built, TruncatedStreamError is the answer of the footer checks and of nothing else. -/
theorem truncatedStreamExactly : Obligations.TruncatedStreamExactly := by
  intro s hp hfits hsum
  refine ⟨fun hshort => ?_, fun t hfooter h hcode => ?_⟩
  · obtain ⟨tr, hb⟩ := buildTree_of_sum hsum
    exact exec_decode_fails hp (decodeOutcome_of_no_footer hfits hb hshort)
  · cases decodeCase_of_code hp h hcode with
    | truncated hshort => exact hshort hfooter

/-- With one symbol, zeros are that symbol again and again, its code being the bit 0 (R98). -/
theorem streamOf_zeros {b : Byte} {n d : Nat} (hfits : BufferFits s) (hfooter : FooterFits s) (hb : alphabet s.ft = [b])
    (hn : footerValue s = n + d) (hzeros : ∀ q, n ≤ q → q < n + d → streamBit s q = false) :
    ∃ tr, StreamOf tr (List.replicate d b) (inStream s n) s := by
  have hmem : b ∈ alphabet s.ft := by rw [hb]; exact List.mem_singleton_self b
  obtain ⟨tr, htr⟩ := buildTree_ok (List.ne_nil_of_mem hmem)
  have hsame : ∀ c ∈ List.replicate d b, c = b := fun _ => List.eq_of_mem_replicate
  refine ⟨tr, hfits, hfooter, htr, fun c hc => hsame c hc ▸ mem_alphabet.1 hmem, ?_⟩
  rw [hn, inStream_of_zeros hzeros, (buildTree_built htr).single_codes hb _ hsame, List.length_replicate]

/-- Settles O55: the walk meets the missing child at a stored 1 under the synthetic root; there each stored 0 before it is
the code of the one symbol. -/
theorem absentChildExactly : Obligations.AbsentChildExactly := by
  refine ⟨fun s t hp h hcode => ?_, fun s p hp hfits hfooter hone hlt hset hzeros hroom => ?_⟩
  · cases decodeCase_of_code hp h hcode with
    | absent tr bs v hs hone => exact ⟨hone, mem_inStream.1 (by rw [hs.stream]; simp)⟩
  · obtain ⟨b, hb⟩ := List.length_eq_one_iff.1 hone
    obtain ⟨d, hd⟩ : ∃ d, footerValue s = p + 1 + d := Nat.exists_eq_add_of_le hlt
    rw [hd] at hzeros hroom
    obtain ⟨tr, hs⟩ := streamOf_zeros hfits hfooter hb hd fun q hle => hzeros q hle
    rw [inStream_succ, hset] at hs
    exact exec_decode_fails hp (hs.absent (by rw [List.length_replicate]; omega) hone)

/-- Settles O56: the walk ends below the root exactly where the bits after the last whole code begin another. -/
theorem danglingPathExactly : Obligations.DanglingPathExactly := by
  refine ⟨fun s t hp h hcode => ?_, fun s tr bs r b hp hfits htr hfooter hleaves hroom hb hr hprefix hne hstream => ?_⟩
  · cases decodeCase_of_code hp h hcode with
    | dangling tr bs r u b hs hb hr hu hcode =>
      have hne : r ≠ storedCode tr b := by simpa [hcode] using hu
      exact ⟨tr, bs, r, b, hs.built, hb, hr, ⟨u, hcode.symm⟩, hne, hs.stream⟩
  · obtain ⟨u, hu⟩ := hprefix
    have hmore : u ≠ [] := by
      rintro rfl
      exact hne (by rw [← hu, List.append_nil])
    have hs : StreamOf tr bs r s := ⟨hfits, hfooter, htr, hleaves, hstream⟩
    exact exec_decode_fails hp (hs.dangling hroom hb hr hmore hu.symm)

/-! ### The bits that DECODE does not read (R134, R145) -/

/-- Settles O58: the outcome is a function of the footer value and the stream, and the state that DECODE leaves is fixed
by the outcome but for `IN`. -/
theorem decodeIgnoresPadding : Obligations.DecodeIgnoresPadding := by
  intro s inMem inSeed hp hwf u hfooter hbits
  have hsame : decodeOutcome u = decodeOutcome s :=
    decodeOutcome_congr rfl rfl rfl rfl rfl hfooter (inStream_congr hbits)
  cases ho : decodeOutcome s with
  | ok l =>
    obtain ⟨t, ht, hl⟩ := exec_decode_ok hp ho
    obtain ⟨v, hv, hm⟩ := exec_decode_ok (s := u) hp (hsame.trans ho)
    have hframe := deliver_withSpaces hl.frame hm.frame (hl.unique hm hwf hwf hfooter)
    exact ⟨t, ht, hv.trans (congrArg _ hframe)⟩
  | error e =>
    have hraise := raiseError_withSpaces (s := s) (inMem := inMem) (inSeed := inSeed) (out := s.out)
      (show Instr.decode ≠ .count by decide) e
    exact ⟨_, exec_decode_error hp ho, (exec_decode_error (s := u) hp (hsame.trans ho)).trans (congrArg _ hraise)⟩

end Sys2Proof.Machine
end

section
/-! PROOF. The round trip: a DECODE of what an ENCODE has delivered, with the same table, gives the buffer back. -/

namespace Sys2Proof.Machine

theorem fwBytes_congr {p q : Params} (h : p.fw = q.fw) : p.fwBytes = q.fwBytes := by
  rw [Params.fwBytes, Params.fwBytes, h]

/-! ### The packed buffer as the input of a DECODE (R66, R68) -/

section

variable {s t u : State} {l : List Bool} (henc : Encoded l s t) (hfw : u.params.fw = s.params.fw) (hlen : u.ilen = t.olen)
  (hbytes : ∀ a, a < t.olen.toNat → u.inByte a = t.outByte a)
include henc hfw hlen hbytes

/-- The footer that ENCODE wrote is read as the number of packed bits (R66). -/
theorem footerValue_of_encoded : footerValue u = l.length := by
  have holen := henc.olen
  have hwidth := fwBytes_congr hfw
  have hstart : u.ilen.toNat - u.params.fwBytes = ceil8 l.length := by rw [hlen, hwidth]; omega
  rw [footerValue, hstart, hwidth]
  refine littleEndian_of_bytes (Nat.lt_of_le_pred (Nat.two_pow_pos _) henc.count) fun k hk => ?_
  rw [hbytes _ (by omega), henc.footer_byte hk]

theorem footerFits_of_encoded : FooterFits u := by
  have holen := henc.olen
  rw [FooterFits, footerValue_of_encoded henc hfw hlen hbytes, hlen, fwBytes_congr hfw]
  unfold ceil8 at holen
  omega

/-- The stream read downward is the packed bits, the last packed first (R68). -/
theorem inStream_of_encoded : inStream u (footerValue u) = l.reverse := by
  have holen := henc.olen
  rw [footerValue_of_encoded henc hfw hlen hbytes, ← henc.stream, inStream, outStream]
  congr 1
  refine List.map_congr_left fun p hp => ?_
  have hp := List.mem_range.1 hp
  rw [streamBit, outBit, hbytes (p / 8) (by unfold ceil8 at holen; omega)]

end

/-- What a successful ENCODE delivers is, for a DECODE with its table, the stream of the buffer's codes. -/
theorem streamOf_encoded {s t u : State} {l : List Bool} (hl : encodeOutcome s = .ok l) (henc : Encoded l s t)
    (hfw : u.params.fw = s.params.fw) (hft : u.ft = s.ft) (hlen : u.ilen = t.olen) (hin : t.olen.toNat ≤ u.params.inMax)
    (hbytes : ∀ a, a < t.olen.toNat → u.inByte a = t.outByte a) : ∃ tr, StreamOf tr (buffer s) [] u := by
  obtain ⟨-, tr, hb, hleaves, -, -, hcode⟩ := encodeOutcome_ok hl
  have hstream := inStream_of_encoded henc hfw hlen hbytes
  have hsome : u.ilen ≠ 0#64 := by
    intro hzero
    have holen := henc.olen
    have := (fwBytes_pos s.params).1
    rw [← hlen, hzero, BitVec.toNat_zero] at holen
    omega
  rw [hcode, List.reverse_reverse] at hstream
  exact ⟨tr, ⟨hsome, hlen ▸ hin⟩, footerFits_of_encoded henc hfw hlen hbytes, hft ▸ hb, hft ▸ hleaves,
    hstream.trans (List.append_nil _).symm⟩

/-- On two blocks with the same `FW` and the same `FT` a DECODE with room for the symbols turns what an ENCODE
delivers back into the buffer (R141). -/
theorem decode_of_encoded {s t u : State} (hs : s.params.Legal) (hu : u.params.Legal) (h : exec .encode s = .next t)
    (herr : t.err = 0#8) (hfw : u.params.fw = s.params.fw) (hft : u.ft = s.ft) (hlen : u.ilen = t.olen)
    (hin : t.olen.toNat ≤ u.params.inMax) (hbytes : ∀ a, a < t.olen.toNat → u.inByte a = t.outByte a)
    (hroom : s.ilen.toNat ≤ u.params.outMax) :
    ∃ v, exec .decode u = .next v ∧ v.err = 0#8 ∧ v.olen = s.ilen ∧ v.bitcnt = t.bitcnt ∧ result v = buffer s := by
  obtain ⟨l, hl, henc⟩ := encoded_of_success hs h herr
  obtain ⟨tr, hstream⟩ := streamOf_encoded hl henc hfw hft hlen hin hbytes
  obtain ⟨v, hrun, hdec⟩ := exec_decode_ok hu (hstream.ok (buffer_length s ▸ hroom))
  have holen : v.olen.toNat = s.ilen.toNat := hdec.olen.trans (buffer_length s)
  have hbits : v.bitcnt.toNat = t.bitcnt.toNat := by
    rw [hdec.bitcnt, footerValue_of_encoded henc hfw hlen hbytes, henc.bitcnt]
  exact ⟨v, hrun, hdec.err, BitVec.eq_of_toNat_eq holen, BitVec.eq_of_toNat_eq hbits, hdec.result⟩

/-! ### COUNT, ENCODE, LOOPBACK, DECODE on one block (R72, R141) -/

/-- A run that answers a next state can be continued from there. -/
theorem run_add {k : Nat} (j : Nat) {s t : State} (h : Host.Core.run Sys2Proof.core k s = .next t) :
    Host.Core.run Sys2Proof.core (k + j) s = Host.Core.run Sys2Proof.core j t := by
  induction k generalizing s with
  | zero =>
    obtain rfl : s = t := by injection h
    rw [Nat.zero_add]
  | succ k ih =>
    rw [Nat.add_right_comm]
    simp only [Host.Core.run] at h ⊢
    cases hstep : Sys2Proof.core.step s with
    | next v => rw [hstep] at h; exact ih h
    | fault e => rw [hstep] at h; cases h
    | refused e => rw [hstep] at h; cases h

/-- `LOOPBACK` and a command after it: the command runs on the block whose input is the old result (R72). -/
theorem run_loopback_command {s : State} {op : BitVec 8} {i : Instr} (hs : s.Inv) (hfits : s.olen.toNat ≤ s.params.inMax)
    (hop : decode op = .ok i) :
    ∃ u, u = { s with host := [], ilen := s.olen, inMem := u.inMem } ∧
      (∀ a, a < s.olen.toNat → u.inByte a = s.outByte a) ∧
      ∀ t, exec i u = .next t → Host.Core.run Sys2Proof.core ((loopback s).length + 1)
        { s with host := loopback s ++ [cmdWrite op] } = .next t := by
  obtain ⟨w, hrun, hframe, hbytes, -⟩ := loopbackCopiesTheResult s [cmdWrite op] hs hfits
  have hidle : w.phase = .idle := by rw [hframe]; exact hs.idle
  have hhost : w.host = [cmdWrite op] := by rw [hframe]
  have hcode : decode ((op.setWidth 64).setWidth 8) = .ok i := by
    rw [BitVec.setWidth_setWidth_of_le _ (by decide), BitVec.setWidth_eq, hop]
  have hstep : step w = exec i { w with host := [] } := stepRunsTheDecodedCommand w _ [] i hidle hhost hcode
  refine ⟨{ w with host := [] }, by rw [hframe], hbytes, fun t hexec => ?_⟩
  rw [run_add 1 hrun]
  exact run_next (hstep.trans hexec)

/-- ENCODE, LOOPBACK, DECODE on one block whose table has every symbol of the buffer and whose parameters leave room
for the bits and the results. -/
theorem encode_loopback_decode {s : State} {tr : Tree} (hs : s.Inv) (hfits : BufferFits s) (hb : buildTree s.ft = .ok tr)
    (hleaves : ∀ b ∈ buffer s, entry s.ft b ≠ 0#32) (hbits : (bufferCode tr s).length ≤ maxBitCount s.params)
    (hout : ceil8 (bufferCode tr s).length + s.params.fwBytes ≤ s.params.outMax)
    (hin : ceil8 (bufferCode tr s).length + s.params.fwBytes ≤ s.params.inMax) (hroom : s.ilen.toNat ≤ s.params.outMax) :
    ∃ e d, exec .encode s = .next e ∧ e.err = 0#8 ∧
      Host.Core.run Sys2Proof.core ((loopback e).length + 1) { e with host := loopback e ++ [cmdWrite 0x03#8] } = .next d ∧
      d.err = 0#8 ∧ d.olen = s.ilen ∧ result d = buffer s := by
  obtain ⟨e, he, henc⟩ := exec_encode_ok hs.legal (encodeOutcome_of_room hfits hb hleaves hbits hout)
  have hsame := henc.same
  have hein : e.olen.toNat ≤ s.params.inMax := by rw [henc.olen, List.length_reverse]; exact hin
  obtain ⟨u, hu, hbytes, hrun⟩ :=
    run_loopback_command (op := 0x03#8) (i := .decode) (exec_inv hs he) (hsame.params ▸ hein) rfl
  have huparams : u.params = s.params := by rw [hu]; exact hsame.params
  have huft : u.ft = s.ft := by rw [hu]; exact hsame.ft
  have hulen : u.ilen = e.olen := by rw [hu]
  obtain ⟨d, hd, hderr, hdlen, -, hdresult⟩ := decode_of_encoded hs.legal (huparams ▸ hs.legal) he henc.err
    (congrArg Params.fw huparams) huft hulen (huparams ▸ hein) hbytes (huparams ▸ hroom)
  exact ⟨e, d, he, henc.err, hrun d hd, hderr, hdlen, hdresult⟩

/-- Settles O59: COUNT gives every symbol of the buffer a leaf, so ENCODE has nothing against it but room, and `LOOPBACK`
makes the block one whose input is ENCODE's result. -/
theorem roundTrip : Obligations.RoundTrip := by
  refine ⟨fun s hs hfits hcounts hroom htables => ?_, fun s t u => decode_of_encoded⟩
  obtain ⟨c, hc, hcount, -⟩ := countCompletes s hfits hcounts
  have hcerr : c.err = 0#8 := by rw [hcount]
  obtain ⟨hleaves, ⟨b, hb⟩, -⟩ := countedBufferHasLeaves s c hc hcerr
  obtain ⟨-, -, rfl⟩ := exec_count_success hc hcerr
  obtain ⟨tr, htr⟩ := buildTree_ok (List.ne_nil_of_mem (mem_alphabet.2 hb))
  obtain ⟨hbits, hout, hin⟩ := htables tr htr
  obtain ⟨e, d, hrest⟩ := encode_loopback_decode (exec_inv hs hc) hfits htr hleaves hbits hout hin hroom
  exact ⟨_, e, d, hc, hcerr, hrest⟩

end Sys2Proof.Machine
end

section
/-! PROOF. The exceptions: what a failed command leaves, the errors that each command can raise, and OutputFullError in
GROW, before the footer and in an emission. -/

namespace Sys2Proof.Machine

variable {s t : State} {tr : Tree} {bs : List Byte} {rest : List Bool}

/-! ### What a failed command leaves (R160) -/

/-- A command that leaves a code other than 0 in `STATUS.ERR` has raised an error. -/
theorem raised_of_failed {i : Instr} (h : exec i s = .next t) (hfailed : t.err ≠ 0#8) : ∃ e, t = raiseError i e s := by
  rcases exec_cases i s with ⟨e, hrun⟩ | ⟨u, hrun, hok, -⟩
  · exact ⟨e, by injection h.symm.trans hrun⟩
  · obtain rfl : t = u := by injection h.symm.trans hrun
    exact absurd hok hfailed

/-- Settles O39: in COUNT `raise` sets the error and the phase alone, in ENCODE and DECODE it takes the result back. -/
theorem failedCommandLeaves : Obligations.FailedCommandLeaves := by
  intro i s t h hfailed
  obtain ⟨e, rfl⟩ := raised_of_failed h hfailed
  refine ⟨e, raiseError_err i e s, ?_, fun hi => raiseError_failedAs hi e s⟩
  rintro rfl
  rfl

/-! ### The errors of each command (R165) -/

theorem count_err_mem (h : exec .count s = .next t) : t.err ∈ [0#8, 1#8, 11#8, 10#8] := by
  rcases exec_count_cases s with ⟨-, hrun⟩ | ⟨-, -, hrun⟩ | ⟨-, -, hrun⟩ | ⟨-, -, hrun⟩ <;>
    obtain rfl : t = _ := by injection h.symm.trans hrun
  · rw [raiseError_err]; decide
  · rw [raiseError_err]; decide
  · rw [raiseError_err]; decide
  · exact List.mem_cons_self

theorem encode_err_mem (hp : s.params.Legal) (h : exec .encode s = .next t) :
    t.err ∈ [0#8, 1#8, 11#8, 2#8, 5#8, 8#8, 9#8] := by
  rcases encode_next_cases hp h with ⟨l, -, henc⟩ | ⟨e, he, rfl⟩
  · exact henc.err ▸ List.mem_cons_self
  · rw [raiseError_err]
    rcases encodeOutcome_error he with rfl | rfl | ⟨rfl, -⟩ | ⟨rfl, -⟩ | rfl | rfl
    all_goals decide

theorem decode_err_mem (hp : s.params.Legal) (h : exec .decode s = .next t) :
    t.err ∈ [0#8, 1#8, 11#8, 2#8, 3#8, 6#8, 9#8, 7#8] := by
  rcases decode_next_cases hp h with ⟨l, -, hdec⟩ | ⟨e, he, rfl⟩
  · exact hdec.err ▸ List.mem_cons_self
  · have hcase := decodeOutcome_case s
    rw [he] at hcase
    rw [raiseError_err]
    cases hcase with
    | emptyInput | lengthRange | emptyAlphabet | truncated | outputFull | dangling | absent => decide

/-- Settles O40: a success leaves 0 and a failure the number of one of the command's own errors. -/
theorem errorsOfEachCommand : Obligations.ErrorsOfEachCommand :=
  ⟨by decide, fun _ _ hp => ⟨count_err_mem, encode_err_mem hp, decode_err_mem hp⟩⟩

/-! ### OutputFullError (R159) -/

/-- Where the bits of the codes reach the end of `OUT` before the footer's limit, GROW fails (R113). -/
theorem encodeOutcome_of_grow_full (hfits : BufferFits s) (hb : buildTree s.ft = .ok tr)
    (hleaves : ∀ b ∈ buffer s, entry s.ft b ≠ 0#32) (hbits : 8 * s.params.outMax < (bufferCode tr s).length)
    (hcount : 8 * s.params.outMax < maxBitCount s.params) : encodeOutcome s = .error .outputFull := by
  have hreached : bitLimit s.params < (bufferCode tr s).length := by rwa [bitLimit, min_eq_right hcount.le]
  rw [encodeOutcome_of_leaves hfits hb hleaves, if_pos hreached, limitError, if_neg (not_le.2 hcount)]

/-- Bits that the footer counts fail in GROW or, if `OUT` holds them, for want of room with the footer (R124). -/
theorem encodeOutcome_of_footer_full (hfits : BufferFits s) (hb : buildTree s.ft = .ok tr)
    (hleaves : ∀ b ∈ buffer s, entry s.ft b ≠ 0#32) (hcount : (bufferCode tr s).length ≤ maxBitCount s.params)
    (hfull : s.params.outMax < ceil8 (bufferCode tr s).length + s.params.fwBytes) :
    encodeOutcome s = .error .outputFull := by
  by_cases hbits : 8 * s.params.outMax < (bufferCode tr s).length
  · exact encodeOutcome_of_grow_full hfits hb hleaves hbits (hbits.trans_le hcount)
  · have hlimit : (bufferCode tr s).length ≤ bitLimit s.params := le_min hcount (not_lt.1 hbits)
    rw [encodeOutcome_of_leaves hfits hb hleaves, if_neg (not_lt.2 hlimit), if_pos hfull]

/-- One symbol more than `OUT` holds is one emission too many (R136). -/
theorem StreamOf.full (h : StreamOf tr bs rest s) (hfull : s.params.outMax < bs.length) :
    decodeOutcome s = .error .outputFull := by
  have hmem : ∀ b ∈ bs, b ∈ alphabet s.ft := fun b hb => mem_alphabet.2 (h.leaves b hb)
  rw [decodeOutcome_of_built h.fits h.built h.footer, h.stream,
    (buildTree_built h.built).walk_codes s.params hmem [] rest (Nat.zero_le _), List.length_nil, Nat.zero_add,
    if_neg (not_le.2 hfull)]

/-- Settles O48: the outcome is OutputFullError in each of its places, and `raise` leaves what R160 says. -/
theorem outputFullWhenOutIsFull : Obligations.OutputFullWhenOutIsFull := by
  refine ⟨fun s tr hp hfits hb hleaves hfull => ?_, fun s tr bs rest hp hfits hb hfooter hleaves hlen hstream => ?_⟩
  · have hraised : encodeOutcome s = .error .outputFull := by
      rcases hfull with ⟨hbits, hcount⟩ | ⟨hcount, hroom⟩
      · exact encodeOutcome_of_grow_full hfits hb hleaves hbits hcount
      · exact encodeOutcome_of_footer_full hfits hb hleaves hcount hroom
    exact ⟨_, exec_encode_error hp hraised, raiseError_failedAs (by decide) .outputFull s⟩
  · have hs : StreamOf tr bs rest s := ⟨hfits, hfooter, hb, hleaves, hstream⟩
    exact exec_decode_fails hp (hs.full (by omega))

end Sys2Proof.Machine
end

section
/-! PROOF. Reset and the idle block: what reset leaves, that the block waits for the host, what each command does right
after reset, and that every `CMD` write leads back to `IDLE`. -/

namespace Sys2Proof.Machine

/-! ### What reset leaves (R180) -/

/-- Settles O6: a step of the idle block serves the host, who has no move. -/
theorem idleBlockWaits : Obligations.IdleBlockWaits := by
  intro s hidle hhost
  rw [step, if_pos hidle, serveHost, hhost]

/-- Settles O9: the reset state and the state of the reset event differ in the parameters, the free values and the host's
moves alone, and in all else hold the values of R180. -/
theorem resetLeaves : Obligations.ResetLeaves := by
  unfold Obligations.ResetLeaves
  intro afterReset
  have values (t : State) (h : t = { State.resetWith t.params with
      inSeed := t.inSeed, outSeed := t.outSeed, bitcur := t.bitcur, sidx := t.sidx, opos := t.opos, cap := t.cap
      cur := t.cur, host := t.host }) : afterReset t := by
    rw [h]
    exact ⟨entry_replicate 0#32, rfl, rfl, rfl, rfl, rfl, rfl, rfl, entry_replicate NIL, rfl, rfl, fun _ => ⟨rfl, rfl⟩⟩
  exact ⟨values _ rfl, fun s rest hidle hhost => ⟨_, step_move hidle hhost, values _ rfl, rfl, rfl⟩⟩

/-- The open parameters of the reset state lie in the ranges of R5, for they are made from bit vectors of those sizes. -/
theorem config_params_legal : Config.params.Legal :=
  ⟨Nat.succ_pos _, ⟨Nat.succ_pos _, Config.inMaxLess1.isLt⟩, ⟨Nat.succ_pos _, Config.outMaxLess1.isLt⟩⟩

/-- The reset state is what the reset event leaves, up to the free values, so legal parameters suffice (R5, R180). -/
theorem resetWith_inv {p : Params} (h : p.Legal) : (State.resetWith p).Inv :=
  { resetEvent_inv (s := State.resetWith p) h with }

/-- Settles O11: the parameters of the reset state are legal, whatever they are. -/
theorem resetMeetsInvariant : Obligations.ResetMeetsInvariant := resetWith_inv config_params_legal

/-! ### Commands of the idle block (R182, R198) -/

/-- Settles O10: the length is 0 until the host sets it, the table sums to zero, and no byte value occurs more often than
the buffer is long. -/
theorem commandsRightAfterReset : Obligations.CommandsRightAfterReset := by
  intro p _
  refine ⟨fun i => ?_, fun n hsome hfits => ?_, fun n seed hsome hfits hshort => ?_⟩
  · have hempty : entryChecks (State.resetWith p) = .error .emptyInput := if_pos rfl
    exact ⟨_, exec_of_entryChecks_error hempty, raiseError_err i _ _⟩
  · have hsum : tableSum (State.resetWith p).ft = 0 := tableSum_eq_zero.2 (entry_replicate 0#32)
    obtain ⟨⟨t, ht, htfailed⟩, u, hu, hufailed⟩ :=
      emptyTableIsEmptyAlphabet.2 { State.resetWith p with ilen := n } ⟨hsome, hfits⟩ hsum
    exact ⟨t, u, ht, htfailed.err, hu, hufailed.err⟩
  · intro s
    have hcounts (b : Byte) : occursIn s b ≤ 2 ^ 32 - 1 := (occursIn_le s b).trans (Nat.le_sub_one_of_lt hshort)
    obtain ⟨t, hrun, hframe, hentries⟩ := countCompletes s ⟨hsome, hfits⟩ hcounts
    exact ⟨t, hrun, by rw [hframe], hentries⟩

/-- A command always ends: in `IDLE`, with a known error code and the host's moves as they were (R63, R175). -/
theorem exec_ends_idle (i : Instr) (s : State) :
    ∃ t, exec i s = .next t ∧ t.phase = .idle ∧ t.host = s.host ∧ t.err.toNat ≤ 11 := by
  have ⟨t, hrun⟩ : ∃ t, exec i s = .next t := by
    rcases exec_cases i s with ⟨e, hrun⟩ | ⟨t, hrun, -⟩
    · exact ⟨_, hrun⟩
    · exact ⟨t, hrun⟩
  obtain ⟨-, -, -, -, hhost, -, hidle, herr⟩ := exec_keeps hrun
  exact ⟨t, hrun, hidle, hhost, herr⟩

/-- Settles O8: a code that is no command's sets `STATUS.ERR` alone, and a command ends in `IDLE` with the code of its
result or error. -/
theorem everyCommandWriteEndsIdle : Obligations.EveryCommandWriteEndsIdle := by
  intro s v rest hidle hhost
  rw [step_move hidle hhost]
  cases hop : decode (v.setWidth 8) with
  | error r => exact ⟨_, takeMove_reserved _ hop, hidle, rfl, code_le .illegalCommand⟩
  | ok i =>
    obtain ⟨t, hrun, hend⟩ := exec_ends_idle i { s with host := rest }
    exact ⟨t, (takeMove_command _ hop).trans hrun, hend⟩

end Sys2Proof.Machine
end
